-- ==== Sys2Proof/Word.lean ====
section
/-! DEFINITION. The parameters of spec/00_scope.md R7 that fix the shape of the state, and the word types of the block:
registers and ports, buffer bytes, depths (R8, spec/20_memory.md R86). The types of the state and every definition over
them take the shape as a parameter: `Dev sh`, `State.At sh`, `stepAt`; functions and abbreviations that name a width
outside such a definition default to this hardware's shape. The other parameters of R7 are fields of `Config`
(Config.lean), which a state carries. -/

namespace Sys2Proof

/-- The parameters of R7 that fix how many registers there are and how wide their fields are. The types of State are
built from them, so a machine has one value of this record, not a state. -/
structure Shape where
  /-- R7 `N`: the endpoint count; endpoint numbers are 0..N-1, slot N is the pad slot (R52). -/
  endpoints  : Nat
  /-- R7 `NTX`: the number of transmit FIFO regions, one per IN endpoint (R33). -/
  txRegions  : Nat
  /-- R7 `W`: the width of FIFO ports and registers. -/
  wordBits   : Nat
  /-- R7 `MPS_BITS`: the width of a max-packet-size field. -/
  mpsBits    : Nat
  /-- R7 `DEPTH_BITS`: the width of a depth or start-address field. -/
  depthBits  : Nat
  /-- R7 `XFRSIZ_BITS`. -/
  xfrsizBits : Nat
  /-- R7 `PKTCNT_BITS`. -/
  pktcntBits : Nat
deriving DecidableEq, Repr

/-- The values R7 gives this hardware. -/
abbrev Shape.hardware : Shape where
  endpoints  := 6
  txRegions  := 6
  wordBits   := 32
  mpsBits    := 11
  depthBits  := 16
  xfrsizBits := 19
  pktcntBits := 10

/-- The shapes for which the layouts of R21 to R46 have room: an endpoint number fits the scan of a half of DAINT (R38),
every fixed field lies in a word of whole bytes, and no variable field reaches the next one. -/
def Shape.hasRoom (sh : Shape) : Bool :=
  decide (1 ≤ sh.endpoints) && decide (sh.endpoints ≤ 16) && decide (sh.txRegions = sh.endpoints) &&
  decide (32 ≤ sh.wordBits) && decide (sh.wordBits % 8 = 0) && decide (sh.mpsBits ≤ 15) &&
  decide (2 * sh.depthBits ≤ sh.wordBits) && decide (sh.xfrsizBits + sh.pktcntBits ≤ sh.wordBits)

/-- R84: the bytes of a FIFO word, 4 on this hardware. -/
abbrev Shape.wordBytes (sh : Shape) : Nat := sh.wordBits / 8

/-- R7 `N` of this hardware. -/
abbrev N : Nat := Shape.hardware.endpoints

/-- A register word or a FIFO port word (R7 `W`, R86). -/
abbrev RegWord (sh : Shape := Shape.hardware) := BitVec sh.wordBits

/-- A word whose width is no parameter: a command word (R111, R113), an event word (R125), a buffer address (R83), the
FAULT register (R60). -/
abbrev Word := BitVec 32

/-- A byte of the application buffer memory (R86). -/
abbrev Byte := BitVec 8

/-- A depth or a start address, in FIFO words (R7 `DEPTH_BITS`, R30 to R32). -/
abbrev Half (sh : Shape := Shape.hardware) := BitVec sh.depthBits

end Sys2Proof
end

