-- ==== Sys2Proof/Config.lean ====
section
/-! DEFINITION. The parameters of spec/00_scope.md R7 and the free values of the model. Every parameter of R7 is a
field: those that fix the shape of the state are fields of `Shape` (Word.lean), on which `Config`, `Dev`, State and every
operation depend; all others are fields of `Config`, which a state carries and no step changes. `Shape.hardware` and
`Config.hardware` take the values of R7's value column. -/

namespace Sys2Proof

variable {sh : Shape}

/-- R7 `MPS_BITS`: the largest max packet size is what the field `mpsiz` holds, 2047 (R160). -/
abbrev maxPacketSizeLimit (sh : Shape := Shape.hardware) : Nat := 2 ^ sh.mpsBits - 1

/-- R7 `OOR_POLICY`: what an access to endpoint slot N does (R52). -/
inductive OorPolicy where
  | harmless
  | fault
deriving DecidableEq, Repr, Inhabited

/-- One TX region of the packet buffer: start address and depth, both in FIFO words (R31, R32). -/
structure TxRegion (sh : Shape) where
  start : Half sh
  depth : Half sh
deriving DecidableEq, Repr, Inhabited

/-- R7 `RESET_FIFO`: the reset values of the seven depth fields and the six start fields (R68). -/
structure ResetFifo (sh : Shape) where
  rxfd : Half sh
  tx   : Vector (TxRegion sh) sh.txRegions
deriving DecidableEq, Repr

/-- The parameters of R7 that do not fix the shape of the state. A state carries one and no step changes it. -/
structure Config (sh : Shape) where
  /-- `RX_OVERHEAD_WORDS`: the fixed reserve in the RX depth (R140). -/
  rxOverheadWords : Nat
  /-- `RX_WORDS_PER_CHUNK`: the words reserved per 4-byte chunk of the RX size (R140). -/
  rxWordsPerChunk : Nat
  /-- `CTRL_RX_BYTES`: the RX byte size applied when the control endpoint activates (R160). -/
  ctrlRxBytes     : Nat
  /-- `ENUM_CTRL_MPS`: the control max packet size applied at enumeration done (R214). -/
  enumCtrlMps     : Nat
  /-- `DEACT_ALL_LAST`: the last index deactivate-all visits, inclusive (R163). Slots above N are never addressed by any
  rule (R52), so it is at most N. -/
  deactAllLast    : Fin (sh.endpoints + 1)
  /-- `OOR_POLICY`. -/
  oorPolicy       : OorPolicy
  /-- `FLUSH_SYNC`: a flush request completes in the requesting step (R175). -/
  flushSync       : Bool
  /-- `IN_INT_ALL`: every defined IN per-endpoint cause (R42). -/
  inIntAll        : RegWord sh
  /-- `OUT_INT_ALL`: every defined OUT per-endpoint cause (R46). -/
  outIntAll       : RegWord sh
  /-- `FIFO_RAM_WORDS`: the capacity of the packet buffer in words (R144). -/
  fifoRamWords    : Nat
  /-- `RESET_FIFO`. -/
  resetFifo       : ResetFifo sh
deriving DecidableEq, Repr

/-- R52: deactivate-all reaches the pad slot, and the policy makes its first register access there a fault. -/
def Config.padFaults (c : Config sh) : Bool := c.deactAllLast == Fin.last sh.endpoints && c.oorPolicy == .fault

/-- R144 `LayoutFits`, of regions that take `words` words in all: they fit the packet buffer, and the cursor of R142 has
not wrapped at `2 ^ DEPTH_BITS` words, the extreme case of R326 (U28). -/
def Config.fits (c : Config sh) (words : Nat) : Bool := decide (words ≤ c.fifoRamWords) && decide (words < 2 ^ sh.depthBits)

/-- The parameters to which R7 gives one value, other than the two policies, have that value. -/
structure Config.TakesR7 (c : Config .hardware) : Prop where
  overhead : c.rxOverheadWords = 10
  perChunk : c.rxWordsPerChunk = 2
  ctrlRx   : c.ctrlRxBytes = 64
  ctrlMps  : c.enumCtrlMps = 8
  last     : c.deactAllLast = Fin.last N
  inAll    : c.inIntAll = 0x000029FF#32
  outAll   : c.outIntAll = 0x0000715F#32

/-- R7 `FIFO_RAM_WORDS` is OPEN: the spec gives no capacity and forbids to assume one (N2). Free value, log entry 5. -/
opaque Config.openFifoRamWords : Nat

/-- Free value (log entry 6): the word a faulting pop returns (R92), one per draw. -/
opaque Config.freeWord {w : Nat} (draw : Nat) : BitVec w

/-- Free value (log entry 6): byte lane `lane` above the last byte of a final partial word (R193, R253). -/
opaque Config.freeByte (draw lane : Nat) : Byte

/-- Free value (log entry 7): a queued word whose contents the spec calls unspecified (R144, R147). Queue `e` below N is
TXQ[e], queue N is RXQ; `place` is the position in the queue. -/
opaque Config.freeQueued {w : Nat} (draw queue place : Nat) : BitVec w

/-- Free value (log entry 7): the tag of such a word of RXQ; true stands for a status entry. -/
opaque Config.freeTag (draw place : Nat) : Bool

/-- The values R7 gives this hardware. `RESET_FIFO` is OPEN and taken as 0, as the test vectors do (log entry 4). -/
def Config.hardware : Config .hardware where
  rxOverheadWords := 10
  rxWordsPerChunk := 2
  ctrlRxBytes     := 64
  enumCtrlMps     := 8
  deactAllLast    := Fin.last N
  oorPolicy       := .harmless
  flushSync       := false
  inIntAll        := 0x000029FF#32
  outIntAll       := 0x0000715F#32
  fifoRamWords    := Config.openFifoRamWords
  resetFifo       := { rxfd := 0, tx := Vector.replicate Shape.hardware.txRegions { start := 0, depth := 0 } }

end Sys2Proof
end

