-- ==== Sys2Proof/Syntax.lean ====
section
/-! DEFINITION. The command set: one constructor of `Instr` per row of the opcode map (spec/30_encoding.md R115),
with its operands after assembly (R112, R113). -/

namespace Sys2Proof

/-- R119: the transfer type of an endpoint. -/
inductive EpType where
  | control
  | isochronous
  | bulk
  | interrupt
deriving DecidableEq, Repr, Inhabited

/-- A command. Endpoint numbers, byte sizes and the device address are numbers (R112: zero-extended, no scaling, no
sign); the buffer address is a 32-bit word (R113). -/
inductive Instr where
  /-- 0x01, R140. -/
  | setRxFifoSize (size : Nat)
  /-- 0x02, R141. -/
  | setTxFifoSize (ep size : Nat)
  /-- 0x10, R160. -/
  | activateControlEp (mps : Nat)
  /-- 0x11, R161. -/
  | activateInEp (ep : Nat) (eptyp : EpType) (mps : Nat)
  /-- 0x12, R162. -/
  | deactivateEp (ep : Nat)
  /-- 0x13, R163. -/
  | deactivateAll
  /-- 0x14, R164. -/
  | flushRx
  /-- 0x15, R165. -/
  | flushTx (ep : Nat)
  /-- 0x20, R190; `ba` is the second word. -/
  | readPacket (size : Nat) (ba : Word)
  /-- 0x21, R192; `ba` is the second word. -/
  | writePacket (ep size : Nat) (ba : Word)
  /-- 0x30, R210. -/
  | poll
  /-- 0x40, R240. -/
  | initCore
  /-- 0x41, R241. -/
  | setAddress (addr : Nat)
  /-- 0x42, R242. -/
  | connect
  /-- 0x43, R243. -/
  | disconnect
deriving DecidableEq, Repr, Inhabited

/-- R121: the pseudo-instruction `configure_in_endpoint` is another name of ACTIVATE_IN_EP. -/
abbrev Instr.configureInEndpoint (ep : Nat) (type : EpType) (mps : Nat) : Instr := .activateInEp ep type mps

/-- R121: the pseudo-instruction `deconfigure_endpoint` is another name of DEACTIVATE_EP. -/
abbrev Instr.deconfigureEndpoint (ep : Nat) : Instr := .deactivateEp ep

/-- R119, the name of a transfer type in the textual form (R120). -/
def EpType.text : EpType → String
  | .control => "control"
  | .isochronous => "iso"
  | .bulk => "bulk"
  | .interrupt => "interrupt"

/-- R120: the textual form of a command, numbers in decimal. -/
def Instr.text : Instr → String
  | .setRxFifoSize size => "set_rx_fifo_size size=" ++ toString size
  | .setTxFifoSize ep size => "set_tx_fifo_size ep=" ++ toString ep ++ ", size=" ++ toString size
  | .activateControlEp mps => "activate_control_ep mps=" ++ toString mps
  | .activateInEp ep t mps =>
    "activate_in_ep ep=" ++ toString ep ++ ", type=" ++ t.text ++ ", mps=" ++ toString mps
  | .deactivateEp ep => "deactivate_ep ep=" ++ toString ep
  | .deactivateAll => "deactivate_all"
  | .flushRx => "flush_rx"
  | .flushTx ep => "flush_tx ep=" ++ toString ep
  | .readPacket size ba => "read_packet size=" ++ toString size ++ ", buf=" ++ toString ba.toNat
  | .writePacket ep size ba =>
    "write_packet ep=" ++ toString ep ++ ", size=" ++ toString size ++ ", buf=" ++ toString ba.toNat
  | .poll => "poll"
  | .initCore => "init_core"
  | .setAddress addr => "set_address addr=" ++ toString addr
  | .connect => "connect"
  | .disconnect => "disconnect"

end Sys2Proof
end

