-- ==== Sys2Proof/WellFormed.lean ====
section
/-! DEFINITION. Which commands can be written as words: each operand fits its field of the command word
(spec/30_encoding.md R111, R112). An operand that fits but is out of range for the command (R118) is well formed: the
command's own `pre:` line judges it. -/

namespace Sys2Proof

/-- R111: an endpoint number fits `cw[23:20]`. -/
abbrev epFits (ep : Nat) : Bool := decide (ep < 16)

/-- R111: a byte count or max packet size fits `cw[15:0]`. -/
abbrev immFits (n : Nat) : Bool := decide (n < 65536)

/-- R112: a device address fits `cw[6:0]`. -/
abbrev addrFits (a : Nat) : Bool := decide (a < 128)

/-- A command whose operands fit their fields (R112). -/
def Instr.wf : Instr → Bool
  | .setRxFifoSize size => immFits size
  | .setTxFifoSize ep size => epFits ep && immFits size
  | .activateControlEp mps => immFits mps
  | .activateInEp ep _ mps => epFits ep && immFits mps
  | .deactivateEp ep => epFits ep
  | .deactivateAll => true
  | .flushRx => true
  | .flushTx ep => epFits ep
  | .readPacket size _ => immFits size
  | .writePacket ep size _ => epFits ep && immFits size
  | .poll => true
  | .initCore => true
  | .setAddress addr => addrFits addr
  | .connect => true
  | .disconnect => true

end Sys2Proof
end

