-- ==== Sys2Proof/Decode.lean ====
section
/-! DEFINITION. The decoder of the command port, total on every list of words (spec/30_encoding.md R110 to R118, R131),
and after it the encoder, from the same tables. -/

namespace Sys2Proof

/-- Why a command word is reserved. -/
inductive Reserved where
  /-- R117: no row of the opcode map has this opcode. -/
  | unknownOpcode
  /-- R116: the opcode has a row, and a must-be-zero bit is 1. -/
  | mustBeZero
deriving DecidableEq, Repr

/-- What the decoder reads from the words on the command port; `rest` are the words it leaves. -/
inductive Decoded where
  | command (i : Instr) (rest : List Word)
  /-- R116, R117: a reserved encoding; the words it takes are consumed. -/
  | reserved (why : Reserved) (rest : List Word)
  /-- The port holds no word, or only the first word of a two-word command (R113, R114). -/
  | incomplete
deriving DecidableEq, Repr

/-- R111: `opcode = cw[31:24]`. -/
def opcodeOf (cw : Word) : Nat := (cw.extractLsb' 24 8).toNat

/-- R112: `ep = cw[23:20]`. -/
def epOf (cw : Word) : Nat := (cw.extractLsb' 20 4).toNat

/-- R119: the transfer type a 2-bit code stands for. -/
def epTypeOfCode (c : BitVec 2) : EpType :=
  match c.toNat with
  | 0 => .control
  | 1 => .isochronous
  | 2 => .bulk
  | _ => .interrupt

/-- R119: the 2-bit code of a transfer type. -/
def codeOfEpType : EpType → BitVec 2
  | .control => 0#2
  | .isochronous => 1#2
  | .bulk => 2#2
  | .interrupt => 3#2

/-- R112: `eptyp = cw[19:18]`. -/
def epTypeOf (cw : Word) : EpType := epTypeOfCode (cw.extractLsb' 18 2)

/-- R112: `imm16 = cw[15:0]`. -/
def immOf (cw : Word) : Nat := (cw.extractLsb' 0 16).toNat

/-- One row of the opcode map (R115). `build` takes `ep`, `eptyp`, `imm16` and the second word. -/
structure OpcodeRow where
  opcode   : Nat
  mask     : Word
  pattern  : Word
  twoWords : Bool
  build    : Nat → EpType → Nat → Word → Instr

/-- R115, the first eight rows. -/
def opcodeRowsFifoEndpoint : List OpcodeRow :=
  [ ⟨0x01, 0xFFFF0000#32, 0x01000000#32, false, fun _ _ imm _ => .setRxFifoSize imm⟩,
    ⟨0x02, 0xFF0F0000#32, 0x02000000#32, false, fun ep _ imm _ => .setTxFifoSize ep imm⟩,
    ⟨0x10, 0xFFFF0000#32, 0x10000000#32, false, fun _ _ imm _ => .activateControlEp imm⟩,
    ⟨0x11, 0xFF030000#32, 0x11000000#32, false, fun ep t imm _ => .activateInEp ep t imm⟩,
    ⟨0x12, 0xFF0FFFFF#32, 0x12000000#32, false, fun ep _ _ _ => .deactivateEp ep⟩,
    ⟨0x13, 0xFFFFFFFF#32, 0x13000000#32, false, fun _ _ _ _ => .deactivateAll⟩,
    ⟨0x14, 0xFFFFFFFF#32, 0x14000000#32, false, fun _ _ _ _ => .flushRx⟩,
    ⟨0x15, 0xFF0FFFFF#32, 0x15000000#32, false, fun ep _ _ _ => .flushTx ep⟩ ]

/-- R115, the other seven rows. -/
def opcodeRowsPacketGlue : List OpcodeRow :=
  [ ⟨0x20, 0xFFFF0000#32, 0x20000000#32, true, fun _ _ imm ba => .readPacket imm ba⟩,
    ⟨0x21, 0xFF0F0000#32, 0x21000000#32, true, fun ep _ imm ba => .writePacket ep imm ba⟩,
    ⟨0x30, 0xFFFFFFFF#32, 0x30000000#32, false, fun _ _ _ _ => .poll⟩,
    ⟨0x40, 0xFFFFFFFF#32, 0x40000000#32, false, fun _ _ _ _ => .initCore⟩,
    ⟨0x41, 0xFFFFFF80#32, 0x41000000#32, false, fun _ _ imm _ => .setAddress imm⟩,
    ⟨0x42, 0xFFFFFFFF#32, 0x42000000#32, false, fun _ _ _ _ => .connect⟩,
    ⟨0x43, 0xFFFFFFFF#32, 0x43000000#32, false, fun _ _ _ _ => .disconnect⟩ ]

/-- R115: the opcode map. -/
def opcodeMap : List OpcodeRow := opcodeRowsFifoEndpoint ++ opcodeRowsPacketGlue

/-- R131: the row of the opcode map with this opcode, if any. -/
def rowOf (op : Nat) : Option OpcodeRow := opcodeMap.find? fun r => r.opcode == op

/-- R131: the command a word selects through its row, or the reason it is reserved (R116). -/
def decodeRow (r : OpcodeRow) (cw ba : Word) (rest : List Word) : Decoded :=
  if cw &&& r.mask = r.pattern then
    .command (r.build (epOf cw) (epTypeOf cw) (immOf cw) ba) rest
  else
    .reserved .mustBeZero rest

/-- R131 on the words of the command port: the length is told from the opcode alone (R114), and a reserved two-word
opcode still consumes its second word (R116). -/
def decode : List Word → Decoded
  | [] => .incomplete
  | cw :: rest =>
    match rowOf (opcodeOf cw) with
    | none => .reserved .unknownOpcode rest
    | some r =>
      if r.twoWords then
        match rest with
        | [] => .incomplete
        | ba :: rest' => decodeRow r cw ba rest'
      else decodeRow r cw 0#32 rest

/-- R111: a command word from its fields. -/
def commandWord (opcode ep : Nat) (eptyp : BitVec 2) (imm : Nat) : Word :=
  BitVec.ofNat 8 opcode ++ BitVec.ofNat 4 ep ++ eptyp ++ 0#2 ++ BitVec.ofNat 16 imm

/-- The words of a command (R111, R113, R115): the inverse of `decode` on well-formed commands. -/
def encode : Instr → List Word
  | .setRxFifoSize size => [commandWord 0x01 0 0 size]
  | .setTxFifoSize ep size => [commandWord 0x02 ep 0 size]
  | .activateControlEp mps => [commandWord 0x10 0 0 mps]
  | .activateInEp ep t mps => [commandWord 0x11 ep (codeOfEpType t) mps]
  | .deactivateEp ep => [commandWord 0x12 ep 0 0]
  | .deactivateAll => [commandWord 0x13 0 0 0]
  | .flushRx => [commandWord 0x14 0 0 0]
  | .flushTx ep => [commandWord 0x15 ep 0 0]
  | .readPacket size ba => [commandWord 0x20 0 0 size, ba]
  | .writePacket ep size ba => [commandWord 0x21 ep 0 size, ba]
  | .poll => [commandWord 0x30 0 0 0]
  | .initCore => [commandWord 0x40 0 0 0]
  | .setAddress addr => [commandWord 0x41 0 0 addr]
  | .connect => [commandWord 0x42 0 0 0]
  | .disconnect => [commandWord 0x43 0 0 0]

/-- The words an instruction whose bits are `w` (bit 0 the least significant bit of the first word, the second word in
bits 63..32) puts on the command port: one word, or two for the two-word opcodes (R114). -/
def tableWords (nbits w : Nat) : List Word :=
  let v := w % 2 ^ nbits
  let cw : Word := BitVec.ofNat 32 v
  let twoWords := match rowOf (opcodeOf cw) with
    | none => false
    | some r => r.twoWords
  if twoWords then [cw, BitVec.ofNat 32 (v / 2 ^ 32)] else [cw]

/-- The instruction the decoder reads from such bits; none where the encoding is reserved. -/
def decodeTableWord (nbits w : Nat) : Option Instr :=
  match decode (tableWords nbits w) with
  | .command i _ => some i
  | .reserved _ _ => none
  | .incomplete => none

end Sys2Proof
end

