-- ==== Sys2Proof/Machine/State.lean ====
section
/-! DEFINITION. The state of the modelled machine as plain data (spec/10_state.md R20 to R69): the register file, the
FIFO contents, the FAULT register, the event port, the sequencer, the command port, the application buffer memory,
the environment's log WIRE_TX and the script of what the other agents do; and the state after hardware reset (R68).

A record per register holds the stored fields; the packed 32-bit words are views (Machine/Registers.lean). -/

namespace Sys2Proof.Machine

variable {sh : Shape}

/-- Why the machine stops with a fault: nothing does. Every fault of the spec is a sticky bit of the FAULT register and
the machine goes on (R281), and no access can fail (R94, R302); so nothing raises a constructor of this type. Safe. -/
inductive Fault where
deriving DecidableEq, Repr

/-- Why a command is turned away without an effect. -/
inductive Refusal where
  /-- Raised by exec for an instruction that has no meaning in this model: none is left. Safe. -/
  | notModelled (mnemonic : String)
  /-- Raised by every meaning when a command is offered while another one runs (R110; U13: the port does not accept
  it). `step` never offers one then: the words wait on the port (R261). Safe. -/
  | portBusy
deriving DecidableEq, Repr

/-- A bit field `[lo + len - 1 : lo]` of a word (R8). -/
structure Field where
  lo  : Nat
  len : Nat
deriving DecidableEq, Repr

/-- The registers by name (R21). `dieptxf k` is element k, the region of IN endpoint k+1 (R32); for the per-endpoint
registers `e` is the slot number, N the pad slot (R52). GRXSTSP is not here: reading it is `statusPop` (R27). -/
inductive Reg where
  | gahbcfg
  | grstctl
  | gintsts
  | gintmsk
  | grxfsiz
  | dieptxf0
  | dieptxf (k : Nat)
  | dcfg
  | dctl
  | diepmsk
  | doepmsk
  | daint
  | daintmsk
  | diepctl (e : Nat)
  | diepint (e : Nat)
  | dieptsiz (e : Nat)
  | doepctl (e : Nat)
  | doepint (e : Nat)
deriving DecidableEq, Repr

/-- The direction of an endpoint (R13). -/
inductive Dir where
  | inn
  | out
deriving DecidableEq, Repr

/-- R23: the stored fields of GRSTCTL. -/
structure Grstctl where
  rxfflsh : Bool
  txfflsh : Bool
  txfnum  : BitVec 5
deriving DecidableEq, Repr, Inhabited

/-- R39: the stored bits of DAINTMSK, those of the endpoints 0..N-1; the others are reserved. -/
structure Daintmsk (sh : Shape) where
  iepm : BitVec sh.endpoints
  oepm : BitVec sh.endpoints
deriving DecidableEq, Repr, Inhabited

/-- R40: the stored fields of DIEPCTL[e]. -/
structure Diepctl (sh : Shape) where
  mpsiz  : BitVec sh.mpsBits
  usbaep : Bool
  dpid   : Bool
  naksts : Bool
  eptyp  : EpType
  stall  : Bool
  txfnum : BitVec 4
  epdis  : Bool
  epena  : Bool
deriving DecidableEq, Repr, Inhabited

/-- R44: the stored fields of DOEPCTL[e]. -/
structure Doepctl (sh : Shape) where
  mpsiz  : BitVec sh.mpsBits
  usbaep : Bool
  dpid   : Bool
  naksts : Bool
  eptyp  : EpType
  stall  : Bool
  epdis  : Bool
  epena  : Bool
deriving DecidableEq, Repr, Inhabited

/-- R43: the stored fields of DIEPTSIZ[e]. -/
structure Dieptsiz (sh : Shape) where
  xfrsiz : BitVec sh.xfrsizBits
  pktcnt : BitVec sh.pktcntBits
deriving DecidableEq, Repr, Inhabited

/-- R50: an element of RXQ, a word tagged as a status entry or as data. -/
inductive RxWord (sh : Shape) where
  | status (w : RegWord sh)
  | data (w : RegWord sh)
deriving DecidableEq, Repr, Inhabited

/-- R256: an entry of WIRE_TX: endpoint number, data packet identifier, bytes. -/
structure WirePacket where
  ep    : Nat
  dpid  : Bool
  bytes : List Byte
deriving DecidableEq, Repr

/-- R127: the events CORE emits. -/
inductive Event where
  | resetReceived
  | setupDataReceived (ep : BitVec 4) (bcnt : BitVec 11)
  | inTransferCompleted (ep : Nat)
  | outTransferCompleted (ep : Nat)
  | polled
deriving DecidableEq, Repr

/-- R60, R283: the causes of the FAULT register, one per bit. -/
inductive FaultCause where
  | epRange
  | badSize
  | oversize
  | rxUnderflow
  | rxDesync
  | txOverflow
  | reservedCmd
  | reentrantPoll
  | unsupportedOutData
  | padAccess
deriving DecidableEq, Repr

/-- R211: what the classifier answers. -/
inductive Cause where
  | usbrst
  | enumdne
  | rxflvl
  | iepint
  | oepint
  | none
deriving DecidableEq, Repr

/-- R168: the state of one endpoint as its control register shows it. OUT endpoint 0 has the states `armed` and
`unarmed` alone, every other endpoint the others. -/
inductive EpPhase where
  | inactive
  | activeIdle
  | activeXfer
  | disabling
  | reactivatedDisabling
  | armed
  | unarmed
  | other
deriving DecidableEq, Repr

/-- R53: the Endpoint entity, a view of the registers. -/
structure EndpointView (sh : Shape) where
  number : Nat
  eptyp  : EpType
  mps    : BitVec sh.mpsBits
  active : Bool
  txfifo : Option (BitVec 4)
  dpid   : Bool
deriving DecidableEq, Repr

/-- The application buffer memory (R83): (address, byte) pairs, addresses strictly rising, no entry equal to what an
unlisted address reads as (`Memory.unlisted`, log entry 3). -/
abbrev Memory := List Host.Cell

/-- Everything access steps, LINK and the flush controller act on: the register file (R23 to R46), the FIFOs (R50, R51),
FAULT (R60), the event port (R61), the environment's log (R256), the buffer memory (R83), the parameters (R7) and the
model's own counter of free values. -/
structure Dev (sh : Shape) where
  /-- R7; no step changes it. -/
  cfg       : Config sh
  /-- R26 GAHBCFG.gint. -/
  gint      : Bool
  /-- R23. -/
  grstctl   : Grstctl
  /-- R24: the stored W1C flags of GINTSTS; bits 4, 18 and 19 are not stored (R54). -/
  gintsts   : RegWord sh
  /-- R25. -/
  gintmsk   : RegWord sh
  /-- R30 GRXFSIZ.rxfd. -/
  rxfd      : Half sh
  /-- R31 to R33: element 0 is DIEPTXF0, element k+1 is DIEPTXF[k]. -/
  txf       : Vector (TxRegion sh) sh.txRegions
  /-- R34, the whole word: the bits outside `dad` are RW. -/
  dcfg      : RegWord sh
  /-- R35, the whole word: the bits outside `sdis` are RW. -/
  dctl      : RegWord sh
  /-- R36. -/
  diepmsk   : RegWord sh
  /-- R37. -/
  doepmsk   : RegWord sh
  /-- R39. -/
  daintmsk  : Daintmsk sh
  /-- R40. -/
  diepctl   : Vector (Diepctl sh) sh.endpoints
  /-- R42, the flags within IN_INT_ALL. -/
  diepint   : Vector (RegWord sh) sh.endpoints
  /-- R43. -/
  dieptsiz  : Vector (Dieptsiz sh) sh.endpoints
  /-- R44, R45. -/
  doepctl   : Vector (Doepctl sh) sh.endpoints
  /-- R46, the flags within OUT_INT_ALL. -/
  doepint   : Vector (RegWord sh) sh.endpoints
  /-- R50, head first. -/
  rxq       : List (RxWord sh)
  /-- R51, head first. -/
  txq       : Vector (List (RegWord sh)) sh.endpoints
  /-- R60 FAULT. -/
  fault     : Word
  /-- R61. -/
  evPending : Option Word
  /-- R61 EVLOG, oldest first. -/
  evlog     : List Word
  /-- R256 WIRE_TX, oldest first. -/
  wireTx    : List WirePacket
  /-- R83. -/
  mem       : Memory
  /-- The model's own (log entry 6): how many draws of free values have been made. -/
  draws     : Nat
  /-- The model's own (log entry 7): LayoutFits has been false since reset, so FIFO contents are unspecified (R144). -/
  overlap   : Bool
deriving DecidableEq, Repr

/-- One access step a command still has to perform (R11, R66), with the working values it needs (R65). The procedures
of spec files 40 to 44 are lists of these; performing one may put further ones before the rest
(Machine/Procedures.lean). -/
inductive AccessStep (sh : Shape) where
  /-- `RegRMW(r, fs)`, R90. -/
  | rmw (r : Reg) (fs : List (Field × Nat))
  /-- `RegWrite(r, v)`, R89. -/
  | write (r : Reg) (v : RegWord sh)
  /-- `IntClear(r, m)`, R91. -/
  | clear (r : Reg) (m : RegWord sh)
  /-- R142: `cur <- RegRead(GRXFSIZ).rxfd`. -/
  | layoutRx
  /-- R142: the start field of region `e` is programmed from the cursor. -/
  | layoutStart (e : Nat) (cur : Half sh)
  /-- R142: the depth of region `e` is read and the cursor advanced. -/
  | layoutDepth (e : Nat) (cur : Half sh)
  /-- R162: `IntClear(DIEPINT[n], IN_INT_ALL)`, the first access to a register of slot `n` (R52). `ev` is what the
  calling handler emits once slot `n` is deactivated (R213), which a fault here prevents (R296). -/
  | deactFlags (n : Nat) (ev : Option Event)
  /-- R162: the read of `DIEPCTL[n].epena` (IN) or `DOEPCTL[n].epena` (OUT) that decides on a disable request. -/
  | deactTest (dir : Dir) (n : Nat)
  /-- R164, the request of FLUSH_RX. -/
  | flushRx
  /-- R165, the request of FLUSH_TX. -/
  | flushTx (n : Nat)
  /-- R190: the pop of data word `k`. -/
  | popData (ba : Word) (size k : Nat)
  /-- R190: `MemWrite(a, 1, b)`. -/
  | store (a : Word) (b : Byte)
  /-- R192: the read of `DIEPCTL[e]` and the size check. -/
  | checkSize (e size : Nat) (ba : Word)
  /-- R192: `MemRead` of source byte `i`; `lanes` are the bytes of the current word already read. -/
  | load (e size : Nat) (ba : Word) (i : Nat) (lanes : List Byte)
  /-- R192: `PortPush(e, w)`; `i` source bytes have been read. -/
  | push (e size : Nat) (ba : Word) (i : Nat) (w : RegWord sh)
  /-- R210: the snapshot read of GINTSTS. -/
  | snapshot
  /-- R215: the `StatusPop`, and the dispatch on its entry (R216). -/
  | popStatus
  /-- R219, R220: the read of DAINT and the first-set-bit scan. -/
  | scan (dir : Dir)
  /-- R219, R220: the read of the `xfrc` flag of endpoint `e`. -/
  | testXfrc (dir : Dir) (e : Nat)
  /-- R126: `emit(ev)`. -/
  | emit (ev : Event)
deriving DecidableEq, Repr

/-- What follows an access step: further steps before the rest of the command, or the wait for an acknowledgement. -/
inductive After (sh : Shape) where
  | go (more : List (AccessStep sh))
  | wait
deriving DecidableEq, Repr

/-- R66, the sequencer. The position `p` in a procedure is held as the access steps still to perform (log entry 2). -/
inductive Seq (sh : Shape) where
  | idle
  | run (cmd : Instr) (todo : List (AccessStep sh))
  | waitAck (cmd : Instr) (todo : List (AccessStep sh))
  | nested (outer : Instr) (outerTodo : List (AccessStep sh)) (cmd : Instr) (todo : List (AccessStep sh))
deriving DecidableEq, Repr

/-- The moves of LINK (R250 to R260). -/
inductive LinkMove where
  /-- R251. -/
  | busReset
  /-- R252. -/
  | enumDone
  /-- R253. -/
  | rxPush (epnum bcnt : Nat) (dpid : BitVec 2) (pktsts : BitVec 4) (payload : List Byte)
  /-- R255. -/
  | txSend (e : Nat)
  /-- R257. -/
  | disableDone (dir : Dir) (e : Nat)
  /-- R258. -/
  | outXfrc (e : Nat)
  /-- R259. -/
  | epFlag (dir : Dir) (e b : Nat)
  /-- R260. -/
  | otherGint (b : Nat)
deriving DecidableEq, Repr

/-- The completion steps of the flush controller (R173, R174). -/
inductive FlushMove where
  | txDone
  | rxDone
deriving DecidableEq, Repr

/-- The moves of HOST (R261 to R264). -/
inductive HostMove where
  /-- Words presented on the command port, after those already there (R110, R113). -/
  | command (ws : List Word)
  /-- The acknowledgement of the pending event (R126). -/
  | ack
  /-- HOST writes its buffer memory (R83). -/
  | store (a : Word) (bs : List Byte)
deriving DecidableEq, Repr

/-- The moves of the test harness (R267). -/
inductive HarnessMove (sh : Shape) where
  /-- TB_RX_FEED. -/
  | rxFeed (ws : List (RegWord sh))
  /-- TB_RX_STATUS. -/
  | rxStatus (sts : RegWord sh)
  /-- TB_LOOPBACK. -/
  | loopback (e : Nat)
  /-- TB_SET of a stored field. -/
  | set (r : Reg) (f : Field) (v : Nat)
deriving DecidableEq, Repr

/-- Entries of the script that give CORE the turn (log entry 1). -/
inductive CoreTurn where
  /-- CORE performs one access step before the next entry. -/
  | one
  /-- CORE runs until it accepts a command again, or waits for an acknowledgement, before the next entry. -/
  | finish
  /-- Nobody moves: a step of the model ends here, between two access steps. -/
  | pause
deriving DecidableEq, Repr

/-- One entry of the script of the other agents' moves (R12, R97; log entry 1). -/
inductive Input (sh : Shape) where
  | link (m : LinkMove)
  | flush (m : FlushMove)
  | host (m : HostMove)
  | harness (m : HarnessMove sh)
  | core (t : CoreTurn)
  /-- R320: the platform asserts the hardware reset. -/
  | reset
deriving DecidableEq, Repr

/-- The state of a machine of the shape `sh` (R20). -/
structure State.At (sh : Shape) where
  /-- The registers, FIFOs, FAULT, event port, WIRE_TX and buffer memory. -/
  dev    : Dev sh
  /-- R66. -/
  seq    : Seq sh
  /-- R110: the words HOST has presented on the command port and CORE has not accepted yet. -/
  port   : List Word
  /-- The model's own (log entry 1): what the other agents do, in order; it resolves the interleaving of R97. -/
  inputs : List (Input sh)
deriving DecidableEq, Repr

/-- The state of this hardware. -/
abbrev State : Type := State.At .hardware

/-- R68: `DOEPCTL[0]` after reset, `usbaep` hardwired to 1 (R45). -/
def doepctl0Reset : Doepctl sh := { (default : Doepctl sh) with usbaep := true }

/-- R144: the words the seven regions take under the reset depths. -/
def resetWords (r : ResetFifo sh) : Nat := r.rxfd.toNat + (r.tx.map fun t => t.depth.toNat).sum

/-- R68, R320: the registers and FIFOs after hardware reset. The parameters, HOST's buffer memory and the count of
draws are not the block's to reset (R69; log entries 3, 6, 8). Bits of DCFG and DCTL outside CORE: log entry 9. -/
def Dev.afterReset (cfg : Config sh) (mem : Memory) (draws : Nat) : Dev sh where
  cfg       := cfg
  gint      := false
  grstctl   := { rxfflsh := false, txfflsh := false, txfnum := 0 }
  gintsts   := 0
  gintmsk   := 0
  rxfd      := cfg.resetFifo.rxfd
  txf       := cfg.resetFifo.tx
  dcfg      := 0
  dctl      := 2
  diepmsk   := 0
  doepmsk   := 0
  daintmsk  := { iepm := 0, oepm := 0 }
  diepctl   := Vector.replicate sh.endpoints default
  diepint   := Vector.replicate sh.endpoints 0
  dieptsiz  := Vector.replicate sh.endpoints default
  doepctl   := (Vector.replicate sh.endpoints default).setIfInBounds 0 doepctl0Reset
  doepint   := Vector.replicate sh.endpoints 0
  rxq       := []
  txq       := Vector.replicate sh.endpoints []
  fault     := 0
  evPending := none
  evlog     := []
  wireTx    := []
  mem       := mem
  draws     := draws
  overlap   := !cfg.fits (resetWords cfg.resetFifo)

/-- R68, R320: the machine with the parameters `cfg` right after hardware reset, nothing in the buffer memory that HOST
has written, nothing on the command port and no move of another agent planned. -/
def State.resetWith (cfg : Config sh) : State.At sh where
  dev    := Dev.afterReset cfg [] 0
  seq    := .idle
  port   := []
  inputs := []

/-- R68, R320: the machine right after hardware reset, with the values R7 gives this hardware. -/
def State.reset : State := State.resetWith Config.hardware

end Sys2Proof.Machine
end

