-- ==== Sys2Proof/Machine/Registers.lean ====
section
/-! DEFINITION. Bit fields, the positions of the fields of every register (spec/10_state.md R21 to R46), and the packed
32-bit view of each register record: what it reads as, what a write does to it by the kinds of its fields (R22), and
how the harness forces it (R267). -/

namespace Sys2Proof.Machine

variable {sh : Shape}

/-! ## Bit fields (R8, R9)

Of a word of any width `w`. -/

variable {w : Nat}

/-- The bits of a field, as a mask. -/
def Field.mask (f : Field) : BitVec w := BitVec.ofNat w ((2 ^ f.len - 1) * 2 ^ f.lo)

/-- `x` with the field replaced by `v`, truncated to the field (R90). -/
def Field.put (f : Field) (v : Nat) (x : BitVec w) : BitVec w :=
  (x &&& ~~~f.mask) ||| (BitVec.ofNat w (v * 2 ^ f.lo) &&& f.mask)

/-- `v` does not fit the field, so that `put` truncates it. -/
def Field.truncates (f : Field) (v : Nat) : Bool := decide (2 ^ f.len ≤ v)

/-- `x[hi:lo]` as an unsigned number (R8). -/
def Field.get (f : Field) (x : BitVec w) : Nat := (x.extractLsb' f.lo f.len).toNat

/-- A one-bit field as a truth value. -/
def Field.bit (f : Field) (x : BitVec w) : Bool := x.getLsbD f.lo

/-- `x` with every listed field replaced (R90: `old` with each listed field replaced by its value). -/
def putFields (fs : List (Field × Nat)) (x : BitVec w) : BitVec w := fs.foldl (fun acc fv => fv.1.put fv.2 acc) x

/-- A packed word: the listed fields, every other bit 0 (R88: W1A fields and RSV bits as 0). -/
def packFields (fs : List (Field × Nat)) : BitVec w := putFields fs 0#w

/-- Bit `i` of the result, for `i < n`, is `f i`; the other bits are 0. -/
def bitMap (f : Nat → Bool) : Nat → BitVec w
  | 0 => 0#w
  | n + 1 => bitMap f n ||| (if f n then 1#w <<< n else 0#w)

/-- The value of a one-bit field. -/
def flagNat (b : Bool) : Nat := if b then 1 else 0

/-! ## Endpoint slots (R52) -/

/-- The register of slot `e`; a slot that does not exist (the pad slot N) reads as the all-zero record. -/
def slot {α : Type} [Inhabited α] {n : Nat} (v : Vector α n) (e : Nat) : α := v[e]?.getD default

/-- Write the register of slot `e`; a write to a slot that does not exist is ignored. -/
def setSlot {α : Type} {n : Nat} (v : Vector α n) (e : Nat) (x : α) : Vector α n := v.setIfInBounds e x

/-! ## Field positions (R23 to R46) -/

/-- R26. -/
def F.gint : Field := ⟨0, 1⟩
/-- R23. -/
def F.rxfflsh : Field := ⟨4, 1⟩
/-- R23. -/
def F.txfflsh : Field := ⟨5, 1⟩
/-- R23. -/
def F.grsttxfnum : Field := ⟨6, 5⟩
/-- R24. -/
def F.rxflvl : Field := ⟨4, 1⟩
/-- R24. -/
def F.usbrst : Field := ⟨12, 1⟩
/-- R24. -/
def F.enumdne : Field := ⟨13, 1⟩
/-- R24. -/
def F.iepint : Field := ⟨18, 1⟩
/-- R24. -/
def F.oepint : Field := ⟨19, 1⟩
/-- R30. -/
def F.rxfd (sh : Shape := Shape.hardware) : Field := ⟨0, sh.depthBits⟩
/-- R31 `tx0fsa`, R32 `ineptxsa`. -/
def F.txStart (sh : Shape := Shape.hardware) : Field := ⟨0, sh.depthBits⟩
/-- R31 `tx0fd`, R32 `ineptxfd`. -/
def F.txDepth (sh : Shape := Shape.hardware) : Field := ⟨sh.depthBits, sh.depthBits⟩
/-- R34. -/
def F.dad : Field := ⟨4, 7⟩
/-- R35. -/
def F.sdis : Field := ⟨1, 1⟩
/-- R39: bit `iepm[e]`. -/
def F.iepm (e : Nat) : Field := ⟨e, 1⟩
/-- R39: bit `oepm[e]`. -/
def F.oepm (e : Nat) : Field := ⟨16 + e, 1⟩
/-- R39: the bits `iepm` of the endpoints 0..N-1. -/
def F.iepmAll (sh : Shape := Shape.hardware) : Field := ⟨0, sh.endpoints⟩
/-- R39: the bits `oepm` of the endpoints 0..N-1. -/
def F.oepmAll (sh : Shape := Shape.hardware) : Field := ⟨16, sh.endpoints⟩
/-- R40, R44. -/
def F.mpsiz (sh : Shape := Shape.hardware) : Field := ⟨0, sh.mpsBits⟩
/-- R40, R44. -/
def F.usbaep : Field := ⟨15, 1⟩
/-- R40, R44. -/
def F.dpid : Field := ⟨16, 1⟩
/-- R40, R44. -/
def F.naksts : Field := ⟨17, 1⟩
/-- R40, R44. -/
def F.eptyp : Field := ⟨18, 2⟩
/-- R40, R44. -/
def F.stall : Field := ⟨21, 1⟩
/-- R40. -/
def F.txfnum : Field := ⟨22, 4⟩
/-- R40, R44. -/
def F.cnak : Field := ⟨26, 1⟩
/-- R40, R44. -/
def F.snak : Field := ⟨27, 1⟩
/-- R40, R44. -/
def F.sd0pid : Field := ⟨28, 1⟩
/-- R40, R44. -/
def F.epdis : Field := ⟨30, 1⟩
/-- R40, R44. -/
def F.epena : Field := ⟨31, 1⟩
/-- R42, R46. -/
def F.xfrc : Field := ⟨0, 1⟩
/-- R42, R46. -/
def F.epdisd : Field := ⟨1, 1⟩
/-- R42: timeout, an IN cause CORE does not decode. -/
def F.toc : Field := ⟨3, 1⟩
/-- R46: SETUP phase done, an OUT cause CORE does not read. -/
def F.stup : Field := ⟨3, 1⟩
/-- R43. -/
def F.xfrsiz (sh : Shape := Shape.hardware) : Field := ⟨0, sh.xfrsizBits⟩
/-- R43. -/
def F.pktcnt (sh : Shape := Shape.hardware) : Field := ⟨sh.xfrsizBits, sh.pktcntBits⟩

/-- R24, R54: the bits of GINTSTS that are not stored (4, 18, 19). -/
def gintstsDerived {w : Nat} : BitVec w := F.rxflvl.mask ||| F.iepint.mask ||| F.oepint.mask

/-! ## The packed view of each record -/

/-- R23, as read. -/
def Grstctl.pack {w : Nat} (r : Grstctl) : BitVec w :=
  packFields [(F.rxfflsh, flagNat r.rxfflsh), (F.txfflsh, flagNat r.txfflsh), (F.grsttxfnum, r.txfnum.toNat)]

/-- R23: both flush requests are W1S, `txfnum` is RW. -/
def Grstctl.write {w : Nat} (r : Grstctl) (x : BitVec w) : Grstctl where
  rxfflsh := r.rxfflsh || F.rxfflsh.bit x
  txfflsh := r.txfflsh || F.txfflsh.bit x
  txfnum  := x.extractLsb' F.grsttxfnum.lo 5

/-- The stored fields as a packed word gives them. -/
def Grstctl.unpack {w : Nat} (x : BitVec w) : Grstctl where
  rxfflsh := F.rxfflsh.bit x
  txfflsh := F.txfflsh.bit x
  txfnum  := x.extractLsb' F.grsttxfnum.lo 5

/-- R39, as read. -/
def Daintmsk.pack (r : Daintmsk sh) : RegWord sh :=
  packFields [(F.iepmAll sh, r.iepm.toNat), (F.oepmAll sh, r.oepm.toNat)]

/-- R39: RW for the endpoints 0..N-1. -/
def Daintmsk.unpack (w : RegWord sh) : Daintmsk sh where
  iepm := w.extractLsb' (F.iepmAll sh).lo sh.endpoints
  oepm := w.extractLsb' (F.oepmAll sh).lo sh.endpoints

/-- R31, R32, as read. -/
def txRegionPack (r : TxRegion sh) : RegWord sh :=
  packFields [(F.txStart sh, r.start.toNat), (F.txDepth sh, r.depth.toNat)]

/-- R31, R32: both fields are RW. -/
def txRegionUnpack (w : RegWord sh) : TxRegion sh where
  start := w.extractLsb' (F.txStart sh).lo sh.depthBits
  depth := w.extractLsb' (F.txDepth sh).lo sh.depthBits

/-- R40, as read: the action fields read 0. -/
def Diepctl.pack (r : Diepctl sh) : RegWord sh :=
  packFields [(F.mpsiz sh, r.mpsiz.toNat), (F.usbaep, flagNat r.usbaep), (F.dpid, flagNat r.dpid),
    (F.naksts, flagNat r.naksts), (F.eptyp, (codeOfEpType r.eptyp).toNat), (F.stall, flagNat r.stall),
    (F.txfnum, r.txfnum.toNat), (F.epdis, flagNat r.epdis), (F.epena, flagNat r.epena)]

/-- The NAK status a write leaves (R40): `snak` wins over `cnak`; otherwise it is RO. -/
def nakAfterWrite {w : Nat} (old : Bool) (x : BitVec w) : Bool :=
  if F.snak.bit x then true else if F.cnak.bit x then false else old

/-- R40: what a write does, field by field (R22). -/
def Diepctl.write (r : Diepctl sh) (w : RegWord sh) : Diepctl sh where
  mpsiz  := w.extractLsb' (F.mpsiz sh).lo sh.mpsBits
  usbaep := F.usbaep.bit w
  dpid   := r.dpid && !F.sd0pid.bit w
  naksts := nakAfterWrite r.naksts w
  eptyp  := epTypeOfCode (w.extractLsb' F.eptyp.lo 2)
  stall  := F.stall.bit w
  txfnum := w.extractLsb' F.txfnum.lo 4
  epdis  := r.epdis || F.epdis.bit w
  epena  := r.epena || F.epena.bit w

/-- The stored fields as a packed word gives them. -/
def Diepctl.unpack (w : RegWord sh) : Diepctl sh where
  mpsiz  := w.extractLsb' (F.mpsiz sh).lo sh.mpsBits
  usbaep := F.usbaep.bit w
  dpid   := F.dpid.bit w
  naksts := F.naksts.bit w
  eptyp  := epTypeOfCode (w.extractLsb' F.eptyp.lo 2)
  stall  := F.stall.bit w
  txfnum := w.extractLsb' F.txfnum.lo 4
  epdis  := F.epdis.bit w
  epena  := F.epena.bit w

/-- R45: the active bit of OUT endpoint `e` as it reads, 1 for the control endpoint whatever was written. -/
def Doepctl.active (r : Doepctl sh) (e : Nat) : Bool := e == 0 || r.usbaep

/-- R44, R45, as read in slot `e`. -/
def Doepctl.pack (r : Doepctl sh) (e : Nat) : RegWord sh :=
  packFields [(F.mpsiz sh, r.mpsiz.toNat), (F.usbaep, flagNat (r.active e)), (F.dpid, flagNat r.dpid),
    (F.naksts, flagNat r.naksts), (F.eptyp, (codeOfEpType r.eptyp).toNat), (F.stall, flagNat r.stall),
    (F.epdis, flagNat r.epdis), (F.epena, flagNat r.epena)]

/-- R44, R45: what a write to slot `e` does, field by field (R22); `usbaep` of endpoint 0 is RO. -/
def Doepctl.write (r : Doepctl sh) (e : Nat) (w : RegWord sh) : Doepctl sh where
  mpsiz  := w.extractLsb' (F.mpsiz sh).lo sh.mpsBits
  usbaep := e == 0 || F.usbaep.bit w
  dpid   := r.dpid && !F.sd0pid.bit w
  naksts := nakAfterWrite r.naksts w
  eptyp  := epTypeOfCode (w.extractLsb' F.eptyp.lo 2)
  stall  := F.stall.bit w
  epdis  := r.epdis || F.epdis.bit w
  epena  := r.epena || F.epena.bit w

/-- The stored fields of slot `e` as a packed word gives them; `usbaep` of endpoint 0 stays 1. -/
def Doepctl.unpack (e : Nat) (w : RegWord sh) : Doepctl sh where
  mpsiz  := w.extractLsb' (F.mpsiz sh).lo sh.mpsBits
  usbaep := e == 0 || F.usbaep.bit w
  dpid   := F.dpid.bit w
  naksts := F.naksts.bit w
  eptyp  := epTypeOfCode (w.extractLsb' F.eptyp.lo 2)
  stall  := F.stall.bit w
  epdis  := F.epdis.bit w
  epena  := F.epena.bit w

/-- R43, as read. -/
def Dieptsiz.pack (r : Dieptsiz sh) : RegWord sh :=
  packFields [(F.xfrsiz sh, r.xfrsiz.toNat), (F.pktcnt sh, r.pktcnt.toNat)]

/-- R43: both fields are RW. -/
def Dieptsiz.unpack (w : RegWord sh) : Dieptsiz sh where
  xfrsiz := w.extractLsb' (F.xfrsiz sh).lo sh.xfrsizBits
  pktcnt := w.extractLsb' (F.pktcnt sh).lo sh.pktcntBits

/-! ## The bus-level view (R21, R81, R82) -/

/-- R21, R81: the byte offset of a register in the register space. No rule uses it. -/
def Reg.offset : Reg → Nat
  | .gahbcfg => 0x008
  | .grstctl => 0x010
  | .gintsts => 0x014
  | .gintmsk => 0x018
  | .grxfsiz => 0x024
  | .dieptxf0 => 0x028
  | .dieptxf k => 0x104 + 4 * k
  | .dcfg => 0x800
  | .dctl => 0x804
  | .diepmsk => 0x810
  | .doepmsk => 0x814
  | .daint => 0x818
  | .daintmsk => 0x81C
  | .diepctl e => 0x900 + 0x20 * e
  | .diepint e => 0x908 + 0x20 * e
  | .dieptsiz e => 0x910 + 0x20 * e
  | .doepctl e => 0xB00 + 0x20 * e
  | .doepint e => 0xB08 + 0x20 * e

/-- R21: the offset of GRXSTSP, whose read is `statusPop` (R27). -/
def grxstspOffset : Nat := 0x020

/-- R82: the offset of FIFO port `e`. -/
def fifoPortOffset (e : Nat) : Nat := 0x1000 + 0x1000 * e

/-! ## The region table and the Endpoint entity (R33, R53, R168) -/

/-- The registers that hold the regions (R30 to R32). -/
def Reg.isRegion : Reg → Bool
  | .grxfsiz => true
  | .dieptxf0 => true
  | .dieptxf _ => true
  | .gahbcfg => false
  | .grstctl => false
  | .gintsts => false
  | .gintmsk => false
  | .dcfg => false
  | .dctl => false
  | .diepmsk => false
  | .doepmsk => false
  | .daint => false
  | .daintmsk => false
  | .diepctl _ => false
  | .diepint _ => false
  | .dieptsiz _ => false
  | .doepctl _ => false
  | .doepint _ => false

/-- R33: `TXFD[e]`. -/
def Dev.txDepth (d : Dev sh) (e : Nat) : Half sh := (slot d.txf e).depth

/-- R33: `TXSA[e]`. -/
def Dev.txStart (d : Dev sh) (e : Nat) : Half sh := (slot d.txf e).start

/-- R53, direction IN. -/
def Dev.inEndpoint (d : Dev sh) (e : Nat) : EndpointView sh where
  number := e
  eptyp  := (slot d.diepctl e).eptyp
  mps    := (slot d.diepctl e).mpsiz
  active := (slot d.diepctl e).usbaep
  txfifo := some (slot d.diepctl e).txfnum
  dpid   := (slot d.diepctl e).dpid

/-- R53, direction OUT. -/
def Dev.outEndpoint (d : Dev sh) (e : Nat) : EndpointView sh where
  number := e
  eptyp  := (slot d.doepctl e).eptyp
  mps    := (slot d.doepctl e).mpsiz
  active := (slot d.doepctl e).active e
  txfifo := none
  dpid   := (slot d.doepctl e).dpid

/-- R168: the state the bits `usbaep`, `epena`, `epdis` show. -/
def epPhase (usbaep epena epdis : Bool) : EpPhase :=
  match usbaep, epena, epdis with
  | false, false, false => .inactive
  | true, false, false => .activeIdle
  | true, true, false => .activeXfer
  | false, true, true => .disabling
  | true, true, true => .reactivatedDisabling
  | false, true, false => .other
  | false, false, true => .other
  | true, false, true => .other

/-- R168, an IN endpoint. -/
def Dev.inPhase (d : Dev sh) (e : Nat) : EpPhase :=
  epPhase (slot d.diepctl e).usbaep (slot d.diepctl e).epena (slot d.diepctl e).epdis

/-- R168, an OUT endpoint: endpoint 0 is always active and only armed or not, the others as for IN over DOEPCTL[e]. -/
def Dev.outPhase (d : Dev sh) (e : Nat) : EpPhase :=
  if e = 0 then (if (slot d.doepctl 0).epena then .armed else .unarmed)
  else epPhase (slot d.doepctl e).usbaep (slot d.doepctl e).epena (slot d.doepctl e).epdis

end Sys2Proof.Machine
end

