-- ==== Sys2Proof/Machine/Flags.lean ====
section
/-! DEFINITION. The derived status bits and outputs (spec/10_state.md R54, R62, R64; spec/60_exceptions.md R286, R288),
the classifier of POLL (R211) and the FAULT bits (R60, R281, R283). -/

namespace Sys2Proof.Machine

variable {sh : Shape}

/-- R54: `DAINT.iep[e]`; R38: 0 for `e >= N`. -/
def Dev.inPending (d : Dev sh) (e : Nat) : Bool := slot d.diepint e &&& d.cfg.inIntAll &&& d.diepmsk != 0#sh.wordBits

/-- R54: `DAINT.oep[e]`; R38: 0 for `e >= N`. -/
def Dev.outPending (d : Dev sh) (e : Nat) : Bool := slot d.doepint e &&& d.cfg.outIntAll &&& d.doepmsk != 0#sh.wordBits

/-- R38, R54: the aggregate register DAINT, recomputed at every read. -/
def Dev.daint (d : Dev sh) : RegWord sh := bitMap d.inPending sh.endpoints ||| (bitMap d.outPending sh.endpoints <<< 16)

/-- R54: `GINTSTS.rxflvl`, RXQ is not empty. -/
def Dev.rxflvl (d : Dev sh) : Bool := !d.rxq.isEmpty

/-- R54: `GINTSTS.iepint`. -/
def Dev.iepint (d : Dev sh) : Bool := bitMap d.inPending sh.endpoints &&& d.daintmsk.iepm.setWidth sh.wordBits != 0#sh.wordBits

/-- R54: `GINTSTS.oepint`. -/
def Dev.oepint (d : Dev sh) : Bool := bitMap d.outPending sh.endpoints &&& d.daintmsk.oepm.setWidth sh.wordBits != 0#sh.wordBits

/-- R24, R54: GINTSTS as read, the stored flags with the three derived bits computed at the read. -/
def Dev.gintstsRead (d : Dev sh) : RegWord sh :=
  putFields [(F.rxflvl, flagNat d.rxflvl), (F.iepint, flagNat d.iepint), (F.oepint, flagNat d.oepint)] d.gintsts

/-- R62, R286: the interrupt request line, a level. -/
def Dev.irq (d : Dev sh) : Bool := d.gint && d.gintstsRead &&& d.gintmsk != 0#sh.wordBits

/-- R64: the line pull-up output. -/
def Dev.pullup (d : Dev sh) : Bool := !F.sdis.bit d.dctl

/-- R211: the first cause, in the fixed priority order, whose bit is 1 in the snapshot. -/
def classify {w : Nat} (snap : BitVec w) : Cause :=
  if F.usbrst.bit snap then .usbrst
  else if F.enumdne.bit snap then .enumdne
  else if F.rxflvl.bit snap then .rxflvl
  else if F.iepint.bit snap then .iepint
  else if F.oepint.bit snap then .oepint
  else .none

/-- R219, R220: the first-set-bit scan of a half of DAINT; `none` for an empty half (R224). -/
def firstSet (half : BitVec 16) : Option Nat := (List.range 16).find? fun i => half.getLsbD i

/-- R60, R283: the bit number of a cause in FAULT. -/
def FaultCause.code : FaultCause → Nat
  | .epRange => 0
  | .badSize => 1
  | .oversize => 2
  | .rxUnderflow => 3
  | .rxDesync => 4
  | .txOverflow => 5
  | .reservedCmd => 6
  | .reentrantPoll => 7
  | .unsupportedOutData => 8
  | .padAccess => 9

/-- The bits of FAULT that have a cause; codes 10 to 31 read 0 (R283). -/
def faultAll : Word := 0x000003FF#32

end Sys2Proof.Machine
end

