-- ==== Sys2Proof/Machine/Operands.lean ====
section
/-! DEFINITION. Operand arithmetic and word formats: the depth formulas of the allocator (spec/40_fifo_allocator.md R140,
R141, R145), the byte lanes of the byte mover (spec/20_memory.md R84), the status entry (spec/30_encoding.md R128) and
the event words (R125, R127). -/

namespace Sys2Proof.Machine

variable {sh : Shape}

/-- `ceil(size / n)` (R8). -/
def ceilDiv (size n : Nat) : Nat := (size + (n - 1)) / n

/-- `ceil(size / 4)` (R8, R145, R197): the number of FIFO words that hold `size` bytes. -/
def wordsFor (size : Nat) (sh : Shape := Shape.hardware) : Nat := ceilDiv size sh.wordBytes

/-- R7 `RX_WORDS_PER_CHUNK`: the number of 4-byte chunks in `size` bytes. -/
def chunksFor (size : Nat) : Nat := ceilDiv size 4

/-- R140: the RX depth for a byte size, `10 + 2 * ceil(size / 4)` with the values of R7. -/
def rxDepthFor (c : Config sh) (size : Nat) : Nat := c.rxOverheadWords + c.rxWordsPerChunk * chunksFor size

/-- R141: the TX depth for a byte size, `ceil(size / 4)`. -/
def txDepthFor (size : Nat) (sh : Shape := Shape.hardware) : Nat := wordsFor size sh

/-- R160, R161: the legal max packet sizes. -/
def mpsLegal (mps : Nat) (sh : Shape := Shape.hardware) : Bool :=
  decide (1 ≤ mps) && decide (mps ≤ maxPacketSizeLimit sh)

/-- R84: byte `j` of a word, bits `[8*j+7 : 8*j]`. -/
def lane {w : Nat} (x : BitVec w) (j : Nat) : Byte := x.extractLsb' (8 * j) 8

/-- R84: the bytes of a word, least significant first. -/
def wordBytes {w : Nat} (x : BitVec w) : List Byte := (List.range (w / 8)).map (lane x)

/-- R84: a word from its bytes, `{b3, b2, b1, b0}` of the list `[b0, b1, b2, b3]`. -/
def wordOfBytes {w : Nat} (bs : List Byte) : BitVec w := bs.foldr (fun b x => x <<< 8 ||| b.setWidth w) 0#w

/-- R193, R253: a word from its first bytes; each missing lane is a draw (`draw` numbers it). -/
def packLanes {w : Nat} (draw : Nat) (bs : List Byte) : BitVec w :=
  wordOfBytes ((List.range (w / 8)).map fun j => bs[j]?.getD (Config.freeByte draw j))

/-- R253: the data words of a payload (R84), the last one padded with the draws of event `draw`. -/
def payloadWords {w : Nat} (draw : Nat) (bs : List Byte) : List (BitVec w) :=
  (List.range (ceilDiv bs.length (w / 8))).map fun k => packLanes draw ((bs.drop (w / 8 * k)).take (w / 8))

/-- R83, R190: the address of buffer byte `i`, modulo 2^32. -/
def bufferAddr (ba : Word) (i : Nat) : Word := ba + BitVec.ofNat 32 i

/-- R128: the endpoint number of a status entry. -/
def stsEpnum {w : Nat} (sts : BitVec w) : BitVec 4 := sts.extractLsb' 0 4

/-- R128: the byte count of a status entry. -/
def stsBcnt {w : Nat} (sts : BitVec w) : BitVec 11 := sts.extractLsb' 4 11

/-- R128: the packet status code of a status entry. -/
def stsPktsts {w : Nat} (sts : BitVec w) : BitVec 4 := sts.extractLsb' 17 4

/-- R128, R253: a status entry from its fields, the bits above them zero. -/
def statusEntry {w : Nat} (epnum bcnt : Nat) (dpid : BitVec 2) (pktsts : BitVec 4) : BitVec w :=
  packFields [(⟨0, 4⟩, epnum), (⟨4, 11⟩, bcnt), (⟨15, 2⟩, dpid.toNat), (⟨17, 4⟩, pktsts.toNat)]

/-- R129: the packet status codes CORE handles. -/
def pktOutReceived : BitVec 4 := 2#4
/-- R129. -/
def pktOutComplete : BitVec 4 := 3#4
/-- R129. -/
def pktSetupComplete : BitVec 4 := 4#4
/-- R129. -/
def pktSetupReceived : BitVec 4 := 6#4

/-- R129: the codes whose data words follow the entry in RXQ. -/
def pktCarriesData (pktsts : BitVec 4) : Bool := pktsts == pktOutReceived || pktsts == pktSetupReceived

/-- R125: an event word from its fields. -/
def eventWord (code : BitVec 4) (ep : BitVec 4) (bcnt : BitVec 11) : Word := code ++ ep ++ 0#13 ++ bcnt

/-- R127: the word of an event. -/
def Event.word : Event → Word
  | .resetReceived => eventWord 1 0 0
  | .setupDataReceived ep bcnt => eventWord 2 ep bcnt
  | .inTransferCompleted ep => eventWord 4 (BitVec.ofNat 4 ep) 0
  | .outTransferCompleted ep => eventWord 5 (BitVec.ofNat 4 ep) 0
  | .polled => eventWord 6 0 0

end Sys2Proof.Machine
end

