-- ==== Sys2Proof/Machine/Ops.lean ====
section
/-! DEFINITION. The named operations over the registers, the FIFOs, the buffer memory and the event port: the access
primitives of spec/20_memory.md R88 to R94, raising a fault (spec/60_exceptions.md R281), emitting and acknowledging an
event (spec/30_encoding.md R126) and the completion steps of the flush controller (spec/41_endpoint_manager.md R173,
R174). -/

namespace Sys2Proof.Machine

variable {sh : Shape}

/-! ## The application buffer memory (R83, R94) -/

/-- What an address HOST has not written reads as (log entry 3). -/
def Memory.unlisted : Byte := 0#8

/-- The byte at an address. -/
def Memory.read : Memory → Nat → Byte
  | [], _ => Memory.unlisted
  | (k, b) :: rest, a => if k = a then b else Memory.read rest a

/-- Put a cell at the front unless it holds what an unlisted address reads as. -/
def Memory.consCell (a : Nat) (b : Byte) (m : Memory) : Memory := if b = Memory.unlisted then m else (a, b) :: m

/-- Store a byte at an address, keeping the canonical form. -/
def Memory.write : Memory → Nat → Byte → Memory
  | [], a, b => Memory.consCell a b []
  | (k, c) :: rest, a, b =>
    if a < k then Memory.consCell a b ((k, c) :: rest)
    else if a = k then Memory.consCell a b rest
    else (k, c) :: Memory.write rest a b

/-- Every key of the memory is above `lo`. -/
def Memory.above (lo : Nat) : Memory → Bool
  | [] => true
  | (k, _) :: _ => decide (lo < k)

/-- The canonical form: addresses strictly rising and below 2^32, no entry equal to what an unlisted address reads
as. -/
def Memory.wf : Memory → Bool
  | [] => true
  | (k, b) :: rest => decide (k < 2 ^ 32) && b != Memory.unlisted && Memory.above k rest && Memory.wf rest

/-- R94 `MemRead(addr, 1)`. -/
def Dev.memRead (d : Dev sh) (a : Word) : Byte := Memory.read d.mem a.toNat

/-- R94 `MemWrite(addr, 1, b)`. -/
def Dev.memWrite (d : Dev sh) (a : Word) (b : Byte) : Dev sh := { d with mem := Memory.write d.mem a.toNat b }

/-- Bytes stored one after another from an address on, modulo 2^32 (R83). -/
def Dev.memWriteAll (d : Dev sh) (a : Word) : List Byte → Dev sh
  | [] => d
  | b :: bs => Dev.memWriteAll (d.memWrite a b) (a + 1#32) bs

/-! ## Faults (R281) -/

/-- R281 `raise Fault(c)`: the sticky bit is set and nothing else changes. What ends is said by the caller. -/
def Dev.raise (d : Dev sh) (c : FaultCause) : Dev sh := { d with fault := d.fault ||| (1#32 <<< c.code) }

/-! ## Unspecified FIFO contents (R144, R147; log entry 7) -/

/-- The element of RXQ at `place` after its contents became unspecified at draw `draw`. -/
def freeRxWord (draw place : Nat) : RxWord sh :=
  if Config.freeTag draw place then .status (Config.freeQueued draw sh.endpoints place)
  else .data (Config.freeQueued draw sh.endpoints place)

/-- The elements of RXQ from `place` on, made unspecified where `lost` holds; their number stays. -/
def blurRx (lost : Bool) (draw : Nat) : (place : Nat) → List (RxWord sh) → List (RxWord sh)
  | _, [] => []
  | p, x :: xs => (if lost then freeRxWord draw p else x) :: blurRx lost draw (p + 1) xs

/-- The words of TXQ[e] from `place` on, made unspecified where `lost` holds; their number stays. -/
def blurTx {w : Nat} (lost : Bool) (draw e : Nat) : (place : Nat) → List (BitVec w) → List (BitVec w)
  | _, [] => []
  | p, x :: xs => (if lost then Config.freeQueued draw e p else x) :: blurTx lost draw e (p + 1) xs

/-- R144: `RXFD + TXFD[0] + ... + TXFD[N-1]`. -/
def Dev.depthSum (d : Dev sh) : Nat := d.rxfd.toNat + (d.txf.map fun t => t.depth.toNat).sum

/-- R144: the premise LayoutFits, false too once the depths add up to a cursor that wraps (R326, U28). -/
def Dev.layoutFits (d : Dev sh) : Bool := d.cfg.fits d.depthSum

/-- The contents of RXQ where `rxLost` holds, and of TXQ[e] where `txLost e` holds, made unspecified. -/
def Dev.blur (d : Dev sh) (rxLost : Bool) (txLost : Nat → Bool) : Dev sh :=
  { d with
    rxq   := blurRx rxLost d.draws 0 d.rxq
    txq   := d.txq.mapIdx fun e q => blurTx (txLost e) d.draws e 0 q
    draws := d.draws + 1 }

/-- R144, R326: where LayoutFits is `lost`, the contents of every FIFO are unspecified, from then on. -/
def Dev.loseIf (d : Dev sh) (lost : Bool) : Dev sh :=
  if lost then { d.blur true (fun _ => true) with overlap := true } else d

/-- The FIFO contents after a write of a region register: unspecified where the region changed (R147), and all of them
once LayoutFits is false (R144). -/
def Dev.blurMoved (d : Dev sh) (rxMoved : Bool) (txMoved : Nat → Bool) : Dev sh :=
  let lost := !d.layoutFits
  { d.blur (rxMoved || lost) (fun e => txMoved e || lost) with overlap := d.overlap || lost }

/-- A write of GRXFSIZ (R30). -/
def Dev.setRxDepth (d : Dev sh) (v : Half sh) : Dev sh :=
  ({ d with rxfd := v } : Dev sh).blurMoved (d.rxfd != v) fun _ => false

/-- A write of DIEPTXF0 (`e = 0`) or DIEPTXF[e-1] (R31, R32). -/
def Dev.setTxRegion (d : Dev sh) (e : Nat) (r : TxRegion sh) : Dev sh :=
  ({ d with txf := setSlot d.txf e r } : Dev sh).blurMoved false fun k => k == e && slot d.txf e != r

/-! ## Register access (R88 to R91) -/

/-- R88 `RegRead(REG)`: the packed word, the derived fields computed at the read. -/
def Dev.regRead (d : Dev sh) : Reg → RegWord sh
  | .gahbcfg => packFields [(F.gint, flagNat d.gint)]
  | .grstctl => d.grstctl.pack
  | .gintsts => d.gintstsRead
  | .gintmsk => d.gintmsk
  | .grxfsiz => packFields [(F.rxfd sh, d.rxfd.toNat)]
  | .dieptxf0 => txRegionPack (slot d.txf 0)
  | .dieptxf k => txRegionPack (slot d.txf (k + 1))
  | .dcfg => d.dcfg
  | .dctl => d.dctl
  | .diepmsk => d.diepmsk
  | .doepmsk => d.doepmsk
  | .daint => d.daint
  | .daintmsk => d.daintmsk.pack
  | .diepctl e => (slot d.diepctl e).pack
  | .diepint e => slot d.diepint e &&& d.cfg.inIntAll
  | .dieptsiz e => (slot d.dieptsiz e).pack
  | .doepctl e => (slot d.doepctl e).pack e
  | .doepint e => slot d.doepint e &&& d.cfg.outIntAll

/-- R89 `RegWrite(REG, w)`: each field takes effect by its kind (R22). A write of a W1C register is `IntClear` (R91). -/
def Dev.regWrite (d : Dev sh) (r : Reg) (w : RegWord sh) : Dev sh :=
  match r with
  | .gahbcfg => { d with gint := F.gint.bit w }
  | .grstctl => { d with grstctl := d.grstctl.write w }
  | .gintsts => { d with gintsts := d.gintsts &&& ~~~w }
  | .gintmsk => { d with gintmsk := w }
  | .grxfsiz => d.setRxDepth (w.extractLsb' (F.rxfd sh).lo sh.depthBits)
  | .dieptxf0 => d.setTxRegion 0 (txRegionUnpack w)
  | .dieptxf k => d.setTxRegion (k + 1) (txRegionUnpack w)
  | .dcfg => { d with dcfg := w }
  | .dctl => { d with dctl := w }
  | .diepmsk => { d with diepmsk := w }
  | .doepmsk => { d with doepmsk := w }
  | .daint => d
  | .daintmsk => { d with daintmsk := Daintmsk.unpack w }
  | .diepctl e => { d with diepctl := setSlot d.diepctl e ((slot d.diepctl e).write w) }
  | .diepint e => { d with diepint := setSlot d.diepint e (slot d.diepint e &&& ~~~w) }
  | .dieptsiz e => { d with dieptsiz := setSlot d.dieptsiz e (Dieptsiz.unpack w) }
  | .doepctl e => { d with doepctl := setSlot d.doepctl e ((slot d.doepctl e).write e w) }
  | .doepint e => { d with doepint := setSlot d.doepint e (slot d.doepint e &&& ~~~w) }

/-- R90 `RegRMW(REG, fs)`: one atomic step, read, replace the listed fields, write. A depth too large for its field is
truncated, and LayoutFits is then false (R326, U28). -/
def Dev.regRMW (d : Dev sh) (r : Reg) (fs : List (Field × Nat)) : Dev sh :=
  (d.regWrite r (putFields fs (d.regRead r))).loseIf (r.isRegion && fs.any fun fv => fv.1.truncates fv.2)

/-- R91 `IntClear(REG, m)`: a plain write of `m` to a W1C register. -/
def Dev.intClear (d : Dev sh) (r : Reg) (m : RegWord sh) : Dev sh := d.regWrite r m

/-- R267: force the stored fields of a register to what a packed word gives. Derived bits are not stored. -/
def Dev.regForce (d : Dev sh) (r : Reg) (w : RegWord sh) : Dev sh :=
  match r with
  | .gahbcfg => { d with gint := F.gint.bit w }
  | .grstctl => { d with grstctl := Grstctl.unpack w }
  | .gintsts => { d with gintsts := w &&& ~~~gintstsDerived }
  | .gintmsk => { d with gintmsk := w }
  | .grxfsiz => d.setRxDepth (w.extractLsb' (F.rxfd sh).lo sh.depthBits)
  | .dieptxf0 => d.setTxRegion 0 (txRegionUnpack w)
  | .dieptxf k => d.setTxRegion (k + 1) (txRegionUnpack w)
  | .dcfg => { d with dcfg := w }
  | .dctl => { d with dctl := w }
  | .diepmsk => { d with diepmsk := w }
  | .doepmsk => { d with doepmsk := w }
  | .daint => d
  | .daintmsk => { d with daintmsk := Daintmsk.unpack w }
  | .diepctl e => { d with diepctl := setSlot d.diepctl e (Diepctl.unpack w) }
  | .diepint e => { d with diepint := setSlot d.diepint e (w &&& d.cfg.inIntAll) }
  | .dieptsiz e => { d with dieptsiz := setSlot d.dieptsiz e (Dieptsiz.unpack w) }
  | .doepctl e => { d with doepctl := setSlot d.doepctl e (Doepctl.unpack e w) }
  | .doepint e => { d with doepint := setSlot d.doepint e (w &&& d.cfg.outIntAll) }

/-! ## FIFO access (R92, R93) -/

/-- What a pop leaves and returns; `ok` is false when it raised a fault. -/
structure Popped (sh : Shape) where
  dev  : Dev sh
  word : RegWord sh
  ok   : Bool
deriving DecidableEq, Repr

/-- R92, a pop that finds RXQ empty: nothing is removed and the returned word is a draw. -/
def Dev.popEmpty (d : Dev sh) : Popped sh :=
  { dev := { d.raise .rxUnderflow with draws := d.draws + 1 }, word := Config.freeWord d.draws, ok := false }

/-- R92, a pop that finds the other tag: the head is removed and the returned word is a draw. -/
def Dev.popDesync (d : Dev sh) (rest : List (RxWord sh)) : Popped sh :=
  { dev := { d.raise .rxDesync with rxq := rest, draws := d.draws + 1 }, word := Config.freeWord d.draws, ok := false }

/-- R92 `StatusPop()`. -/
def Dev.statusPop (d : Dev sh) : Popped sh :=
  match d.rxq with
  | [] => d.popEmpty
  | .status w :: rest => { dev := { d with rxq := rest }, word := w, ok := true }
  | .data _ :: rest => d.popDesync rest

/-- R92 `PortPop()`. -/
def Dev.portPop (d : Dev sh) : Popped sh :=
  match d.rxq with
  | [] => d.popEmpty
  | .data w :: rest => { dev := { d with rxq := rest }, word := w, ok := true }
  | .status _ :: rest => d.popDesync rest

/-- Append words to RXQ; once LayoutFits has been false their contents are unspecified (R144). -/
def Dev.rxAppend (d : Dev sh) (xs : List (RxWord sh)) : Dev sh :=
  { d with rxq := d.rxq ++ blurRx d.overlap d.draws d.rxq.length xs, draws := d.draws + 1 }

/-- Append words to TXQ[e]; once LayoutFits has been false their contents are unspecified (R144). -/
def Dev.txAppend (d : Dev sh) (e : Nat) (ws : List (RegWord sh)) : Dev sh :=
  { d with
    txq   := setSlot d.txq e (slot d.txq e ++ blurTx d.overlap d.draws e (slot d.txq e).length ws)
    draws := d.draws + 1 }

/-- R93: TXQ[e] has room for one more word. -/
def Dev.txHasRoom (d : Dev sh) (e : Nat) : Bool := decide ((slot d.txq e).length < (d.txDepth e).toNat)

/-- R93 `PortPush(e, w)`, where it does not fault: the caller tests `txHasRoom` for the fault. -/
def Dev.portPush (d : Dev sh) (e : Nat) (w : RegWord sh) : Dev sh :=
  if d.txHasRoom e then d.txAppend e [w] else d.raise .txOverflow

/-! ## The flush controller (R164, R165, R173 to R175) -/

/-- R173: TX flush completion, when a TX flush is pending. -/
def Dev.flushTxDone (d : Dev sh) : Dev sh :=
  if d.grstctl.txfflsh then
    { d with
      txq     := setSlot d.txq d.grstctl.txfnum.toNat []
      grstctl := { d.grstctl with txfflsh := false } }
  else d

/-- R174: RX flush completion, when an RX flush is pending. -/
def Dev.flushRxDone (d : Dev sh) : Dev sh :=
  if d.grstctl.rxfflsh then { d with rxq := [], grstctl := { d.grstctl with rxfflsh := false } } else d

/-- R165: the request, and with FLUSH_SYNC its completion in the same step (R175). -/
def Dev.requestFlushTx (d : Dev sh) (n : Nat) : Dev sh :=
  let d' := d.regRMW .grstctl [(F.grsttxfnum, n), (F.txfflsh, 1)]
  if d.cfg.flushSync then d'.flushTxDone else d'

/-- R164: the request, and with FLUSH_SYNC its completion in the same step (R175). -/
def Dev.requestFlushRx (d : Dev sh) : Dev sh :=
  let d' := d.regRMW .grstctl [(F.rxfflsh, 1)]
  if d.cfg.flushSync then d'.flushRxDone else d'

/-! ## The event port (R126) -/

/-- R126 `emit(EV)`: the event is pending and logged. -/
def Dev.emit (d : Dev sh) (ev : Event) : Dev sh :=
  { d with evPending := some ev.word, evlog := d.evlog ++ [ev.word] }

/-- R126: HOST acknowledges the pending event. -/
def Dev.acknowledge (d : Dev sh) : Dev sh := { d with evPending := none }

end Sys2Proof.Machine
end

