-- ==== Sys2Proof/Machine/Link.lean ====
section
/-! DEFINITION. The environment: LINK's moves (spec/45_link_environment.md R250 to R260, R266), the flush controller's
completion moves (R173, R174) and the test harness (R267). Each move has a guard, `enabled`; a move that is not enabled
is not taken and changes nothing (U27). -/

namespace Sys2Proof.Machine

variable {sh : Shape}

/-! ## LINK -/

/-- R253: how many data words follow a status entry. -/
def rxDataWords (bcnt : Nat) (pktsts : BitVec 4) (sh : Shape := Shape.hardware) : Nat :=
  if pktCarriesData pktsts then wordsFor bcnt sh else 0

/-- R253, R254: the guard of LK_RX_PUSH. The payload has `bcnt` bytes where one is carried. -/
def Dev.rxPushEnabled (d : Dev sh) (epnum bcnt : Nat) (pktsts : BitVec 4) (payload : List Byte) : Bool :=
  decide (epnum < sh.endpoints) && decide (bcnt ≤ 2047) &&
  (if pktCarriesData pktsts then payload.length == bcnt else bcnt == 0) &&
  decide (d.rxq.length + 1 + rxDataWords bcnt pktsts sh ≤ d.rxfd.toNat)

/-- R258 `OutStopped(e)`. -/
def Dev.outStopped (d : Dev sh) (e : Nat) : Dev sh :=
  { d with doepctl := setSlot d.doepctl e { slot d.doepctl e with epena := false, naksts := true } }

/-- R253: the effect of LK_RX_PUSH. -/
def Dev.rxPush (d : Dev sh) (epnum bcnt : Nat) (dpid : BitVec 2) (pktsts : BitVec 4) (payload : List Byte) : Dev sh :=
  let entry := RxWord.status (statusEntry epnum bcnt dpid pktsts)
  let data := if pktCarriesData pktsts then (payloadWords d.draws payload).map RxWord.data else []
  let d' := d.rxAppend (entry :: data)
  if pktsts == pktOutComplete || pktsts == pktSetupComplete then d'.outStopped epnum else d'

/-- R255: the guards of LK_TX_SEND. -/
def Dev.txSendEnabled (d : Dev sh) (e : Nat) : Bool :=
  let ctl := slot d.diepctl e
  let siz := slot d.dieptsiz e
  decide (e < sh.endpoints) && ctl.usbaep && ctl.epena && !ctl.naksts && !ctl.stall &&
  decide (1 ≤ siz.pktcnt.toNat) && decide (wordsFor siz.xfrsiz.toNat sh ≤ (slot d.txq e).length)

/-- R255: the bytes the packet of endpoint `e` is made of. -/
def Dev.txSendBytes (d : Dev sh) (e : Nat) : List Byte :=
  let n := (slot d.dieptsiz e).xfrsiz.toNat
  (((slot d.txq e).take (wordsFor n sh)).flatMap wordBytes).take n

/-- A cause flag of DIEPINT[e] or DOEPINT[e] is set. -/
def Dev.setEpFlag (d : Dev sh) (dir : Dir) (e b : Nat) : Dev sh :=
  match dir with
  | .inn => { d with diepint := setSlot d.diepint e (slot d.diepint e ||| (1#sh.wordBits <<< b)) }
  | .out => { d with doepint := setSlot d.doepint e (slot d.doepint e ||| (1#sh.wordBits <<< b)) }

/-- R255: the effect of LK_TX_SEND. -/
def Dev.txSend (d : Dev sh) (e : Nat) : Dev sh :=
  let ctl := slot d.diepctl e
  let n := (slot d.dieptsiz e).xfrsiz.toNat
  { d with
    txq      := setSlot d.txq e ((slot d.txq e).drop (wordsFor n sh))
    wireTx   := d.wireTx ++ [{ ep := e, dpid := ctl.dpid, bytes := d.txSendBytes e }]
    dieptsiz := setSlot d.dieptsiz e { xfrsiz := 0, pktcnt := 0 }
    diepctl  := setSlot d.diepctl e { ctl with epena := false, dpid := !ctl.dpid }
    diepint  := setSlot d.diepint e (slot d.diepint e ||| F.xfrc.mask) }

/-- R257: the guard of LK_DISABLE_DONE. -/
def Dev.disableDoneEnabled (d : Dev sh) (dir : Dir) (e : Nat) : Bool :=
  decide (e < sh.endpoints) && match dir with
    | .inn => (slot d.diepctl e).epdis
    | .out => (slot d.doepctl e).epdis

/-- R257: the effect of LK_DISABLE_DONE. -/
def Dev.disableDone (d : Dev sh) (dir : Dir) (e : Nat) : Dev sh :=
  match dir with
  | .inn =>
    { d with
      diepctl  := setSlot d.diepctl e { slot d.diepctl e with epena := false, epdis := false }
      diepint  := setSlot d.diepint e (slot d.diepint e ||| F.epdisd.mask)
      dieptsiz := setSlot d.dieptsiz e { xfrsiz := 0, pktcnt := 0 } }
  | .out =>
    { d with
      doepctl := setSlot d.doepctl e { slot d.doepctl e with epena := false, epdis := false }
      doepint := setSlot d.doepint e (slot d.doepint e ||| F.epdisd.mask) }

/-- R259: `b` is a defined cause of the direction. -/
def causeDefined (c : Config sh) (dir : Dir) (b : Nat) : Bool :=
  match dir with
  | .inn => c.inIntAll.getLsbD b
  | .out => c.outIntAll.getLsbD b

/-- R260: `b` is a bit of GINTSTS outside the five handled ones. -/
def otherGintBit (b : Nat) (sh : Shape := Shape.hardware) : Bool :=
  decide (b < sh.wordBits) && b != F.rxflvl.lo && b != F.usbrst.lo && b != F.enumdne.lo && b != F.iepint.lo && b != F.oepint.lo

/-- The guard of a move of LINK. -/
def LinkMove.enabled (m : LinkMove) (d : Dev sh) : Bool :=
  match m with
  | .busReset => true
  | .enumDone => true
  | .rxPush epnum bcnt _ pktsts payload => d.rxPushEnabled epnum bcnt pktsts payload
  | .txSend e => d.txSendEnabled e
  | .disableDone dir e => d.disableDoneEnabled dir e
  | .outXfrc e => decide (e < sh.endpoints)
  | .epFlag dir e b => decide (e < sh.endpoints) && causeDefined d.cfg dir b
  | .otherGint b => otherGintBit b sh

/-- The effect of a move of LINK whose guard holds. -/
def LinkMove.effect (m : LinkMove) (d : Dev sh) : Dev sh :=
  match m with
  | .busReset => { d with gintsts := d.gintsts ||| F.usbrst.mask }
  | .enumDone => { d with gintsts := d.gintsts ||| F.enumdne.mask }
  | .rxPush epnum bcnt dpid pktsts payload => d.rxPush epnum bcnt dpid pktsts payload
  | .txSend e => d.txSend e
  | .disableDone dir e => d.disableDone dir e
  | .outXfrc e => d.setEpFlag .out e F.xfrc.lo
  | .epFlag dir e b => d.setEpFlag dir e b
  | .otherGint b => { d with gintsts := d.gintsts ||| (1#sh.wordBits <<< b) }

/-- A move of LINK: taken where it is enabled. -/
def LinkMove.apply (m : LinkMove) (d : Dev sh) : Dev sh := if m.enabled d then m.effect d else d

/-! ## The flush controller -/

/-- R173, R174: when a completion step is enabled. -/
def FlushMove.enabled (m : FlushMove) (d : Dev sh) : Bool :=
  match m with
  | .txDone => d.grstctl.txfflsh
  | .rxDone => d.grstctl.rxfflsh

/-- R173, R174. -/
def FlushMove.apply (m : FlushMove) (d : Dev sh) : Dev sh :=
  match m with
  | .txDone => d.flushTxDone
  | .rxDone => d.flushRxDone

/-! ## The test harness -/

/-- R267. -/
def HarnessMove.apply (m : HarnessMove sh) (d : Dev sh) : Dev sh :=
  match m with
  | .rxFeed ws => d.rxAppend (ws.map RxWord.data)
  | .rxStatus sts => d.rxAppend [RxWord.status sts]
  | .loopback e => ({ d with txq := setSlot d.txq e [] } : Dev sh).rxAppend ((slot d.txq e).map RxWord.data)
  | .set r f v => d.regForce r (f.put v (d.regRead r))

end Sys2Proof.Machine
end

