-- ==== Sys2Proof/Machine/Procedures.lean ====
section
/-! DEFINITION. The procedures of spec files 40 to 44 as lists of access steps in the order written (R11, R96), and what
an access step whose outcome decides on further steps puts before the rest. A procedure ends at a fault by adding no
further step (R281, R285). -/

namespace Sys2Proof.Machine

variable {sh : Shape}

/-! ## FIFO Allocator (R140 to R142) -/

/-- R140 `SetRxFifoSize(size)`. -/
def setRxFifoSizeSteps (c : Config sh) (size : Nat) : List (AccessStep sh) :=
  [.rmw .grxfsiz [(F.rxfd sh, rxDepthFor c size)], .layoutRx]

/-- R33: the register that holds the region of endpoint `e`. -/
def regionReg (e : Nat) : Reg :=
  match e with
  | 0 => .dieptxf0
  | k + 1 => .dieptxf k

/-- R141 `SetTxFifoSize(e, size)` after its `pre:` line. -/
def setTxFifoSizeSteps (e size : Nat) : List (AccessStep sh) :=
  [.rmw (regionReg e) [(F.txDepth sh, txDepthFor size sh)], .layoutRx]

/-- R142, the first read: the cursor starts after the RX region. -/
def Dev.layoutRxStep (d : Dev sh) : Dev sh × After sh :=
  (d, .go [.layoutStart 0 ((d.regRead .grxfsiz).extractLsb' (F.rxfd sh).lo sh.depthBits)])

/-- R142: the start of region `e` is programmed from the cursor. -/
def Dev.layoutStartStep (d : Dev sh) (e : Nat) (cur : Half sh) : Dev sh × After sh :=
  (d.regRMW (regionReg e) [(F.txStart sh, cur.toNat)], .go [.layoutDepth e cur])

/-- R142: the cursor advances by the depth of region `e`, modulo 2^16. -/
def Dev.layoutDepthStep (d : Dev sh) (e : Nat) (cur : Half sh) : Dev sh × After sh :=
  let cur' := cur + (d.regRead (regionReg e)).extractLsb' (F.txDepth sh).lo sh.depthBits
  (d, .go (if e + 1 < sh.txRegions then [.layoutStart (e + 1) cur'] else []))

/-! ## Endpoint Manager (R160 to R163) -/

/-- R160 `ActivateControlEndpoint(mps)` after its `pre:` line. -/
def activateControlSteps (c : Config sh) (mps : Nat) : List (AccessStep sh) :=
  [ .rmw .daintmsk [(F.iepm 0, 1), (F.oepm 0, 1)],
    .rmw (.diepctl 0) [(F.mpsiz sh, mps), (F.usbaep, 1), (F.snak, 1)],
    .rmw (.doepctl 0) [(F.epena, 1), (F.cnak, 1)] ]
  ++ setRxFifoSizeSteps c c.ctrlRxBytes ++ setTxFifoSizeSteps 0 mps

/-- R161 `ActivateInEndpoint(e, t, mps)` after its `pre:` lines. -/
def activateInSteps (e : Nat) (t : EpType) (mps : Nat) : List (AccessStep sh) :=
  [ .rmw .daintmsk [(F.iepm e, 1)],
    .rmw (.diepctl e) [(F.mpsiz sh, mps), (F.usbaep, 1), (F.snak, 1), (F.eptyp, (codeOfEpType t).toNat), (F.txfnum, e),
      (F.sd0pid, 1)] ]
  ++ setTxFifoSizeSteps e mps

/-- R162 `DeactivateEndpoint(n)`, up to the first access to a register of slot `n`; the rest is `deactRestSteps`, and
then `ev` is emitted, if any. The mask bits of the pad slot are reserved bits (R39). -/
def deactivateSteps (n : Nat) (ev : Option Event) : List (AccessStep sh) :=
  [.rmw .daintmsk [(F.iepm n, 0), (F.oepm n, 0)], .deactFlags n ev]

/-- R162 after the IN flags are cleared; nothing of the OUT side but its flags is touched for endpoint 0. -/
def deactRestSteps (c : Config sh) (n : Nat) : List (AccessStep sh) :=
  [.clear (.doepint n) c.outIntAll, .deactTest .inn n]
  ++ (if n = 0 then [] else [.deactTest .out n])
  ++ [.rmw (.diepctl n) [(F.usbaep, 0)]]
  ++ (if n = 0 then [] else [.rmw (.doepctl n) [(F.usbaep, 0)]])
  ++ [.flushTx n, .flushRx]

/-- R162, R52: the IN flags are cleared; under OOR_POLICY = fault the first access to a register of the pad slot raises
`pad_access`, and the deactivation of the slot ends, and the handler that called it (R296). -/
def Dev.deactFlagsStep (d : Dev sh) (n : Nat) (ev : Option Event) : Dev sh × After sh :=
  if sh.endpoints ≤ n ∧ d.cfg.oorPolicy = .fault then (d.raise .padAccess, .go [])
  else (d.intClear (.diepint n) d.cfg.inIntAll, .go (deactRestSteps d.cfg n ++ ev.toList.map AccessStep.emit))

/-- R162: a disable is requested of an endpoint that is mid-transfer. -/
def Dev.deactTestStep (d : Dev sh) (dir : Dir) (n : Nat) : Dev sh × After sh :=
  let r := match dir with
    | .inn => Reg.diepctl n
    | .out => Reg.doepctl n
  (d, .go (if F.epena.bit (d.regRead r) then [.rmw r [(F.epdis, 1)]] else []))

/-- R163 `DeactivateAll()`: the slots 0..DEACT_ALL_LAST; then the calling handler's event `ev`, if any. -/
def deactivateAllSteps (c : Config sh) (ev : Option Event) : List (AccessStep sh) :=
  (List.range c.deactAllLast).flatMap (fun n => deactivateSteps n none) ++ deactivateSteps c.deactAllLast ev

/-! ## Packet Transfer Engine (R190 to R193) -/

/-- R190 `ReadPacket(ba, size)`. -/
def readPacketSteps (size : Nat) (ba : Word) : List (AccessStep sh) := if size = 0 then [] else [.popData ba size 0]

/-- R190: the byte stores of word `k`, `j` ascending, for the indices below `size`. -/
def storeSteps (ba : Word) (size k : Nat) (w : RegWord sh) : List (AccessStep sh) :=
  ((List.range sh.wordBytes).filter fun j => decide (sh.wordBytes * k + j < size)).map fun j =>
    .store (bufferAddr ba (sh.wordBytes * k + j)) (lane w j)

/-- R190: pop word `k`, store its bytes, go on to the next word; a fault ends the command at the pop. -/
def Dev.popDataStep (d : Dev sh) (ba : Word) (size k : Nat) : Dev sh × After sh :=
  let p := d.portPop
  (p.dev, .go (if p.ok then
      storeSteps ba size k p.word ++ (if sh.wordBytes * (k + 1) < size then [.popData ba size (k + 1)] else [])
    else []))

/-- R192 `WritePacket(e, ba, size)` after its `pre:` line. -/
def writePacketSteps (e size : Nat) (ba : Word) : List (AccessStep sh) := [.checkSize e size ba]

/-- R192: the size check, and where it passes the transfer size first, the control register second, the words last
(R194). -/
def Dev.checkSizeStep (d : Dev sh) (e size : Nat) (ba : Word) : Dev sh × After sh :=
  if (F.mpsiz sh).get (d.regRead (.diepctl e)) < size then (d.raise .oversize, .go [])
  else (d, .go ([ .rmw (.dieptsiz e) [(F.pktcnt sh, 1), (F.xfrsiz sh, size)],
                  .rmw (.diepctl e) [(F.stall, 0), (F.cnak, 1), (F.epena, 1)] ]
                ++ (if size = 0 then [] else [.load e size ba 0 []])))

/-- R192, R193: read source byte `i`; the word is complete with its last lane, or after the last byte with its missing
lanes drawn. -/
def Dev.loadStep (d : Dev sh) (e size : Nat) (ba : Word) (i : Nat) (lanes : List Byte) : Dev sh × After sh :=
  if size ≤ i then (d, .go [])
  else
    let bs := lanes ++ [d.memRead (bufferAddr ba i)]
    if (i + 1) % sh.wordBytes = 0 ∨ i + 1 = size then
      ({ d with draws := d.draws + 1 }, .go [.push e size ba (i + 1) (packLanes d.draws bs)])
    else (d, .go [.load e size ba (i + 1) bs])

/-- R192: push a word and go on to the next one; a push that does not fit ends the command. -/
def Dev.pushStep (d : Dev sh) (e size : Nat) (ba : Word) (i : Nat) (w : RegWord sh) : Dev sh × After sh :=
  (d.portPush e w, .go (if d.txHasRoom e && decide (i < size) then [.load e size ba i []] else []))

/-! ## Interrupt Dispatcher (R210 to R221) -/

/-- R210 `Poll()`. -/
def pollSteps : List (AccessStep sh) := [.snapshot]

/-- R210: the clear of the handled cause's flag, one bit (R223), and the polled event (R221). -/
def pollTail (f : Field) : List (AccessStep sh) := [.clear .gintsts f.mask, .emit .polled]

/-- R210: what follows the snapshot, the handler of the one cause (R213 to R220), its clear, and the polled event. -/
def causeSteps (c : Config sh) : Cause → List (AccessStep sh)
  | .usbrst => deactivateAllSteps c (some .resetReceived) ++ pollTail F.usbrst
  | .enumdne =>
    (if mpsLegal c.enumCtrlMps sh then activateControlSteps c c.enumCtrlMps else []) ++ pollTail F.enumdne
  | .rxflvl => [.popStatus] ++ pollTail F.rxflvl
  | .iepint => [.scan .inn] ++ pollTail F.iepint
  | .oepint => [.scan .out] ++ pollTail F.oepint
  | .none => [.emit .polled]

/-- R210: the snapshot read and the dispatch on the one cause. The enumeration-done handler's `pre:` line (R160, R214)
raises its fault here, no access step lying between; the handler then ends (R296, log entry 22). DEDUCED. -/
def Dev.snapshotStep (d : Dev sh) : Dev sh × After sh :=
  let cause := classify (d.regRead .gintsts)
  (if cause = .enumdne ∧ mpsLegal d.cfg.enumCtrlMps sh = false then d.raise .badSize else d, .go (causeSteps d.cfg cause))

/-- R218 `ReArmOut(epnum)`, with its range check. -/
def Dev.reArmOut (d : Dev sh) (epnum : BitVec 4) : Dev sh × List (AccessStep sh) :=
  if sh.endpoints ≤ epnum.toNat then (d.raise .epRange, [])
  else (d, [.rmw (.doepctl epnum.toNat) [(F.cnak, 1), (F.epena, 1)]])

/-- R217 `OutDataGap(epnum, bcnt)`. -/
def Dev.outDataGap (d : Dev sh) (bcnt : BitVec 11) : Dev sh := if bcnt = 0#11 then d else d.raise .unsupportedOutData

/-- R216 `Dispatch(epnum, bcnt, pktsts)`. -/
def Dev.dispatchStatus (d : Dev sh) (sts : RegWord sh) : Dev sh × List (AccessStep sh) :=
  let pktsts := stsPktsts sts
  if pktsts = pktSetupReceived then (d, [.emit (.setupDataReceived (stsEpnum sts) (stsBcnt sts))])
  else if pktsts = pktSetupComplete then d.reArmOut (stsEpnum sts)
  else if pktsts = pktOutComplete then d.reArmOut (stsEpnum sts)
  else if pktsts = pktOutReceived then (d.outDataGap (stsBcnt sts), [])
  else (d, [])

/-- R215 `RxFlvlHandler()`: one status entry is popped and dispatched; a fault at the pop ends the handler (R296). -/
def Dev.popStatusStep (d : Dev sh) : Dev sh × After sh :=
  let p := d.statusPop
  if p.ok then
    let q := p.dev.dispatchStatus p.word
    (q.1, .go q.2)
  else (p.dev, .go [])

/-- R219, R220: the half of DAINT a handler scans. -/
def daintHalf {w : Nat} (dir : Dir) (dai : BitVec w) : BitVec 16 :=
  match dir with
  | .inn => dai.extractLsb' 0 16
  | .out => dai.extractLsb' 16 16

/-- R219, R220: the lowest-numbered endpoint with an aggregate bit is looked at; an empty half ends the handler
(R224). -/
def Dev.scanStep (d : Dev sh) (dir : Dir) : Dev sh × After sh :=
  (d, .go (match firstSet (daintHalf dir (d.regRead .daint)) with
    | some e => [.testXfrc dir e]
    | none => []))

/-- R219, R220: the per-endpoint interrupt register of a direction. -/
def intReg (dir : Dir) (e : Nat) : Reg :=
  match dir with
  | .inn => .diepint e
  | .out => .doepint e

/-- R219, R220: the event of a completed transfer. -/
def xfrcEvent (dir : Dir) (e : Nat) : Event :=
  match dir with
  | .inn => .inTransferCompleted e
  | .out => .outTransferCompleted e

/-- R219, R220: a set `xfrc` is reported, then cleared; no other cause is looked at (R225). -/
def Dev.testXfrcStep (d : Dev sh) (dir : Dir) (e : Nat) : Dev sh × After sh :=
  (d, .go (if F.xfrc.bit (d.regRead (intReg dir e)) then
      [.emit (xfrcEvent dir e), .clear (intReg dir e) F.xfrc.mask]
    else []))

/-! ## Glue (R240 to R243) -/

/-- R240: the value INIT_CORE writes to GINTMSK. -/
def initGintmsk {w : Nat} : BitVec w := 0x000C3010#w

/-- R240 `InitCore()`. -/
def initCoreSteps : List (AccessStep sh) :=
  [.write .gintmsk initGintmsk, .write .diepmsk F.xfrc.mask, .write .doepmsk F.xfrc.mask, .rmw .gahbcfg [(F.gint, 1)]]

/-- R241 `SetAddress(addr)`. -/
def setAddressSteps (addr : Nat) : List (AccessStep sh) := [.rmw .dcfg [(F.dad, addr)]]

/-- R242 `Connect()`. -/
def connectSteps : List (AccessStep sh) := [.rmw .dctl [(F.sdis, 0)]]

/-- R243 `Disconnect()`. -/
def disconnectSteps : List (AccessStep sh) := [.rmw .dctl [(F.sdis, 1)]]

end Sys2Proof.Machine
end

