-- ==== Sys2Proof/Machine/Sequencer.lean ====
section
/-! DEFINITION. The sequencer: performing one access step, CORE's turn, the moves of the other agents between two access
steps (spec/20_memory.md R96 to R98), accepting a command (spec/30_encoding.md R110, R126) and running it to its end. -/

namespace Sys2Proof.Machine

variable {sh : Shape}

/-- One access step, atomic (R98): its effect and what follows it. -/
def perform (t : AccessStep sh) (d : Dev sh) : Dev sh × After sh :=
  match t with
  | .rmw r fs => (d.regRMW r fs, .go [])
  | .write r v => (d.regWrite r v, .go [])
  | .clear r m => (d.intClear r m, .go [])
  | .layoutRx => d.layoutRxStep
  | .layoutStart e cur => d.layoutStartStep e cur
  | .layoutDepth e cur => d.layoutDepthStep e cur
  | .deactFlags n ev => d.deactFlagsStep n ev
  | .deactTest dir n => d.deactTestStep dir n
  | .flushRx => (d.requestFlushRx, .go [])
  | .flushTx n => (d.requestFlushTx n, .go [])
  | .popData ba size k => d.popDataStep ba size k
  | .store a b => (d.memWrite a b, .go [])
  | .checkSize e size ba => d.checkSizeStep e size ba
  | .load e size ba i lanes => d.loadStep e size ba i lanes
  | .push e size ba i w => d.pushStep e size ba i w
  | .snapshot => d.snapshotStep
  | .popStatus => d.popStatusStep
  | .scan dir => d.scanStep dir
  | .testXfrc dir e => d.testXfrcStep dir e
  | .emit ev => (d.emit ev, .wait)

/-- A bound on the access steps of the layout walk (R142): two for each TX region. -/
abbrev layoutCost (sh : Shape) : Nat := 2 * sh.txRegions + 3

/-- A bound on the access steps an access step stands for, those it puts before the rest included (R265: every command
performs a bounded number of access steps). -/
def AccessStep.cost : AccessStep sh → Nat
  | .rmw _ _ => 1
  | .write _ _ => 1
  | .clear _ _ => 1
  | .layoutRx => layoutCost sh
  | .layoutStart e _ => 2 * (sh.txRegions - e) + 2
  | .layoutDepth e _ => 2 * (sh.txRegions - e) + 1
  | .deactFlags _ ev => 13 + ev.toList.length
  | .deactTest _ _ => 2
  | .flushRx => 1
  | .flushTx _ => 1
  | .popData _ size k => 2 * (size - sh.wordBytes * k) + 1
  | .store _ _ => 1
  | .checkSize _ size _ => 2 * size + 4
  | .load _ size _ i _ => 2 * (size - i) + 1
  | .push _ size _ i _ => 2 * (size - i) + 2
  | .snapshot => 14 * (sh.endpoints + 1) + 2 * layoutCost sh + 10
  | .popStatus => 2
  | .scan _ => 4
  | .testXfrc _ _ => 3
  | .emit _ => 1

/-- The bound of a list of access steps. -/
def costOf (todo : List (AccessStep sh)) : Nat := (todo.map AccessStep.cost).sum

/-- R66: `RUN` with access steps left, `IDLE` after the last one. -/
def Seq.running (cmd : Instr) (todo : List (AccessStep sh)) : Seq sh :=
  match todo with
  | [] => .idle
  | _ :: _ => .run cmd todo

/-- R66, R126: `NESTED` with access steps left, the waiting POLL after the last one. -/
def Seq.nesting (outer : Instr) (outerTodo : List (AccessStep sh)) (cmd : Instr) (todo : List (AccessStep sh)) : Seq sh :=
  match todo with
  | [] => .waitAck outer outerTodo
  | _ :: _ => .nested outer outerTodo cmd todo

/-- R110, R126: CORE accepts a command, at IDLE or while an event waits for its acknowledgement. -/
def Seq.accepting : Seq sh → Bool
  | .idle => true
  | .run _ _ => false
  | .waitAck _ _ => true
  | .nested _ _ _ _ => false

/-- The access steps of the command in progress. -/
def Seq.todo : Seq sh → List (AccessStep sh)
  | .idle => []
  | .run _ todo => todo
  | .waitAck _ _ => []
  | .nested _ _ _ todo => todo

/-- CORE performs the next access step of the command in progress. An emitted event stops a running command in WAIT_ACK
(R126); only POLL emits, and a nested command is never POLL, so the nested case goes on. -/
def coreStep (s : State.At sh) : State.At sh :=
  match s.seq with
  | .idle => s
  | .waitAck _ _ => s
  | .run _ [] => { s with seq := .idle }
  | .run cmd (t :: rest) =>
    let p := perform t s.dev
    { s with
      dev := p.1
      seq := match p.2 with
        | .go more => .running cmd (more ++ rest)
        | .wait => .waitAck cmd rest }
  | .nested outer outerTodo _ [] => { s with seq := .waitAck outer outerTodo }
  | .nested outer outerTodo cmd (t :: rest) =>
    let p := perform t s.dev
    { s with
      dev := p.1
      seq := match p.2 with
        | .go more => .nesting outer outerTodo cmd (more ++ rest)
        | .wait => .nesting outer outerTodo cmd rest }

/-- R126: the acknowledgement of the pending event lets the emitting procedure resume; with no event pending HOST has
nothing to acknowledge and nothing changes. -/
def State.At.ackEvent (s : State.At sh) : State.At sh :=
  match s.seq with
  | .idle => s
  | .run _ _ => s
  | .waitAck cmd todo => { s with dev := s.dev.acknowledge, seq := .running cmd todo }
  | .nested _ _ _ _ => s

/-- R320: hardware reset, at once and whatever is in progress (log entry 8). -/
def State.At.hardReset (s : State.At sh) : State.At sh :=
  { s with dev := Dev.afterReset s.dev.cfg s.dev.mem s.dev.draws, seq := .idle, port := [] }

/-- A move of another agent, taken from the script. -/
def applyInput (i : Input sh) (s : State.At sh) : State.At sh :=
  match i with
  | .link m => { s with dev := m.apply s.dev }
  | .flush m => { s with dev := m.apply s.dev }
  | .host (.command ws) => { s with port := s.port ++ ws }
  | .host .ack => s.ackEvent
  | .host (.store a bs) => { s with dev := s.dev.memWriteAll a bs }
  | .harness m => { s with dev := m.apply s.dev }
  | .core _ => s
  | .reset => s.hardReset

/-- One turn while a command is in progress: the next move of the script, or an access step of CORE where the script is
empty or gives CORE the turn. HOST's acknowledgement waits for an event to be pending (R126). -/
def turn (s : State.At sh) : State.At sh :=
  match s.inputs with
  | [] => coreStep s
  | .core .one :: rest => coreStep { s with inputs := rest }
  | .core .finish :: _ => coreStep s
  | .host .ack :: _ => coreStep s
  | i :: rest => applyInput i { s with inputs := rest }

/-- Turns until CORE accepts a command again or the script says `pause`; the first argument bounds their number. -/
def drive : Nat → State.At sh → State.At sh
  | 0, s => s
  | n + 1, s =>
    if s.seq.accepting then s
    else match s.inputs with
      | .core .pause :: rest => { s with inputs := rest }
      | _ => drive n (turn s)

/-- Enough turns for the command in progress to end: every turn takes a move from the script or performs an access
step. -/
def State.At.turnsLeft (s : State.At sh) : Nat := s.inputs.length + costOf s.seq.todo + 1

/-- CORE runs the command in progress. -/
def State.At.proceed (s : State.At sh) : State.At sh := drive s.turnsLeft s

/-- R110, R126: accept a command whose access steps are `todo` and run it, the moves of the script falling between its
access steps; the port does not accept a command while another one runs (U13). -/
def issue (cmd : Instr) (todo : List (AccessStep sh)) (s : State.At sh) : Host.Outcome (State.At sh) Fault Refusal :=
  match s.seq with
  | .idle => .next (State.At.proceed { s with seq := .running cmd todo })
  | .waitAck outer outerTodo => .next (State.At.proceed { s with seq := .nesting outer outerTodo cmd todo })
  | .run _ _ => .refused .portBusy
  | .nested _ _ _ _ => .refused .portBusy

/-- R281, R282: taking a fault before the first access step, the one shared operation for a failing `pre:` line (and for
a nested POLL, R126): the FAULT bit is set, no access step is performed, and `seq` is back at IDLE or WAIT_ACK. -/
def takeFault (c : FaultCause) (s : State.At sh) : Host.Outcome (State.At sh) Fault Refusal :=
  if s.seq.accepting then .next { s with dev := s.dev.raise c } else .refused .portBusy

end Sys2Proof.Machine
end

