-- ==== Sys2Proof/Machine/EndpointManager.lean ====
section
/-! DEFINITION. The meanings of the Endpoint Manager's commands (spec/41_endpoint_manager.md R160 to R165). -/

namespace Sys2Proof.Machine

variable {sh : Shape}

/-- ACTIVATE_CONTROL_EP (R160): `pre: 1 <= mps <= 2047`. -/
def execActivateControlEp (mps : Nat) (s : State.At sh) : Host.Outcome (State.At sh) Fault Refusal :=
  if mpsLegal mps sh then issue (.activateControlEp mps) (activateControlSteps s.dev.cfg mps) s else takeFault .badSize s

/-- ACTIVATE_IN_EP (R161): the endpoint's `pre:` line decides before the size's. -/
def execActivateInEp (ep : Nat) (t : EpType) (mps : Nat) (s : State.At sh) : Host.Outcome (State.At sh) Fault Refusal :=
  if 1 ≤ ep ∧ ep < sh.endpoints then
    if mpsLegal mps sh then issue (.activateInEp ep t mps) (activateInSteps ep t mps) s else takeFault .badSize s
  else takeFault .epRange s

/-- DEACTIVATE_EP (R162): `pre: n <= N-1` for the command form. -/
def execDeactivateEp (n : Nat) (s : State.At sh) : Host.Outcome (State.At sh) Fault Refusal :=
  if n < sh.endpoints then issue (.deactivateEp n) (deactivateSteps n none) s else takeFault .epRange s

/-- DEACTIVATE_ALL (R163). -/
def execDeactivateAll (s : State.At sh) : Host.Outcome (State.At sh) Fault Refusal :=
  issue .deactivateAll (deactivateAllSteps s.dev.cfg none) s

/-- FLUSH_RX (R164). -/
def execFlushRx (s : State.At sh) : Host.Outcome (State.At sh) Fault Refusal :=
  issue .flushRx [.flushRx] s

/-- FLUSH_TX (R165): `pre: n <= N-1` for the command form. -/
def execFlushTx (n : Nat) (s : State.At sh) : Host.Outcome (State.At sh) Fault Refusal :=
  if n < sh.endpoints then issue (.flushTx n) [.flushTx n] s else takeFault .epRange s

end Sys2Proof.Machine
end

