-- ==== Sys2Proof/Machine/FifoAllocator.lean ====
section
/-! DEFINITION. The meanings of the FIFO Allocator's commands (spec/40_fifo_allocator.md R140, R141). -/

namespace Sys2Proof.Machine

variable {sh : Shape}

/-- SET_RX_FIFO_SIZE (R140). -/
def execSetRxFifoSize (size : Nat) (s : State.At sh) : Host.Outcome (State.At sh) Fault Refusal :=
  issue (.setRxFifoSize size) (setRxFifoSizeSteps s.dev.cfg size) s

/-- SET_TX_FIFO_SIZE (R141): `pre: e <= N-1`. -/
def execSetTxFifoSize (ep size : Nat) (s : State.At sh) : Host.Outcome (State.At sh) Fault Refusal :=
  if ep < sh.endpoints then issue (.setTxFifoSize ep size) (setTxFifoSizeSteps ep size) s else takeFault .epRange s

end Sys2Proof.Machine
end

