-- ==== Sys2Proof/Machine/Glue.lean ====
section
/-! DEFINITION. The meanings of the glue commands (spec/44_glue.md R240 to R243). -/

namespace Sys2Proof.Machine

variable {sh : Shape}

/-- INIT_CORE (R240). -/
def execInitCore (s : State.At sh) : Host.Outcome (State.At sh) Fault Refusal := issue .initCore initCoreSteps s

/-- SET_ADDRESS (R241). -/
def execSetAddress (addr : Nat) (s : State.At sh) : Host.Outcome (State.At sh) Fault Refusal :=
  issue (.setAddress addr) (setAddressSteps addr) s

/-- CONNECT (R242). -/
def execConnect (s : State.At sh) : Host.Outcome (State.At sh) Fault Refusal := issue .connect connectSteps s

/-- DISCONNECT (R243). -/
def execDisconnect (s : State.At sh) : Host.Outcome (State.At sh) Fault Refusal := issue .disconnect disconnectSteps s

end Sys2Proof.Machine
end

