-- ==== Sys2Proof/Machine/InterruptDispatcher.lean ====
section
/-! DEFINITION. The meaning of POLL (spec/43_interrupt_dispatcher.md R210), the entry of the interrupt service (R290): it
runs to its first event and waits there for HOST's acknowledgement (R126). -/

namespace Sys2Proof.Machine

variable {sh : Shape}

/-- POLL (R210); as a nested command it is turned down with `reentrant_poll` (R126, R292). -/
def execPoll (s : State.At sh) : Host.Outcome (State.At sh) Fault Refusal :=
  match s.seq with
  | .waitAck _ _ => takeFault .reentrantPoll s
  | .idle => issue .poll pollSteps s
  | .run _ _ => issue .poll pollSteps s
  | .nested _ _ _ _ => issue .poll pollSteps s

end Sys2Proof.Machine
end

