-- ==== Sys2Proof/Machine/PacketTransfer.lean ====
section
/-! DEFINITION. The meanings of the Packet Transfer Engine's commands (spec/42_packet_transfer.md R190, R192). -/

namespace Sys2Proof.Machine

variable {sh : Shape}

/-- READ_PACKET (R190). -/
def execReadPacket (size : Nat) (ba : Word) (s : State.At sh) : Host.Outcome (State.At sh) Fault Refusal :=
  issue (.readPacket size ba) (readPacketSteps size ba) s

/-- WRITE_PACKET (R192): `pre: e <= N-1`. -/
def execWritePacket (ep size : Nat) (ba : Word) (s : State.At sh) : Host.Outcome (State.At sh) Fault Refusal :=
  if ep < sh.endpoints then issue (.writePacket ep size ba) (writePacketSteps ep size ba) s else takeFault .epRange s

end Sys2Proof.Machine
end

