-- ==== Sys2Proof/Machine/Dispatch.lean ====
section
/-! DEFINITION. One arm per command (spec/30_encoding.md R115): the meaning each has. -/

namespace Sys2Proof.Machine

def exec (i : Instr) (s : State) : Host.Outcome State Fault Refusal :=
  match i with
  | .setRxFifoSize size => Sys2Proof.Machine.execSetRxFifoSize size s
  | .setTxFifoSize ep size => Sys2Proof.Machine.execSetTxFifoSize ep size s
  | .activateControlEp mps => Sys2Proof.Machine.execActivateControlEp mps s
  | .activateInEp ep t mps => Sys2Proof.Machine.execActivateInEp ep t mps s
  | .deactivateEp ep => Sys2Proof.Machine.execDeactivateEp ep s
  | .deactivateAll => Sys2Proof.Machine.execDeactivateAll s
  | .flushRx => Sys2Proof.Machine.execFlushRx s
  | .flushTx ep => Sys2Proof.Machine.execFlushTx ep s
  | .readPacket size ba => Sys2Proof.Machine.execReadPacket size ba s
  | .writePacket ep size ba => Sys2Proof.Machine.execWritePacket ep size ba s
  | .poll => Sys2Proof.Machine.execPoll s
  | .initCore => Sys2Proof.Machine.execInitCore s
  | .setAddress addr => Sys2Proof.Machine.execSetAddress addr s
  | .connect => Sys2Proof.Machine.execConnect s
  | .disconnect => Sys2Proof.Machine.execDisconnect s

end Sys2Proof.Machine
end

