-- ==== Sys2Proof/Machine/Step.lean ====
section
/-! DEFINITION. One step of the machine. CORE fetches no instructions (spec/20_memory.md R101): a command is read from the
command port (spec/30_encoding.md R110). The step is written once for every shape (R7) and for a given dispatch; `step`
is the step of this hardware, with `exec`. -/

namespace Sys2Proof.Machine

variable {sh : Shape}

/-- A step while CORE accepts a command: the words on the port first, else the next move of the script, else CORE waits
for a command and nothing changes (R320). A reserved word is consumed, sets `reserved_cmd` and performs no access step
(R116, R117). -/
def acceptStep (dispatch : Instr → State.At sh → Host.Outcome (State.At sh) Fault Refusal) (s : State.At sh) :
    Host.Outcome (State.At sh) Fault Refusal :=
  match decode s.port with
  | .command i rest => dispatch i { s with port := rest }
  | .reserved _ rest => takeFault .reservedCmd { s with port := rest }
  | .incomplete =>
    match s.inputs with
    | [] => .next s
    | i :: rest => .next (applyInput i { s with inputs := rest })

/-- One step: the command in progress goes on (after an acknowledgement, or after a `pause`); otherwise CORE is ready for
a command. -/
def stepWith (dispatch : Instr → State.At sh → Host.Outcome (State.At sh) Fault Refusal) (s : State.At sh) :
    Host.Outcome (State.At sh) Fault Refusal :=
  if s.seq.accepting then acceptStep dispatch s else .next s.proceed

/-- One step of this hardware. -/
def step (s : State) : Host.Outcome State Fault Refusal := stepWith exec s

/-- The meanings at any shape (R7): `exec` is this map at this hardware's. -/
def execAt (i : Instr) (s : State.At sh) : Host.Outcome (State.At sh) Fault Refusal :=
  match i with
  | .setRxFifoSize size => execSetRxFifoSize size s
  | .setTxFifoSize ep size => execSetTxFifoSize ep size s
  | .activateControlEp mps => execActivateControlEp mps s
  | .activateInEp ep t mps => execActivateInEp ep t mps s
  | .deactivateEp ep => execDeactivateEp ep s
  | .deactivateAll => execDeactivateAll s
  | .flushRx => execFlushRx s
  | .flushTx ep => execFlushTx ep s
  | .readPacket size ba => execReadPacket size ba s
  | .writePacket ep size ba => execWritePacket ep size ba s
  | .poll => execPoll s
  | .initCore => execInitCore s
  | .setAddress addr => execSetAddress addr s
  | .connect => execConnect s
  | .disconnect => execDisconnect s

/-- One step of a machine of any shape (R7); `step` is this one at this hardware's. -/
def stepAt (s : State.At sh) : Host.Outcome (State.At sh) Fault Refusal := stepWith execAt s

/-- The sequencer with the command in progress dropped: `IDLE`, or the waiting POLL of a nested command. -/
def Seq.dropped : Seq sh → Seq sh
  | .idle => .idle
  | .run _ _ => .idle
  | .waitAck cmd todo => .waitAck cmd todo
  | .nested outer outerTodo _ _ => .waitAck outer outerTodo

/-- `s` with the words of an instruction on the command port before any already there, and CORE accepting: a command in
progress is dropped, since the port accepts none while one runs (log entry 10). -/
def State.withFetchWord (s : State) (nbits w : Nat) : State :=
  { s with port := tableWords nbits w ++ s.port, seq := s.seq.dropped }

end Sys2Proof.Machine
end

