-- ==== Sys2Proof/Safety.lean ====
section
/-! DEFINITION. The terms claims are stated in: when CORE is ready for a command and undisturbed, which moves of the
other agents a claim admits, the layout law of the allocator (spec/40_fifo_allocator.md R143), what a region write may
do to FIFO contents (R147), the invariant every step keeps, the protocol profile of LINK (spec/45_link_environment.md
R268) and the moves that fairness obliges (R265). -/

namespace Sys2Proof.Machine

/-! ## Decoding -/

/-- The words a decoding leaves on the port. -/
def wordsLeft (ws : List Word) : Decoded → List Word
  | .command _ rest => rest
  | .reserved _ rest => rest
  | .incomplete => ws

/-! ## Readiness and schedules -/

/-- CORE accepts a command (R110, R126) and the script plans no move of another agent, so a command runs undisturbed
to its end, or to its first event. -/
def State.At.Undisturbed (s : State) : Prop := s.seq.accepting = true ∧ s.inputs = []

/-- A script entry that neither stops a step of the model between two access steps nor asserts the hardware reset. -/
def Input.goesOn : Input .hardware → Bool
  | .link _ => true
  | .flush _ => true
  | .host _ => true
  | .harness _ => true
  | .core .one => true
  | .core .finish => true
  | .core .pause => false
  | .reset => false

/-- A script entry of the agents of R12 alone: LINK, the flush controller, HOST and CORE, without the test harness
(R267) and without the hardware reset (R320). -/
def Input.fromAgents : Input .hardware → Bool
  | .link _ => true
  | .flush _ => true
  | .host _ => true
  | .harness _ => false
  | .core _ => true
  | .reset => false

/-- Such a script, on which no step of the model stops between two access steps. -/
def State.At.agentsGoOn (s : State) : Bool := s.inputs.all fun i => i.goesOn && i.fromAgents

/-- R140, R141, R160, R161: the commands that re-lay the packet buffer out, with operands their `pre:` lines accept. -/
def laysOut : Instr → Bool
  | .setRxFifoSize _ => true
  | .setTxFifoSize ep _ => decide (ep < N)
  | .activateControlEp mps => decide (1 ≤ mps) && decide (mps ≤ 2047)
  | .activateInEp ep _ mps => decide (1 ≤ ep) && decide (ep < N) && decide (1 ≤ mps) && decide (mps ≤ 2047)
  | .deactivateEp _ => false
  | .deactivateAll => false
  | .flushRx => false
  | .flushTx _ => false
  | .readPacket _ _ => false
  | .writePacket _ _ _ => false
  | .poll => false
  | .initCore => false
  | .setAddress _ => false
  | .connect => false
  | .disconnect => false

/-! ## The layout -/

/-- R143: `(RXFD + TXFD[0] + ... + TXFD[e-1]) mod 2^16`. -/
def Dev.regionStart (d : Dev .hardware) (e : Nat) : Half :=
  BitVec.ofNat 16 (d.rxfd.toNat + ((List.range e).map fun k => (d.txDepth k).toNat).sum)

/-- R143: every TX region starts where the regions before it end. -/
def Dev.LayoutLaw (d : Dev .hardware) : Prop := ∀ e, e < N → d.txStart e = d.regionStart e

/-- R142: the access steps that write no region register and put no such step before the rest. -/
def AccessStep.sparesRegions : AccessStep .hardware → Bool
  | .rmw r _ => !r.isRegion
  | .write r _ => !r.isRegion
  | .clear r _ => !r.isRegion
  | .layoutRx => false
  | .layoutStart _ _ => false
  | .layoutDepth _ _ => false
  | .snapshot => false
  | .deactFlags _ _ => true
  | .deactTest _ _ => true
  | .flushRx => true
  | .flushTx _ => true
  | .popData _ _ _ => true
  | .store _ _ => true
  | .checkSize _ _ _ => true
  | .load _ _ _ _ _ => true
  | .push _ _ _ _ _ => true
  | .popStatus => true
  | .scan _ => true
  | .testXfrc _ _ => true
  | .emit _ => true

/-- No command in progress or waiting has a region register left to write. -/
def Seq.layoutDone : Seq .hardware → Bool
  | .idle => true
  | .run _ todo => todo.all AccessStep.sparesRegions
  | .waitAck _ todo => todo.all AccessStep.sparesRegions
  | .nested _ outerTodo _ todo => outerTodo.all AccessStep.sparesRegions && todo.all AccessStep.sparesRegions

/-- R143 between commands: the layout law holds, and nothing in progress or waiting will write a region register. -/
structure State.At.LayoutInv (s : State) : Prop where
  law : s.dev.LayoutLaw
  done : s.seq.layoutDone = true

/-- What writing region registers leaves of the device: everything but the region registers, the FIFO contents and the
model's own count of draws and overlap mark. -/
def Dev.SameOutsideRegions (d d' : Dev .hardware) : Prop :=
  d' = { d with rxfd := d'.rxfd, txf := d'.txf, rxq := d'.rxq, txq := d'.txq, draws := d'.draws, overlap := d'.overlap }

/-- The FIFOs hold as many words as before (log entry 7). -/
def Dev.FifoCountsKept (d d' : Dev .hardware) : Prop :=
  d'.rxq.length = d.rxq.length ∧ ∀ e, e < N → (slot d'.txq e).length = (slot d.txq e).length

/-- R144, R326, U28: LayoutFits holds after a depth was set to `depth`: the value was not truncated, the depths do not
add up to a cursor that wraps, and they fit the packet buffer. -/
def Dev.FitsAfter (d : Dev .hardware) (depth : Nat) : Prop :=
  depth < 65536 ∧ d.depthSum < 65536 ∧ d.depthSum ≤ d.cfg.fifoRamWords

/-- R144, R147, R326: a depth was set to `depth`. While LayoutFits holds, a FIFO whose region kept its depth and start
address holds the words it held; the others hold as many words as before, of unspecified contents. Once it does not hold,
all contents are unspecified from then on. -/
def Dev.FifosKept (d d' : Dev .hardware) (depth : Nat) : Prop :=
  d.FifoCountsKept d' ∧
  (d'.FitsAfter depth →
    (d'.rxfd = d.rxfd → d'.rxq = d.rxq) ∧
    ∀ e, e < N → slot d'.txf e = slot d.txf e → slot d'.txq e = slot d.txq e) ∧
  (d.overlap = true ∨ ¬ d'.FitsAfter depth → d'.overlap = true)

/-! ## What the procedures of the Endpoint Manager leave -/

/-- R160: what ACTIVATE_CONTROL_EP leaves, and that nothing else changes. -/
structure Dev.ControlActivated (mps : Nat) (d d' : Dev .hardware) : Prop where
  /-- The two interrupt-enable bits of endpoint 0, its two control registers, the regions; nothing else. -/
  fields : ({ d with
    daintmsk := { iepm := d.daintmsk.iepm ||| 1#6, oepm := d.daintmsk.oepm ||| 1#6 }
    diepctl  := setSlot d.diepctl 0
      { slot d.diepctl 0 with mpsiz := BitVec.ofNat 11 mps, usbaep := true, naksts := true }
    doepctl  := setSlot d.doepctl 0
      { slot d.doepctl 0 with usbaep := true, naksts := false, epena := true } } : Dev .hardware).SameOutsideRegions d'
  rxDepth : d'.rxfd = BitVec.ofNat 16 (rxDepthFor d.cfg d.cfg.ctrlRxBytes)
  /-- R140, R160: 42 words with the values of R7. -/
  rxDepth42 : d.cfg.TakesR7 → d'.rxfd = 42#16
  txDepth : d'.txDepth 0 = BitVec.ofNat 16 ((mps + 3) / 4)
  others : ∀ e, 1 ≤ e → e < N → d'.txDepth e = d.txDepth e
  layout : d'.LayoutLaw
  /-- Log entry 7. -/
  fifos : d.FifoCountsKept d'
  /-- R147, R160 (idempotent): where every region has already what it gets and the layout fits, the FIFOs keep their
  words, and the regions are as they were. -/
  again : d.rxfd.toNat = rxDepthFor d.cfg d.cfg.ctrlRxBytes → (d.txDepth 0).toNat = (mps + 3) / 4 →
    d.LayoutLaw → d.FitsAfter (rxDepthFor d.cfg d.cfg.ctrlRxBytes) → d'.rxq = d.rxq ∧ d'.txq = d.txq ∧ d'.txf = d.txf
  /-- R144, R326: where the new layout does not fit, all FIFO contents are unspecified from then on. -/
  lost : ¬ d'.FitsAfter (rxDepthFor d.cfg d.cfg.ctrlRxBytes) → d'.overlap = true

/-- R162: an IN control register after a deactivation; the disable request is made of an enabled endpoint. -/
def Diepctl.deactivated (c : Diepctl .hardware) : Diepctl .hardware := { c with usbaep := false, epdis := c.epdis || c.epena }

/-- R162: an OUT control register after a deactivation; that of endpoint 0 is left as it was. -/
def Doepctl.deactivated (c : Doepctl .hardware) (e : Nat) : Doepctl .hardware :=
  if e = 0 then c else { c with usbaep := false, epdis := c.epdis || c.epena }

/-- R163: what DEACTIVATE_ALL leaves of endpoint `e`, having visited it. -/
structure Dev.EndpointDeactivated (d d' : Dev .hardware) (e : Nat) : Prop where
  inMask : d'.daintmsk.iepm.getLsbD e = false
  outMask : d'.daintmsk.oepm.getLsbD e = false
  inFlags : slot d'.diepint e = slot d.diepint e &&& ~~~d.cfg.inIntAll
  outFlags : slot d'.doepint e = slot d.doepint e &&& ~~~d.cfg.outIntAll
  inControl : slot d'.diepctl e = (slot d.diepctl e).deactivated
  outControl : slot d'.doepctl e = (slot d.doepctl e).deactivated e
  flushed : d.cfg.flushSync = true → slot d'.txq e = []

/-- Everything DEACTIVATE_ALL writes of endpoint `e` is as before. -/
structure Dev.EndpointUntouched (d d' : Dev .hardware) (e : Nat) : Prop where
  inMask : d'.daintmsk.iepm.getLsbD e = d.daintmsk.iepm.getLsbD e
  outMask : d'.daintmsk.oepm.getLsbD e = d.daintmsk.oepm.getLsbD e
  inFlags : slot d'.diepint e = slot d.diepint e
  outFlags : slot d'.doepint e = slot d.doepint e
  inControl : slot d'.diepctl e = slot d.diepctl e
  outControl : slot d'.doepctl e = slot d.doepctl e
  queue : slot d'.txq e = slot d.txq e

/-- R163: what DEACTIVATE_ALL leaves, for every setting of the parameters, and that nothing else changes. -/
structure Dev.AllDeactivated (d d' : Dev .hardware) : Prop where
  /-- The flushes are requested (or done, with FLUSH_SYNC), the pad slot's fault is set where the policy says so; nothing
  outside these fields, the masks, the endpoint registers and the TX queues changes. -/
  fields : d' = { d with
    daintmsk := d'.daintmsk
    diepctl  := d'.diepctl
    diepint  := d'.diepint
    doepctl  := d'.doepctl
    doepint  := d'.doepint
    grstctl  :=
      { rxfflsh := !d.cfg.flushSync
        txfflsh := !d.cfg.flushSync
        txfnum  := BitVec.ofNat 5 (if d.cfg.padFaults then N - 1 else d.cfg.deactAllLast) }
    rxq      := if d.cfg.flushSync then [] else d.rxq
    txq      := d'.txq
    fault    := if d.cfg.padFaults then (d.raise .padAccess).fault else d.fault }
  visited : ∀ e, e < N → e ≤ d.cfg.deactAllLast → d.EndpointDeactivated d' e
  others : ∀ e, e < N → d.cfg.deactAllLast < e → d.EndpointUntouched d' e
  /-- Without FLUSH_SYNC no queue changes. -/
  queues : d.cfg.flushSync = false → d'.txq = d.txq
  /-- Where every endpoint is visited, no interrupt-enable bit and no stale content in the aggregate register is left. -/
  aggregate : N ≤ d.cfg.deactAllLast + 1 → d'.daintmsk = { iepm := 0#6, oepm := 0#6 } ∧ d'.daint = 0#32

/-! ## The invariant -/

/-- R125, R127: the words that may leave on the event port. -/
def eventWordLegal (w : Word) : Bool :=
  let code := w.extractLsb' 28 4
  let ep := w.extractLsb' 24 4
  let bcnt := w.extractLsb' 0 11
  w.extractLsb' 11 13 == 0#13 &&
  (((code == 1#4 || code == 6#4) && ep == 0#4 && bcnt == 0#11) || code == 2#4 ||
    ((code == 4#4 || code == 5#4) && bcnt == 0#11))

/-- What holds of the device in every state a run reaches, and is kept by every step from any state. -/
structure Dev.Inv (d : Dev .hardware) : Prop where
  /-- The buffer memory is in canonical form. -/
  memory : Memory.wf d.mem = true
  /-- R60, R283: the bits of FAULT without a cause read 0. -/
  fault : d.fault &&& ~~~faultAll = 0#32
  /-- R24, R54: no derived bit of GINTSTS is stored. -/
  gintsts : d.gintsts &&& gintstsDerived = 0#32
  /-- R45: the active bit of the control OUT endpoint. -/
  control : (slot d.doepctl 0).usbaep = true
  /-- R42, R46: the named causes `xfrc` and `epdisd` are among the defined ones. -/
  named : d.cfg.inIntAll &&& 3#32 = 3#32 ∧ d.cfg.outIntAll &&& 3#32 = 3#32
  /-- R42: no reserved bit of DIEPINT[e] is stored. -/
  inFlags : ∀ e, e < N → slot d.diepint e &&& ~~~d.cfg.inIntAll = 0#32
  /-- R46: no reserved bit of DOEPINT[e] is stored. -/
  outFlags : ∀ e, e < N → slot d.doepint e &&& ~~~d.cfg.outIntAll = 0#32
  /-- R127: only event words are logged. -/
  events : ∀ w ∈ d.evlog, eventWordLegal w = true
  /-- R61: the pending event is the last one logged. -/
  pending : ∀ w, d.evPending = some w → d.evlog.getLast? = some w

/-- R126: the access steps only POLL and its handlers perform. -/
def AccessStep.pollOnly : AccessStep .hardware → Bool
  | .snapshot => true
  | .popStatus => true
  | .scan _ => true
  | .testXfrc _ _ => true
  | .emit _ => true
  | .rmw _ _ => false
  | .write _ _ => false
  | .clear _ _ => false
  | .layoutRx => false
  | .layoutStart _ _ => false
  | .layoutDepth _ _ => false
  | .deactFlags _ ev => ev.isSome
  | .deactTest _ _ => false
  | .flushRx => false
  | .flushTx _ => false
  | .popData _ _ _ => false
  | .store _ _ => false
  | .checkSize _ _ _ => false
  | .load _ _ _ _ _ => false
  | .push _ _ _ _ _ => false

/-- The access steps of a command other than POLL emit nothing (R126: only POLL and its handlers emit events). -/
def emitsNothing (todo : List (AccessStep .hardware)) : Bool := todo.all fun t => !t.pollOnly

/-- R66, R126, R292: only POLL waits for an acknowledgement, only a command other than POLL is nested, one deep, and a
command in progress has an access step left. -/
def Seq.wf : Seq .hardware → Bool
  | .idle => true
  | .run cmd todo => !todo.isEmpty && (cmd == .poll || emitsNothing todo)
  | .waitAck cmd _ => cmd == .poll
  | .nested outer _ cmd todo => outer == .poll && cmd != .poll && !todo.isEmpty && emitsNothing todo

/-- R66: POLL waits for an acknowledgement, with or without a nested command in progress. -/
def Seq.waits : Seq .hardware → Bool
  | .idle => false
  | .run _ _ => false
  | .waitAck _ _ => true
  | .nested _ _ _ _ => true

/-- The invariant of the machine. -/
structure State.At.Inv (s : State) : Prop where
  dev : s.dev.Inv
  seq : s.seq.wf = true
  /-- R61, R126: an event is pending exactly while POLL waits. -/
  ack : s.dev.evPending.isSome = s.seq.waits

/-! ## Frames -/

/-- R266: what LINK never writes, whatever the move. -/
def Dev.SameForLink (d d' : Dev .hardware) : Prop :=
  d'.daintmsk = d.daintmsk ∧ d'.gintmsk = d.gintmsk ∧ d'.diepmsk = d.diepmsk ∧ d'.doepmsk = d.doepmsk ∧
  d'.gint = d.gint ∧ d'.grstctl = d.grstctl ∧ d'.dcfg = d.dcfg ∧ d'.dctl = d.dctl ∧ d'.rxfd = d.rxfd ∧
  d'.txf = d.txf ∧ d'.fault = d.fault ∧ d'.evlog = d.evlog ∧ d'.evPending = d.evPending ∧ d'.mem = d.mem ∧
  d'.cfg = d.cfg

/-- R266: the fields of an IN control register LINK never writes; it never sets `epdis`. -/
def Diepctl.SameForLink (c c' : Diepctl .hardware) : Prop :=
  c'.mpsiz = c.mpsiz ∧ c'.eptyp = c.eptyp ∧ c'.txfnum = c.txfnum ∧ c'.usbaep = c.usbaep ∧ c'.stall = c.stall ∧
  (c'.epdis = true → c.epdis = true)

/-- R266: the fields of an OUT control register LINK never writes; it never sets `epdis`. -/
def Doepctl.SameForLink (c c' : Doepctl .hardware) : Prop :=
  c'.mpsiz = c.mpsiz ∧ c'.eptyp = c.eptyp ∧ c'.usbaep = c.usbaep ∧ c'.stall = c.stall ∧
  (c'.epdis = true → c.epdis = true)

/-! ## The protocol profile and fairness -/

/-- R268, the part of the profile one state decides: (a) without its history clause, (b) and (c) without their
`followed eventually` clauses, (e) and (f). A claim that takes it says so; no step of the model enforces it. -/
def LinkMove.inProfile (m : LinkMove) (d : Dev .hardware) : Bool :=
  match m with
  | .busReset => d.pullup
  | .enumDone => d.pullup
  | .rxPush epnum bcnt dpid pktsts _ =>
    !d.grstctl.rxfflsh &&
    (if pktsts == pktSetupReceived then epnum == 0 && bcnt == 8 && dpid == 0#2
     else if pktsts == pktOutReceived then
       (slot d.doepctl epnum).epena && !(slot d.doepctl epnum).naksts &&
       ((slot d.doepctl epnum).mpsiz == 0#11 || decide (bcnt ≤ (slot d.doepctl epnum).mpsiz.toNat))
     else true)
  | .txSend e => !(d.grstctl.txfflsh && d.grstctl.txfnum.toNat == e)
  | .disableDone _ _ => true
  | .outXfrc _ => true
  | .epFlag _ _ b => b != F.xfrc.lo && b != F.epdisd.lo
  | .otherGint _ => true

/-- R265: the moves that weak fairness obliges, where they are enabled. A schedule is fair when none of them stays
enabled for ever without being taken; the model runs every schedule, fair or not (log entry 12). -/
def State.At.obliged (s : State) (i : Input .hardware) : Bool :=
  match i with
  | .flush m => m.enabled s.dev
  | .link (.disableDone dir e) => s.dev.disableDoneEnabled dir e
  | .link _ => false
  | .host .ack => s.dev.evPending.isSome
  | .host (.command ws) => s.dev.irq && s.seq == .idle && ws == encode .poll
  | .host (.store _ _) => false
  | .harness _ => false
  | .core _ => false
  | .reset => false

end Sys2Proof.Machine
end

