-- ==== Sys2Proof/Certificates/Slice0/Obligations.lean ====
section
/-! DEFINITION. The statements for the provers. Each docstring names the rules of spec/ the statement rests on; what is
the model's own choice is named with its log entry (notes/assumptions). -/

open Sys2Proof Sys2Proof.Machine

/-! ## Encoding (spec/30_encoding.md) -/

/-- R111 to R115, R131: decoding the words of a well-formed command gives it back, with every operand at every value
its field admits, and leaves what follows on the port. -/
def Obligations.DecodeInvertsEncode : Prop :=
  ∀ (i : Instr) (rest : List Word), i.wf = true → decode (encode i ++ rest) = .command i rest

/-- R115, R116, R131: a command is read from its own words alone; no other words decode to it. -/
def Obligations.EncodeInvertsDecode : Prop :=
  ∀ (ws : List Word) (i : Instr) (rest : List Word),
    decode ws = .command i rest → i.wf = true ∧ ws = encode i ++ rest

/-- R114: one word, or two for the opcodes 0x20 and 0x21, told from the opcode alone, whatever the decoding says. -/
def Obligations.CommandLengthFromOpcode : Prop :=
  ∀ (cw ba : Word) (rest : List Word),
    wordsLeft (cw :: ba :: rest) (decode (cw :: ba :: rest)) =
        (if opcodeOf cw = 0x20 ∨ opcodeOf cw = 0x21 then rest else ba :: rest) ∧
    (decode [cw] = .incomplete ↔ opcodeOf cw = 0x20 ∨ opcodeOf cw = 0x21)

/-- R117: a reserved opcode takes one word, performs no access step and sets `reserved_cmd`; the decoder is total. -/
def Obligations.ReservedOpcodeSetsReservedCmd : Prop :=
  (∀ (s : State) (cw : Word) (rest : List Word), s.seq.accepting = true → s.port = cw :: rest →
    opcodeOf cw ∉ [0x01, 0x02, 0x10, 0x11, 0x12, 0x13, 0x14, 0x15, 0x20, 0x21, 0x30, 0x40, 0x41, 0x42, 0x43] →
    step s = .next { s with port := rest, dev := { s.dev with fault := s.dev.fault ||| 0x40#32 } }) ∧
  ∀ (cw ba : Word),
    (∃ i rest, decode [cw, ba] = .command i rest) ∨ ∃ why rest, decode [cw, ba] = .reserved why rest

/-- R116: a must-be-zero bit that is 1 makes the word reserved; for a two-word opcode both words are consumed. -/
def Obligations.MustBeZeroBitSetsReservedCmd : Prop :=
  ∀ (s : State) (r : OpcodeRow) (cw : Word), s.seq.accepting = true → r ∈ opcodeMap → opcodeOf cw = r.opcode →
    cw &&& r.mask ≠ r.pattern →
    (∀ rest, r.twoWords = false → s.port = cw :: rest →
      step s = .next { s with port := rest, dev := { s.dev with fault := s.dev.fault ||| 0x40#32 } }) ∧
    (∀ ba rest, r.twoWords = true → s.port = cw :: ba :: rest →
      step s = .next { s with port := rest, dev := { s.dev with fault := s.dev.fault ||| 0x40#32 } })

/-- R115, R120: words of the spec's own examples decode to the commands they stand for. -/
def Obligations.ExampleWordsDecode : Prop :=
  decodeTableWord 32 0x01000040 = some (.setRxFifoSize 64) ∧
  decodeTableWord 32 0x11180040 = some (.activateInEp 1 .bulk 64) ∧
  decodeTableWord 64 0x2000010021100005 = some (.writePacket 1 5 0x20000100#32) ∧
  decodeTableWord 32 0x30000000 = some .poll ∧
  decodeTableWord 32 0x41000005 = some (.setAddress 5) ∧
  decodeTableWord 32 0x41000080 = none ∧
  decodeTableWord 32 0 = none

/-! ## The step (spec/30_encoding.md R110, spec/45_link_environment.md) -/

/-- R110, R131: where CORE accepts a command and the words on the port decode to one, the step is that command's
meaning on the state with its words taken off the port. -/
def Obligations.StepRunsDecodedCommand : Prop :=
  ∀ (s : State) (i : Instr) (rest : List Word), s.seq.accepting = true → decode s.port = .command i rest →
    step s = exec i { s with port := rest }

/-- R302: no step stops with a fault or a refusal. -/
def Obligations.StepAlwaysAnswersNext : Prop := ∀ s : State, ∃ t, step s = .next t

/-- R110, U13: a command offered while another one runs is not accepted, whichever it is. -/
def Obligations.BusyPortAcceptsNothing : Prop :=
  ∀ (i : Instr) (s : State), s.seq.accepting = false → exec i s = .refused .portBusy

/-- R265, R66: every command performs a bounded number of access steps: whatever the other agents do meanwhile, it
comes back to where CORE accepts a command. The script's `pause`, where a step of the model ends in mid-command, and
the hardware reset are left out. -/
def Obligations.CommandsComeToAnEnd : Prop :=
  (∀ (i : Instr) (s : State), s.seq.accepting = true → (∀ x ∈ s.inputs, x.goesOn = true) →
    ∃ t, exec i s = .next t ∧ t.seq.accepting = true) ∧
  (∀ s : State, s.seq.accepting = false → (∀ x ∈ s.inputs, x.goesOn = true) →
    ∃ t, step s = .next t ∧ t.seq.accepting = true)

/-! ## Reset and the invariant (spec/10_state.md R68, spec/70_reset_and_hazards.md R320) -/

/-- R68, R320: the hardware reset, whatever the state: the values of the table of R68, nothing in progress, nothing
pending, the line low. The FIFO regions take `RESET_FIFO`. That the words on the command port are dropped is log entry
8; the count of draws, the script and HOST's memory are not the block's. -/
def Obligations.HardwareResetValues : Prop :=
  ∀ s : State, let t := applyInput .reset s
    t.dev.gint = false ∧ t.dev.gintmsk = 0#32 ∧ t.dev.diepmsk = 0#32 ∧ t.dev.doepmsk = 0#32 ∧
    t.dev.regRead .daintmsk = 0#32 ∧ t.dev.gintsts = 0#32 ∧ t.dev.regRead .grstctl = 0#32 ∧
    t.dev.rxfd = s.dev.cfg.resetFifo.rxfd ∧ t.dev.txf = s.dev.cfg.resetFifo.tx ∧
    F.dad.get t.dev.dcfg = 0 ∧ F.sdis.bit t.dev.dctl = true ∧
    (∀ e, e < N → t.dev.regRead (.diepctl e) = 0#32 ∧ t.dev.regRead (.diepint e) = 0#32 ∧
      t.dev.regRead (.dieptsiz e) = 0#32 ∧ t.dev.regRead (.doepint e) = 0#32 ∧
      t.dev.regRead (.doepctl e) = (if e = 0 then 0x8000#32 else 0#32)) ∧
    t.dev.rxq = [] ∧ (∀ e, e < N → slot t.dev.txq e = []) ∧
    t.dev.fault = 0#32 ∧ t.dev.evPending = none ∧ t.dev.evlog = [] ∧ t.dev.wireTx = [] ∧ t.seq = .idle ∧
    t.dev.irq = false ∧ t.dev.pullup = false

/-- R320: a hardware reset in mid-command abandons the command: the next move of the script is the reset, and the step
goes on from the reset state. That state also has what the model chose: the words on the port are dropped (log entry
8), the bits of DCFG and DCTL outside CORE are 0 (log entry 9), HOST's memory is kept (log entry 3) and the count of
draws too (log entry 6). -/
def Obligations.ResetAbandonsTheCommand : Prop :=
  ∀ (s : State) (rest : List (Input .hardware)), s.seq.accepting = false → s.inputs = .reset :: rest →
    ∃ t, step s = .next t ∧ t.seq = .idle ∧ t.dev = Dev.afterReset s.dev.cfg s.dev.mem s.dev.draws ∧ t.port = [] ∧
      t.inputs = rest

/-- The state after reset meets the invariant, and with RESET_FIFO = 0 (log entry 4) that of the layout. -/
def Obligations.ResetMeetsTheInvariant : Prop := State.reset.Inv ∧ State.reset.LayoutInv

/-- R24, R42, R45, R46, R60, R61, R66, R126: the invariant is kept by every step from every state that meets it,
whatever the other agents, the harness and the reset do. -/
def Obligations.StepKeepsTheInvariant : Prop := ∀ s t : State, s.Inv → step s = .next t → t.Inv

/-! ## Faults and events (spec/60_exceptions.md, spec/30_encoding.md R125 to R127) -/

/-- R282, R284: a failing `pre:` line sets its fault and does nothing else; of two failing lines the first decides. -/
def Obligations.FailingPreconditionOnlySetsFault : Prop :=
  ∀ (s : State), s.seq.accepting = true →
    let faulted := fun (b : Word) => { s with dev := { s.dev with fault := s.dev.fault ||| b } }
    (∀ ep size, N ≤ ep → exec (.setTxFifoSize ep size) s = .next (faulted 0x1#32)) ∧
    (∀ mps, mps = 0 ∨ 2047 < mps → exec (.activateControlEp mps) s = .next (faulted 0x2#32)) ∧
    (∀ ep t mps, ep = 0 ∨ N ≤ ep → exec (.activateInEp ep t mps) s = .next (faulted 0x1#32)) ∧
    (∀ ep t mps, 1 ≤ ep → ep < N → mps = 0 ∨ 2047 < mps →
      exec (.activateInEp ep t mps) s = .next (faulted 0x2#32)) ∧
    (∀ ep, N ≤ ep → exec (.deactivateEp ep) s = .next (faulted 0x1#32)) ∧
    (∀ ep, N ≤ ep → exec (.flushTx ep) s = .next (faulted 0x1#32)) ∧
    (∀ ep size ba, N ≤ ep → exec (.writePacket ep size ba) s = .next (faulted 0x1#32))

/-- R126, R292: a POLL nested in a waiting POLL performs no access step and sets `reentrant_poll`. -/
def Obligations.NestedPollIsTurnedDown : Prop :=
  ∀ (s : State) (outer : Instr) (todo : List (AccessStep .hardware)), s.seq = .waitAck outer todo →
    exec .poll s = .next { s with dev := { s.dev with fault := s.dev.fault ||| 0x80#32 } }

/-- R60: a bit of FAULT that is set stays set until the hardware reset, whatever happens. -/
def Obligations.FaultBitsAreSticky : Prop :=
  ∀ s t : State, .reset ∉ s.inputs → step s = .next t → s.dev.fault &&& t.dev.fault = s.dev.fault

/-- R61: EVLOG is append-only until the hardware reset. -/
def Obligations.EventLogIsAppendOnly : Prop :=
  ∀ s t : State, .reset ∉ s.inputs → step s = .next t → s.dev.evlog <+: t.dev.evlog

/-- R126: no command but POLL emits an event or takes one away, whatever the other agents do meanwhile. -/
def Obligations.OnlyPollEmits : Prop :=
  ∀ (i : Instr) (s t : State), i ≠ .poll → .reset ∉ s.inputs → exec i s = .next t →
    t.dev.evlog = s.dev.evlog ∧ t.dev.evPending = s.dev.evPending

/-- R126: the acknowledgement takes the pending event away and lets the emitting POLL resume where it waits. -/
def Obligations.AcknowledgementResumes : Prop :=
  ∀ (s : State) (cmd : Instr) (todo : List (AccessStep .hardware)) (rest : List (Input .hardware)),
    s.seq = .waitAck cmd todo → decode s.port = .incomplete → s.inputs = .host .ack :: rest →
    ∃ t, step s = .next t ∧ t.dev = { s.dev with evPending := none } ∧ t.port = s.port ∧ t.inputs = rest ∧
      (todo = [] → t.seq = .idle) ∧ (todo ≠ [] → t.seq = .run cmd todo)

/-- R25, R26, R36, R37, R291: no command but INIT_CORE writes GAHBCFG, GINTMSK, DIEPMSK or DOEPMSK, whatever LINK, the
flush controller and HOST do meanwhile; only the harness and the hardware reset could. -/
def Obligations.OnlyInitCoreWritesTheMasks : Prop :=
  ∀ (i : Instr) (s t : State), i ≠ .initCore → (∀ x ∈ s.inputs, x.fromAgents = true) → exec i s = .next t →
    t.dev.gint = s.dev.gint ∧ t.dev.gintmsk = s.dev.gintmsk ∧ t.dev.diepmsk = s.dev.diepmsk ∧
    t.dev.doepmsk = s.dev.doepmsk

/-! ## Registers, flags and outputs (spec/10_state.md, spec/20_memory.md) -/

/-- R54: the derived status bits, recomputed at every read. -/
def Obligations.DerivedStatusBits : Prop :=
  ∀ (d : Dev .hardware),
    (∀ e, e < N →
      ((d.regRead .daint).getLsbD e = true ↔ d.regRead (.diepint e) &&& d.diepmsk ≠ 0#32) ∧
      ((d.regRead .daint).getLsbD (16 + e) = true ↔ d.regRead (.doepint e) &&& d.doepmsk ≠ 0#32)) ∧
    ((d.regRead .gintsts).getLsbD 18 = true ↔
      ∃ e, e < N ∧ (d.regRead .daint).getLsbD e = true ∧ (d.regRead .daintmsk).getLsbD e = true) ∧
    ((d.regRead .gintsts).getLsbD 19 = true ↔
      ∃ e, e < N ∧ (d.regRead .daint).getLsbD (16 + e) = true ∧ (d.regRead .daintmsk).getLsbD (16 + e) = true) ∧
    ((d.regRead .gintsts).getLsbD 4 = true ↔ d.rxq ≠ [])

/-- R62, R286: the interrupt request line is high iff enabled and some unmasked bit of GINTSTS is 1. -/
def Obligations.InterruptLineIsALevel : Prop :=
  ∀ d : Dev .hardware, d.irq = true ↔
    d.gint = true ∧ ∃ b, b < 32 ∧ (d.regRead .gintsts).getLsbD b = true ∧ d.gintmsk.getLsbD b = true

/-- R22: in a read-modify-write a field that is not listed is unchanged: writing back what was read changes no register
that is not write-one-to-clear, of any slot. -/
def Obligations.WriteBackChangesNoRegister : Prop :=
  ∀ (d : Dev .hardware) (r : Reg), r ≠ .gintsts → (∀ e, r ≠ .diepint e) → (∀ e, r ≠ .doepint e) →
    ∀ r' : Reg, (d.regRMW r []).regRead r' = d.regRead r'

/-- R91: `IntClear` clears the stored flags named in the mask and changes nothing else of the whole device; derived bits
ignore it. -/
def Obligations.IntClearClearsTheNamedFlags : Prop :=
  ∀ (d : Dev .hardware) (m : RegWord),
    d.intClear .gintsts m = { d with gintsts := d.gintsts &&& ~~~m } ∧
    (∀ b, b = 4 ∨ b = 18 ∨ b = 19 →
      ((d.intClear .gintsts m).regRead .gintsts).getLsbD b = (d.regRead .gintsts).getLsbD b) ∧
    (∀ b, b < 32 → b ≠ 4 → b ≠ 18 → b ≠ 19 →
      ((d.intClear .gintsts m).regRead .gintsts).getLsbD b = ((d.regRead .gintsts).getLsbD b && !m.getLsbD b)) ∧
    ∀ e, e < N →
      d.intClear (.diepint e) m = { d with diepint := setSlot d.diepint e (slot d.diepint e &&& ~~~m) } ∧
      d.intClear (.doepint e) m = { d with doepint := setSlot d.doepint e (slot d.doepint e &&& ~~~m) } ∧
      (d.intClear (.diepint e) m).regRead (.diepint e) = d.regRead (.diepint e) &&& ~~~m ∧
      (d.intClear (.doepint e) m).regRead (.doepint e) = d.regRead (.doepint e) &&& ~~~m

/-- R92: both pops on every head of RXQ. The word a faulting pop returns is a free value and nothing is said of it. -/
def Obligations.PopsFollowTheTag : Prop :=
  ∀ (d : Dev .hardware) (w : RegWord) (rest : List (RxWord .hardware)),
    (d.rxq = .status w :: rest →
      d.statusPop = { dev := { d with rxq := rest }, word := w, ok := true } ∧
      d.portPop.ok = false ∧
      d.portPop.dev = { d with rxq := rest, fault := d.fault ||| 0x10#32, draws := d.portPop.dev.draws }) ∧
    (d.rxq = .data w :: rest →
      d.portPop = { dev := { d with rxq := rest }, word := w, ok := true } ∧
      d.statusPop.ok = false ∧
      d.statusPop.dev = { d with rxq := rest, fault := d.fault ||| 0x10#32, draws := d.statusPop.dev.draws }) ∧
    (d.rxq = [] →
      d.statusPop.ok = false ∧ d.portPop.ok = false ∧
      d.statusPop.dev = { d with fault := d.fault ||| 0x8#32, draws := d.statusPop.dev.draws } ∧
      d.portPop.dev = { d with fault := d.fault ||| 0x8#32, draws := d.portPop.dev.draws })

/-- R83, R94: a byte stored is read back, every other byte of the address space is as before, and the memory keeps its
canonical form. -/
def Obligations.MemoryReadAfterWrite : Prop :=
  ∀ (d : Dev .hardware) (a : Word) (b : Byte), Memory.wf d.mem = true →
    Memory.wf (d.memWrite a b).mem = true ∧ (d.memWrite a b).memRead a = b ∧
    ∀ x, x ≠ a → (d.memWrite a b).memRead x = d.memRead x

/-! ## FIFO Allocator (spec/40_fifo_allocator.md) -/

/-- R140, R142: SET_RX_FIFO_SIZE, its result and its frame, for every setting of the parameters and with those of R7.
What the FIFOs hold afterwards is R144, R147 and R326: with LayoutFits false, by the total, by a wrap of the cursor or by
a truncated depth, all contents are unspecified from then on; that the FIFOs keep their word counts is log entry 7. -/
def Obligations.SetRxFifoSizeResult : Prop :=
  ∀ (size : Nat) (s : State), s.Undisturbed → size < 65536 →
    ∃ d', exec (.setRxFifoSize size) s = .next { s with dev := d' } ∧
      d'.rxfd = BitVec.ofNat 16 (s.dev.cfg.rxOverheadWords + s.dev.cfg.rxWordsPerChunk * ((size + 3) / 4)) ∧
      (s.dev.cfg.TakesR7 → d'.rxfd.toNat = 10 + 2 * ((size + 3) / 4)) ∧
      (∀ e, e < N → d'.txDepth e = s.dev.txDepth e) ∧ d'.LayoutLaw ∧
      s.dev.SameOutsideRegions d' ∧
      s.dev.FifosKept d' (s.dev.cfg.rxOverheadWords + s.dev.cfg.rxWordsPerChunk * ((size + 3) / 4)) ∧
      ∀ a, d'.memRead a = s.dev.memRead a

/-- R141, R142: SET_TX_FIFO_SIZE, its result and its frame; see SetRxFifoSizeResult. -/
def Obligations.SetTxFifoSizeResult : Prop :=
  ∀ (ep size : Nat) (s : State), s.Undisturbed → ep < N → size < 65536 →
    ∃ d', exec (.setTxFifoSize ep size) s = .next { s with dev := d' } ∧
      (d'.txDepth ep).toNat = (size + 3) / 4 ∧ (∀ e, e < N → e ≠ ep → d'.txDepth e = s.dev.txDepth e) ∧
      d'.rxfd = s.dev.rxfd ∧ d'.LayoutLaw ∧ s.dev.SameOutsideRegions d' ∧ s.dev.FifosKept d' ((size + 3) / 4) ∧
      ∀ a, d'.memRead a = s.dev.memRead a

/-- R142, R143: the layout under interleaving. The four commands that re-lay the buffer out establish the layout law
from every state in which CORE accepts a command, whatever LINK, the flush controller and HOST do between their access
steps: each region starts at the sum of the depths before it modulo 2^16, and where the depths together stay below 2^16
at the sum itself, so that the regions neither overlap nor leave a gap. Every command keeps it, POLL included, which
re-lays the buffer out at enumeration done (R214). Every step of the machine keeps it, in states in which no command in
progress or waiting has a region register left to write. Scripts that stop a step in mid-command, the harness and the
hardware reset are left out. -/
def Obligations.LayoutHoldsUnderInterleaving : Prop :=
  (∀ (i : Instr) (s : State), laysOut i = true → s.seq.accepting = true → s.agentsGoOn = true →
    ∃ t, exec i s = .next t ∧ t.dev.LayoutLaw ∧
      (t.dev.depthSum < 65536 → ∀ e, e < N →
        (t.dev.txStart e).toNat =
          t.dev.rxfd.toNat + ((List.range e).map fun k => (t.dev.txDepth k).toNat).sum)) ∧
  (∀ (i : Instr) (s t : State), s.seq.accepting = true → s.agentsGoOn = true → s.dev.LayoutLaw →
    exec i s = .next t → t.dev.LayoutLaw) ∧
  ∀ s t : State, s.agentsGoOn = true → s.LayoutInv → step s = .next t → t.LayoutInv

/-! ## Endpoint Manager (spec/41_endpoint_manager.md) -/

/-- R160: ACTIVATE_CONTROL_EP, its result and its frame, for every setting of the parameters and with those of R7; done
again it keeps the words of every FIFO while LayoutFits holds, and where it does not their contents are unspecified from
then on (R144, R326). -/
def Obligations.ActivateControlResult : Prop :=
  ∀ (mps : Nat) (s : State), s.Undisturbed → 1 ≤ mps → mps ≤ 2047 →
    ∃ d', exec (.activateControlEp mps) s = .next { s with dev := d' } ∧ s.dev.ControlActivated mps d' ∧
      ∀ a, d'.memRead a = s.dev.memRead a

/-- R161: ACTIVATE_IN_EP, its result and its frame. -/
def Obligations.ActivateInResult : Prop :=
  ∀ (ep mps : Nat) (t : EpType) (s : State), s.Undisturbed → 1 ≤ ep → ep < N → 1 ≤ mps → mps ≤ 2047 →
    ∃ d', exec (.activateInEp ep t mps) s = .next { s with dev := d' } ∧
      ({ s.dev with
        daintmsk := { s.dev.daintmsk with iepm := s.dev.daintmsk.iepm ||| (1#6 <<< ep) }
        diepctl  := setSlot s.dev.diepctl ep
          { slot s.dev.diepctl ep with
            mpsiz := BitVec.ofNat 11 mps, usbaep := true, naksts := true, eptyp := t, txfnum := BitVec.ofNat 4 ep,
            dpid := false } } : Dev .hardware).SameOutsideRegions d' ∧
      d'.rxfd = s.dev.rxfd ∧ (d'.txDepth ep).toNat = (mps + 3) / 4 ∧
      (∀ e, e < N → e ≠ ep → d'.txDepth e = s.dev.txDepth e) ∧ d'.LayoutLaw ∧ s.dev.FifosKept d' ((mps + 3) / 4) ∧
      ∀ a, d'.memRead a = s.dev.memRead a

/-- R162: DEACTIVATE_EP, its result and its frame, for every `FLUSH_SYNC`; the OUT side of endpoint 0 is left as it
was, and the two aggregate bits of the endpoint are 0. -/
def Obligations.DeactivateEpResult : Prop :=
  ∀ (n : Nat) (s : State), s.Undisturbed → n < N →
    ∃ d', exec (.deactivateEp n) s = .next { s with dev := d' } ∧
      d' = { s.dev with
        daintmsk :=
          { iepm := s.dev.daintmsk.iepm &&& ~~~(1#6 <<< n), oepm := s.dev.daintmsk.oepm &&& ~~~(1#6 <<< n) }
        diepint  := setSlot s.dev.diepint n (slot s.dev.diepint n &&& ~~~s.dev.cfg.inIntAll)
        doepint  := setSlot s.dev.doepint n (slot s.dev.doepint n &&& ~~~s.dev.cfg.outIntAll)
        diepctl  := setSlot s.dev.diepctl n (slot s.dev.diepctl n).deactivated
        doepctl  := setSlot s.dev.doepctl n ((slot s.dev.doepctl n).deactivated n)
        grstctl  :=
          { rxfflsh := !s.dev.cfg.flushSync, txfflsh := !s.dev.cfg.flushSync, txfnum := BitVec.ofNat 5 n }
        rxq      := if s.dev.cfg.flushSync then [] else s.dev.rxq
        txq      := if s.dev.cfg.flushSync then setSlot s.dev.txq n [] else s.dev.txq } ∧
      d'.inPending n = false ∧ d'.outPending n = false ∧ ∀ a, d'.memRead a = s.dev.memRead a

/-- R163, R52: DEACTIVATE_ALL, its result and its frame, for every `DEACT_ALL_LAST`, `OOR_POLICY` and `FLUSH_SYNC`. -/
def Obligations.DeactivateAllResult : Prop :=
  ∀ (s : State), s.Undisturbed →
    ∃ d', exec .deactivateAll s = .next { s with dev := d' } ∧ s.dev.AllDeactivated d' ∧
      ∀ a, d'.memRead a = s.dev.memRead a

/-- R164, R165, R175: the flush commands set their request in one access step; with FLUSH_SYNC they complete in it. -/
def Obligations.FlushRequestsResult : Prop :=
  ∀ (s : State), s.Undisturbed →
    (s.dev.cfg.flushSync = false →
      exec .flushRx s = .next { s with dev := { s.dev with grstctl := { s.dev.grstctl with rxfflsh := true } } } ∧
      ∀ n, n < N → exec (.flushTx n) s = .next { s with dev := { s.dev with
        grstctl := { s.dev.grstctl with txfflsh := true, txfnum := BitVec.ofNat 5 n } } }) ∧
    (s.dev.cfg.flushSync = true →
      exec .flushRx s = .next { s with dev := { s.dev with
        rxq := [], grstctl := { s.dev.grstctl with rxfflsh := false } } } ∧
      ∀ n, n < N → exec (.flushTx n) s = .next { s with dev := { s.dev with
        txq := setSlot s.dev.txq n [],
        grstctl := { s.dev.grstctl with txfflsh := false, txfnum := BitVec.ofNat 5 n } } })

/-- R173, R174: a completion step of the flush controller empties the FIFO that is named when it runs, or RXQ, and
drops the request; it changes nothing else, and nothing at all where no request is pending. -/
def Obligations.FlushCompletionEmptiesTheFifo : Prop :=
  ∀ (d : Dev .hardware),
    (d.grstctl.txfflsh = true →
      ∃ d', FlushMove.apply .txDone d = d' ∧
        d' = { d with txq := d'.txq, grstctl := { d.grstctl with txfflsh := false } } ∧
        ∀ e, e < N → slot d'.txq e = if e = d.grstctl.txfnum.toNat then [] else slot d.txq e) ∧
    (d.grstctl.rxfflsh = true →
      FlushMove.apply .rxDone d = { d with rxq := [], grstctl := { d.grstctl with rxfflsh := false } } ∧
      (FlushMove.apply .rxDone d).rxflvl = false) ∧
    (d.grstctl.txfflsh = false → FlushMove.apply .txDone d = d) ∧
    (d.grstctl.rxfflsh = false → FlushMove.apply .rxDone d = d)

/-- R167: no command changes the transfer type of endpoint 0, in either direction, whatever LINK, the flush controller
and HOST do meanwhile. -/
def Obligations.EndpointZeroStaysControl : Prop :=
  ∀ (i : Instr) (s t : State), (∀ x ∈ s.inputs, x.fromAgents = true) → exec i s = .next t →
    (slot s.dev.diepctl 0).eptyp = .control → (slot s.dev.doepctl 0).eptyp = .control →
    (slot t.dev.diepctl 0).eptyp = .control ∧ (slot t.dev.doepctl 0).eptyp = .control

/-! ## Packet Transfer Engine (spec/42_packet_transfer.md) -/

/-- R190, R191: READ_PACKET where RXQ holds the words: each byte goes to its place and no other byte of the address
space changes; the words are gone from RXQ and nothing else changes. -/
def Obligations.ReadPacketDelivers : Prop :=
  ∀ (size : Nat) (ba : Word) (ws : List RegWord) (rest : List (RxWord .hardware)) (s : State), s.Undisturbed →
    Memory.wf s.dev.mem = true → size < 65536 → ws.length = (size + 3) / 4 → s.dev.rxq = ws.map .data ++ rest →
    ∃ d', exec (.readPacket size ba) s = .next { s with dev := d' } ∧
      d' = { s.dev with rxq := rest, mem := d'.mem } ∧ Memory.wf d'.mem = true ∧
      (∀ k, k < size → d'.memRead (ba + BitVec.ofNat 32 k) = lane (ws[k / 4]?.getD 0#32) (k % 4)) ∧
      ∀ a, (∀ k, k < size → a ≠ ba + BitVec.ofNat 32 k) → d'.memRead a = s.dev.memRead a

/-- R190, R285, U8: READ_PACKET where RXQ runs out, or meets a status entry, after `ws`: the bytes of the words before
it are delivered, the pop sets its fault, and the command ends there. -/
def Obligations.ReadPacketEndsAtAFaultingPop : Prop :=
  ∀ (size : Nat) (ba : Word) (ws : List RegWord) (tail : List (RxWord .hardware)) (s : State), s.Undisturbed →
    Memory.wf s.dev.mem = true → size < 65536 → 4 * ws.length < size → s.dev.rxq = ws.map .data ++ tail →
    (tail = [] ∨ ∃ w rest, tail = .status w :: rest) →
    ∃ d', exec (.readPacket size ba) s = .next { s with dev := d' } ∧
      d' = { s.dev with
        rxq := tail.tail, mem := d'.mem, draws := d'.draws,
        fault := s.dev.fault ||| (if tail = [] then 0x8#32 else 0x10#32) } ∧
      (∀ k, k < 4 * ws.length → d'.memRead (ba + BitVec.ofNat 32 k) = lane (ws[k / 4]?.getD 0#32) (k % 4)) ∧
      ∀ a, (∀ k, k < 4 * ws.length → a ≠ ba + BitVec.ofNat 32 k) → d'.memRead a = s.dev.memRead a

/-- R192, R193: WRITE_PACKET where it fits, an empty packet included: the transfer size and the control register are
programmed and the words of the packet queued, each source byte in its lane; the lanes above the last byte are free
values. Where LayoutFits has been false since reset (R144), the words' contents are unspecified and only their number
is said. -/
def Obligations.WritePacketQueues : Prop :=
  ∀ (ep size : Nat) (ba : Word) (s : State), s.Undisturbed → ep < N → size ≤ (slot s.dev.diepctl ep).mpsiz.toNat →
    (size = 0 ∨ (slot s.dev.txq ep).length + (size + 3) / 4 ≤ (s.dev.txDepth ep).toNat) →
    ∃ d' ws, exec (.writePacket ep size ba) s = .next { s with dev := d' } ∧
      d' = { s.dev with
        dieptsiz := setSlot s.dev.dieptsiz ep { xfrsiz := BitVec.ofNat 19 size, pktcnt := 1#10 },
        diepctl := setSlot s.dev.diepctl ep
          { slot s.dev.diepctl ep with stall := false, naksts := false, epena := true },
        txq := setSlot s.dev.txq ep (slot s.dev.txq ep ++ ws), draws := d'.draws } ∧
      ws.length = (size + 3) / 4 ∧
      (s.dev.overlap = false → ∀ k, k < size →
        lane (ws[k / 4]?.getD 0#32) (k % 4) = s.dev.memRead (ba + BitVec.ofNat 32 k)) ∧
      ∀ a, d'.memRead a = s.dev.memRead a

/-- R192, R195: WRITE_PACKET above the endpoint's maximum packet size programs nothing and pushes nothing. -/
def Obligations.WritePacketRefusesOversize : Prop :=
  ∀ (ep size : Nat) (ba : Word) (s : State), s.Undisturbed → ep < N → (slot s.dev.diepctl ep).mpsiz.toNat < size →
    exec (.writePacket ep size ba) s = .next { s with dev := { s.dev with fault := s.dev.fault ||| 0x4#32 } }

/-- R93, R192, R285, U9: WRITE_PACKET whose words do not all fit TXQ[ep]: as many as fit are queued, the next sets
`tx_overflow` and is dropped, and the registers stay programmed. -/
def Obligations.WritePacketEndsAtAFullFifo : Prop :=
  ∀ (ep size : Nat) (ba : Word) (s : State), s.Undisturbed → ep < N → 0 < size →
    size ≤ (slot s.dev.diepctl ep).mpsiz.toNat →
    (s.dev.txDepth ep).toNat < (slot s.dev.txq ep).length + (size + 3) / 4 →
    ∃ d' ws, exec (.writePacket ep size ba) s = .next { s with dev := d' } ∧
      d' = { s.dev with
        dieptsiz := setSlot s.dev.dieptsiz ep { xfrsiz := BitVec.ofNat 19 size, pktcnt := 1#10 },
        diepctl := setSlot s.dev.diepctl ep
          { slot s.dev.diepctl ep with stall := false, naksts := false, epena := true },
        txq := setSlot s.dev.txq ep (slot s.dev.txq ep ++ ws), draws := d'.draws,
        fault := s.dev.fault ||| 0x20#32 } ∧
      ws.length = (s.dev.txDepth ep).toNat - (slot s.dev.txq ep).length ∧
      (s.dev.overlap = false → ∀ k, k < 4 * ws.length →
        lane (ws[k / 4]?.getD 0#32) (k % 4) = s.dev.memRead (ba + BitVec.ofNat 32 k)) ∧
      ∀ a, d'.memRead a = s.dev.memRead a

/-- R198: the round trip. What WRITE_PACKET queues, looped back into an empty RXQ (R267), READ_PACKET writes to its
destination: exactly the source bytes, whatever the pad lanes hold. -/
def Obligations.WriteThenReadRoundTrip : Prop :=
  ∀ (ep size : Nat) (src dst : Word) (s : State), s.Undisturbed → ep < N → Memory.wf s.dev.mem = true →
    size ≤ (slot s.dev.diepctl ep).mpsiz.toNat → slot s.dev.txq ep = [] → s.dev.rxq = [] →
    (size + 3) / 4 ≤ (s.dev.txDepth ep).toNat → s.dev.overlap = false →
    ∃ t u, exec (.writePacket ep size src) s = .next t ∧
      exec (.readPacket size dst) { t with dev := HarnessMove.apply (.loopback ep) t.dev } = .next u ∧
      (∀ k, k < size → u.dev.memRead (dst + BitVec.ofNat 32 k) = s.dev.memRead (src + BitVec.ofNat 32 k)) ∧
      (∀ a, (∀ k, k < size → a ≠ dst + BitVec.ofNat 32 k) → u.dev.memRead a = s.dev.memRead a) ∧
      u.dev.fault = s.dev.fault ∧ u.dev.rxq = [] ∧ slot u.dev.txq ep = []

/-! ## Interrupt Dispatcher (spec/43_interrupt_dispatcher.md) -/

/-- R211: the classifier answers the first cause whose bit is 1, in the fixed order. -/
def Obligations.ClassifierOrder : Prop :=
  ∀ snap : Word,
    (classify snap = .usbrst ↔ snap.getLsbD 12 = true) ∧
    (classify snap = .enumdne ↔ snap.getLsbD 12 = false ∧ snap.getLsbD 13 = true) ∧
    (classify snap = .rxflvl ↔ snap.getLsbD 12 = false ∧ snap.getLsbD 13 = false ∧ snap.getLsbD 4 = true) ∧
    (classify snap = .iepint ↔
      snap.getLsbD 12 = false ∧ snap.getLsbD 13 = false ∧ snap.getLsbD 4 = false ∧ snap.getLsbD 18 = true) ∧
    (classify snap = .oepint ↔
      snap.getLsbD 12 = false ∧ snap.getLsbD 13 = false ∧ snap.getLsbD 4 = false ∧ snap.getLsbD 18 = false ∧
      snap.getLsbD 19 = true) ∧
    (classify snap = .none ↔
      snap.getLsbD 12 = false ∧ snap.getLsbD 13 = false ∧ snap.getLsbD 4 = false ∧ snap.getLsbD 18 = false ∧
      snap.getLsbD 19 = false)

/-- R210, R221: POLL with no cause pending emits POLLED alone and waits for its acknowledgement. -/
def Obligations.PollWithNoCause : Prop :=
  ∀ s : State, s.seq = .idle → s.inputs = [] → classify (s.dev.regRead .gintsts) = .none →
    exec .poll s = .next { s with
      dev := { s.dev with evPending := some 0x60000000#32, evlog := s.dev.evlog ++ [0x60000000#32] }
      seq := .waitAck .poll [] }

/-- R210, R213: POLL on a bus reset deactivates everything and waits at RESET_RECEIVED, the clear of the flag and
POLLED still to come. Where the pad slot is visited with OOR_POLICY = fault (R52, R296) the handler ends there, before
RESET_RECEIVED (the model's reading, log entry 11); POLL clears the flag all the same and waits at POLLED. -/
def Obligations.PollHandlesBusReset : Prop :=
  ∀ s : State, s.seq = .idle → s.inputs = [] → classify (s.dev.regRead .gintsts) = .usbrst →
    ∃ d', s.dev.AllDeactivated d' ∧
      (s.dev.cfg.padFaults = false → exec .poll s = .next { s with
        dev := { d' with evPending := some 0x10000000#32, evlog := s.dev.evlog ++ [0x10000000#32] }
        seq := .waitAck .poll [.clear .gintsts 0x1000#32, .emit .polled] }) ∧
      (s.dev.cfg.padFaults = true → exec .poll s = .next { s with
        dev := { d' with
          gintsts := s.dev.gintsts &&& ~~~0x1000#32, evPending := some 0x60000000#32,
          evlog := s.dev.evlog ++ [0x60000000#32] }
        seq := .waitAck .poll [] })

/-- R210, R214: POLL on enumeration done activates the control endpoint with the size ENUM_CTRL_MPS, 8 bytes with the
values of R7, clears the flag, emits no event of its own and waits at POLLED. That the FIFOs keep their word counts is
log entry 7. A parameter that the `pre:` line of R160 refuses is a fault in the handler, which ends there (R296, log entry
22). -/
def Obligations.PollHandlesEnumerationDone : Prop :=
  ∀ s : State, s.seq = .idle → s.inputs = [] → classify (s.dev.regRead .gintsts) = .enumdne →
    let mps := s.dev.cfg.enumCtrlMps
    let polled := fun (d : Dev .hardware) => { s with
      dev := { d with
        gintsts := s.dev.gintsts &&& ~~~0x2000#32, evPending := some 0x60000000#32,
        evlog := s.dev.evlog ++ [0x60000000#32] }
      seq := .waitAck .poll [] }
    (1 ≤ mps → mps ≤ 2047 → ∃ d', s.dev.ControlActivated mps d' ∧ exec .poll s = .next (polled d') ∧
      (s.dev.cfg.TakesR7 → mps = 8 ∧ d'.rxfd = 42#16 ∧ d'.txDepth 0 = 2#16 ∧ d'.txStart 0 = 42#16)) ∧
    (mps = 0 ∨ 2047 < mps →
      exec .poll s = .next (polled { s.dev with fault := s.dev.fault ||| 0x2#32 }))

/-- R215 to R218: POLL at the receive level, by the status code of the one entry it pops. The premise `Inv` rules out
states in which a derived bit is stored or the control OUT endpoint is inactive. -/
def Obligations.PollHandlesReceiveLevel : Prop :=
  ∀ (s : State) (w : RegWord) (rest : List (RxWord .hardware)), s.seq = .idle → s.inputs = [] → s.dev.Inv →
    classify (s.dev.regRead .gintsts) = .rxflvl → s.dev.rxq = .status w :: rest →
    let popped : Dev .hardware := { s.dev with rxq := rest }
    let epnum := w.extractLsb' 0 4
    let bcnt := w.extractLsb' 4 11
    let pktsts := w.extractLsb' 17 4
    let polled := fun (d : Dev .hardware) => { s with
      dev := { d with evPending := some 0x60000000#32, evlog := s.dev.evlog ++ [0x60000000#32] }
      seq := .waitAck .poll [] }
    let setup := 2#4 ++ epnum ++ 0#13 ++ bcnt
    (pktsts = 6#4 → exec .poll s = .next { s with
      dev := { popped with evPending := some setup, evlog := s.dev.evlog ++ [setup] }
      seq := .waitAck .poll [.clear .gintsts 0x10#32, .emit .polled] }) ∧
    (pktsts = 3#4 ∨ pktsts = 4#4 → epnum.toNat < N →
      exec .poll s = .next (polled { popped with
        doepctl := setSlot s.dev.doepctl epnum.toNat
          { slot s.dev.doepctl epnum.toNat with naksts := false, epena := true } })) ∧
    (pktsts = 3#4 ∨ pktsts = 4#4 → N ≤ epnum.toNat →
      exec .poll s = .next (polled { popped with fault := s.dev.fault ||| 0x1#32 })) ∧
    (pktsts = 2#4 → bcnt ≠ 0#11 → exec .poll s = .next (polled { popped with fault := s.dev.fault ||| 0x100#32 })) ∧
    (pktsts = 2#4 → bcnt = 0#11 → exec .poll s = .next (polled popped)) ∧
    (pktsts ≠ 2#4 → pktsts ≠ 3#4 → pktsts ≠ 4#4 → pktsts ≠ 6#4 → exec .poll s = .next (polled popped))

/-- R215, R296, R334: POLL at the receive level with a data word at the head: it is dropped, `rx_desync` is set, the
handler ends, and POLL still emits POLLED. The word popped is a free value that nothing depends on. -/
def Obligations.PollDropsAnUnreadDataWord : Prop :=
  ∀ (s : State) (w : RegWord) (rest : List (RxWord .hardware)), s.seq = .idle → s.inputs = [] → s.dev.Inv →
    classify (s.dev.regRead .gintsts) = .rxflvl → s.dev.rxq = .data w :: rest →
    ∃ n, exec .poll s = .next { s with
      dev := { s.dev with
        rxq := rest, fault := s.dev.fault ||| 0x10#32, draws := n, evPending := some 0x60000000#32,
        evlog := s.dev.evlog ++ [0x60000000#32] }
      seq := .waitAck .poll [] }

/-- R215, R92, R296: a flush emptied RXQ between POLL's snapshot and its pop: `rx_underflow` is set, the handler ends
without dispatch, and POLL still clears the cause's bit and emits POLLED. The word popped is a free value that nothing
depends on (log entry 6). -/
def Obligations.PollFindsRxqEmptied : Prop :=
  ∀ s : State, s.seq = .run .poll [.popStatus, .clear .gintsts 0x10#32, .emit .polled] → s.inputs = [] →
    s.dev.rxq = [] →
    ∃ n, step s = .next { s with
      dev := { s.dev with
        fault := s.dev.fault ||| 0x8#32, draws := n, gintsts := s.dev.gintsts &&& ~~~0x10#32,
        evPending := some 0x60000000#32, evlog := s.dev.evlog ++ [0x60000000#32] }
      seq := .waitAck .poll [] }

/-- R219, R220, R225: POLL on an IN (or OUT) endpoint serves the lowest-numbered endpoint with an aggregate bit: a set
`xfrc` is reported, its clear still to come; any other cause is left alone. -/
def Obligations.PollHandlesEndpoints : Prop :=
  ∀ (s : State) (e : Nat), s.seq = .idle → s.inputs = [] → s.dev.Inv → e < N →
    let emitted := fun (ev : Word) (todo : List (AccessStep .hardware)) => { s with
      dev := { s.dev with evPending := some ev, evlog := s.dev.evlog ++ [ev] }
      seq := .waitAck .poll todo }
    (classify (s.dev.regRead .gintsts) = .iepint → (s.dev.regRead .daint).getLsbD e = true →
      (∀ k, k < e → (s.dev.regRead .daint).getLsbD k = false) →
      ((s.dev.regRead (.diepint e)).getLsbD 0 = true →
        exec .poll s = .next (emitted (4#4 ++ BitVec.ofNat 4 e ++ 0#13 ++ 0#11)
        [.clear (.diepint e) 1#32, .clear .gintsts 0x40000#32, .emit .polled])) ∧
      ((s.dev.regRead (.diepint e)).getLsbD 0 = false → exec .poll s = .next (emitted 0x60000000#32 []))) ∧
    (classify (s.dev.regRead .gintsts) = .oepint → (s.dev.regRead .daint).getLsbD (16 + e) = true →
      (∀ k, k < e → (s.dev.regRead .daint).getLsbD (16 + k) = false) →
      ((s.dev.regRead (.doepint e)).getLsbD 0 = true →
        exec .poll s = .next (emitted (5#4 ++ BitVec.ofNat 4 e ++ 0#13 ++ 0#11)
        [.clear (.doepint e) 1#32, .clear .gintsts 0x80000#32, .emit .polled])) ∧
      ((s.dev.regRead (.doepint e)).getLsbD 0 = false → exec .poll s = .next (emitted 0x60000000#32 [])))

/-- R219 to R221, R223: after the acknowledgement of a transfer event POLL clears the one `xfrc` flag, then the
handled cause's bit, emits POLLED and waits; nothing else changes. -/
def Obligations.PollClearsAfterHandling : Prop :=
  ∀ (s : State) (e : Nat) (m : RegWord), s.inputs = [] → e < N →
    (s.seq = .run .poll [.clear .gintsts m, .emit .polled] →
      step s = .next { s with
        dev := { s.dev with
          gintsts := s.dev.gintsts &&& ~~~m, evPending := some 0x60000000#32,
          evlog := s.dev.evlog ++ [0x60000000#32] }
        seq := .waitAck .poll [] }) ∧
    (s.seq = .run .poll [.clear (.diepint e) 1#32, .clear .gintsts m, .emit .polled] →
      step s = .next { s with
        dev := { s.dev with
          diepint := setSlot s.dev.diepint e (slot s.dev.diepint e &&& ~~~1#32),
          gintsts := s.dev.gintsts &&& ~~~m, evPending := some 0x60000000#32,
          evlog := s.dev.evlog ++ [0x60000000#32] }
        seq := .waitAck .poll [] }) ∧
    (s.seq = .run .poll [.clear (.doepint e) 1#32, .clear .gintsts m, .emit .polled] →
      step s = .next { s with
        dev := { s.dev with
          doepint := setSlot s.dev.doepint e (slot s.dev.doepint e &&& ~~~1#32),
          gintsts := s.dev.gintsts &&& ~~~m, evPending := some 0x60000000#32,
          evlog := s.dev.evlog ++ [0x60000000#32] }
        seq := .waitAck .poll [] })

/-- R210, R213, R221, R291: the whole interrupt service of a bus reset, from the POLL on the port to the second
acknowledgement, four steps of the machine: everything is deactivated, the flag is clear, exactly RESET_RECEIVED and
POLLED are logged, no event is pending and CORE is idle again with nothing restored. -/
def Obligations.BusResetServiceEmitsTwoEvents : Prop :=
  ∀ s : State, s.seq = .idle → s.port = [0x30000000#32] → s.inputs = [.host .ack, .host .ack] →
    s.dev.cfg.padFaults = false → (s.dev.regRead .gintsts).getLsbD 12 = true →
    ∃ d', s.dev.AllDeactivated d' ∧
      Host.Core.run Sys2Proof.core 4 s = .next {
        dev := { d' with
          gintsts := s.dev.gintsts &&& ~~~0x1000#32, evPending := none,
          evlog := s.dev.evlog ++ [0x10000000#32, 0x60000000#32] }
        seq := .idle, port := [], inputs := [] }

/-! ## Glue (spec/44_glue.md) -/

/-- R240: INIT_CORE, its result and its frame. -/
def Obligations.InitCoreResult : Prop :=
  ∀ s : State, s.Undisturbed →
    exec .initCore s = .next { s with dev := { s.dev with
      gintmsk := 0x000C3010#32, diepmsk := 1#32, doepmsk := 1#32, gint := true } }

/-- R241: SET_ADDRESS programs the seven address bits and keeps every other bit of DCFG and every other register. -/
def Obligations.SetAddressResult : Prop :=
  ∀ (addr : Nat) (s : State), s.Undisturbed → addr < 128 →
    ∃ w, exec (.setAddress addr) s = .next { s with dev := { s.dev with dcfg := w } } ∧
      (w.extractLsb' 4 7).toNat = addr ∧ ∀ b, b < 4 ∨ 10 < b → w.getLsbD b = s.dev.dcfg.getLsbD b

/-- R242, R243, R64: CONNECT and DISCONNECT move the soft-disconnect bit and with it the pull-up; every other bit of
DCTL and every other register is kept. -/
def Obligations.ConnectAndDisconnectResult : Prop :=
  ∀ s : State, s.Undisturbed →
    (∃ w, exec .connect s = .next { s with dev := { s.dev with dctl := w } } ∧
      ({ s.dev with dctl := w } : Dev .hardware).pullup = true ∧ w.getLsbD 1 = false ∧
      ∀ b, b ≠ 1 → w.getLsbD b = s.dev.dctl.getLsbD b) ∧
    (∃ w, exec .disconnect s = .next { s with dev := { s.dev with dctl := w } } ∧
      ({ s.dev with dctl := w } : Dev .hardware).pullup = false ∧ w.getLsbD 1 = true ∧
      ∀ b, b ≠ 1 → w.getLsbD b = s.dev.dctl.getLsbD b)

/-! ## LINK (spec/45_link_environment.md) -/

/-- R266: what LINK never does, whichever move it makes and in whatever state; R251, R252, R258, R259, R260: each move
that only sets a flag sets that flag and changes nothing else, and does nothing where its guard fails. -/
def Obligations.LinkNeverTouchesTheRest : Prop :=
  ∀ (m : LinkMove) (s : State), let t := applyInput (.link m) s
    s.dev.SameForLink t.dev ∧ t.seq = s.seq ∧ t.port = s.port ∧ t.inputs = s.inputs ∧
    (∀ e, e < N → (slot s.dev.diepctl e).SameForLink (slot t.dev.diepctl e) ∧
      (slot s.dev.doepctl e).SameForLink (slot t.dev.doepctl e) ∧
      slot s.dev.diepint e &&& slot t.dev.diepint e = slot s.dev.diepint e ∧
      slot s.dev.doepint e &&& slot t.dev.doepint e = slot s.dev.doepint e ∧
      slot t.dev.txq e <:+ slot s.dev.txq e) ∧
    s.dev.gintsts &&& t.dev.gintsts = s.dev.gintsts ∧ s.dev.rxq <+: t.dev.rxq ∧
    (m = .busReset → t = { s with dev := { s.dev with gintsts := s.dev.gintsts ||| 0x1000#32 } }) ∧
    (m = .enumDone → t = { s with dev := { s.dev with gintsts := s.dev.gintsts ||| 0x2000#32 } }) ∧
    (∀ e, m = .outXfrc e →
      (e < N → t = { s with dev := { s.dev with
        doepint := setSlot s.dev.doepint e (slot s.dev.doepint e ||| 1#32) } }) ∧
      (N ≤ e → t = s)) ∧
    (∀ e b, m = .epFlag .inn e b →
      (e < N → s.dev.cfg.inIntAll.getLsbD b = true → t = { s with dev := { s.dev with
        diepint := setSlot s.dev.diepint e (slot s.dev.diepint e ||| 1#32 <<< b) } }) ∧
      (N ≤ e ∨ s.dev.cfg.inIntAll.getLsbD b = false → t = s)) ∧
    (∀ e b, m = .epFlag .out e b →
      (e < N → s.dev.cfg.outIntAll.getLsbD b = true → t = { s with dev := { s.dev with
        doepint := setSlot s.dev.doepint e (slot s.dev.doepint e ||| 1#32 <<< b) } }) ∧
      (N ≤ e ∨ s.dev.cfg.outIntAll.getLsbD b = false → t = s)) ∧
    (∀ b, m = .otherGint b →
      (b < 32 → b ∉ [4, 12, 13, 18, 19] →
        t = { s with dev := { s.dev with gintsts := s.dev.gintsts ||| 1#32 <<< b } }) ∧
      (32 ≤ b ∨ b ∈ [4, 12, 13, 18, 19] → t = s))

/-- R253, R254, R258: a received packet: where it fits, the status entry and its data words enter RXQ together, and a
completion stops the OUT endpoint; where it does not fit nothing is pushed. The premise on `overlap` says that
LayoutFits has held since reset (R144). -/
def Obligations.LinkPushesAReceivedPacket : Prop :=
  ∀ (d : Dev .hardware) (epnum bcnt : Nat) (dpid : BitVec 2) (pktsts : BitVec 4) (payload : List Byte), d.overlap = false →
    epnum < N → bcnt ≤ 2047 → (if pktsts = 2#4 ∨ pktsts = 6#4 then payload.length = bcnt else bcnt = 0) →
    let nd := if pktsts = 2#4 ∨ pktsts = 6#4 then (bcnt + 3) / 4 else 0
    let d' := LinkMove.apply (.rxPush epnum bcnt dpid pktsts payload) d
    (d.rxq.length + 1 + nd ≤ d.rxfd.toNat →
      ∃ (sts : RegWord) (ws : List RegWord), d' = { d with
          rxq := d.rxq ++ .status sts :: ws.map .data, draws := d'.draws,
          doepctl := if pktsts = 3#4 ∨ pktsts = 4#4 then
              setSlot d.doepctl epnum { slot d.doepctl epnum with epena := false, naksts := true }
            else d.doepctl } ∧
        (sts.extractLsb' 0 4).toNat = epnum ∧ (sts.extractLsb' 4 11).toNat = bcnt ∧ sts.extractLsb' 15 2 = dpid ∧
        sts.extractLsb' 17 4 = pktsts ∧ sts.extractLsb' 21 11 = 0#11 ∧ ws.length = nd ∧
        (pktsts = 2#4 ∨ pktsts = 6#4 → ∀ k, k < bcnt →
          lane (ws[k / 4]?.getD 0#32) (k % 4) = payload[k]?.getD 0#8) ∧
        d'.rxflvl = true) ∧
    (d.rxfd.toNat < d.rxq.length + 1 + nd → d' = d)

/-- R255, R256: the packet of an IN endpoint goes out: taken from TXQ[e], logged with the data packet identifier, the
transfer forgotten, the toggle alternated, `xfrc` set; where a guard fails nothing happens. -/
def Obligations.LinkSendsThePacket : Prop :=
  ∀ (d : Dev .hardware) (e : Nat), e < N →
    let ctl := slot d.diepctl e
    let n := (slot d.dieptsiz e).xfrsiz.toNat
    let ready := ctl.usbaep = true ∧ ctl.epena = true ∧ ctl.naksts = false ∧ ctl.stall = false ∧
      1 ≤ (slot d.dieptsiz e).pktcnt.toNat ∧ (n + 3) / 4 ≤ (slot d.txq e).length
    (ready → ∃ bytes, LinkMove.apply (.txSend e) d = { d with
        txq := setSlot d.txq e ((slot d.txq e).drop ((n + 3) / 4)),
        wireTx := d.wireTx ++ [{ ep := e, dpid := ctl.dpid, bytes := bytes }],
        dieptsiz := setSlot d.dieptsiz e { xfrsiz := 0#19, pktcnt := 0#10 },
        diepctl := setSlot d.diepctl e { ctl with epena := false, dpid := !ctl.dpid },
        diepint := setSlot d.diepint e (slot d.diepint e ||| 1#32) } ∧
      bytes.length = n ∧
      ∀ k, k < n → bytes[k]?.getD 0#8 = lane ((slot d.txq e)[k / 4]?.getD 0#32) (k % 4)) ∧
    (¬ ready → LinkMove.apply (.txSend e) d = d)

/-- R257: the asynchronous completion of a disable request, in both directions; where none is pending nothing
happens. -/
def Obligations.LinkCompletesADisable : Prop :=
  ∀ (d : Dev .hardware) (e : Nat), e < N →
    ((slot d.diepctl e).epdis = true → LinkMove.apply (.disableDone .inn e) d = { d with
      diepctl := setSlot d.diepctl e { slot d.diepctl e with epena := false, epdis := false },
      diepint := setSlot d.diepint e (slot d.diepint e ||| 2#32),
      dieptsiz := setSlot d.dieptsiz e { xfrsiz := 0#19, pktcnt := 0#10 } }) ∧
    ((slot d.doepctl e).epdis = true → LinkMove.apply (.disableDone .out e) d = { d with
      doepctl := setSlot d.doepctl e { slot d.doepctl e with epena := false, epdis := false },
      doepint := setSlot d.doepint e (slot d.doepint e ||| 2#32) }) ∧
    ((slot d.diepctl e).epdis = false → LinkMove.apply (.disableDone .inn e) d = d) ∧
    ((slot d.doepctl e).epdis = false → LinkMove.apply (.disableDone .out e) d = d)
end

