-- ==== Sys2Proof/Laws/Fields.lean ====
section
/-! SUPPORT. Laws of bit fields and of the packed register views: what `put` changes, what reading back gives, and one
equation per read-modify-write form that a procedure uses. -/

namespace Sys2Proof.Machine

/-! ## The values of the shape parameters (R7) -/

theorem N_eq : N = 6 := rfl
@[simp] theorem Shape.hardware_endpoints : Shape.hardware.endpoints = 6 := rfl
@[simp] theorem Shape.hardware_txRegions : Shape.hardware.txRegions = 6 := rfl
@[simp] theorem Shape.hardware_wordBits : Shape.hardware.wordBits = 32 := rfl
@[simp] theorem Shape.hardware_mpsBits : Shape.hardware.mpsBits = 11 := rfl
@[simp] theorem Shape.hardware_depthBits : Shape.hardware.depthBits = 16 := rfl
@[simp] theorem Shape.hardware_xfrsizBits : Shape.hardware.xfrsizBits = 19 := rfl
@[simp] theorem Shape.hardware_pktcntBits : Shape.hardware.pktcntBits = 10 := rfl
@[simp] theorem Shape.hardware_wordBytes : Shape.hardware.wordBytes = 4 := rfl
@[simp] theorem maxPacketSizeLimit_eq : maxPacketSizeLimit = 2047 := rfl

/-- This hardware's shape leaves every field its room. -/
theorem Shape.hardware_hasRoom : Shape.hardware.hasRoom = true := by decide

/-! ## One field -/

theorem Field.getLsbD_mask {w : Nat} (f : Field) (i : Nat) :
    (f.mask : BitVec w).getLsbD i = (decide (i < w) && (decide (f.lo ≤ i) && decide (i < f.lo + f.len))) := by
  unfold Field.mask
  rw [BitVec.getLsbD_ofNat]
  congr 1
  rw [Nat.testBit_mul_two_pow, Nat.testBit_two_pow_sub_one]
  by_cases h : f.lo ≤ i
  · simp only [h, decide_true, Bool.true_and]
    congr 1
    simp only [eq_iff_iff]
    omega
  · simp [h]

/-- A `put` changes the bits of its field and no other. -/
theorem Field.getLsbD_put (f : Field) {w : Nat} (v : Nat) (x : BitVec w) (i : Nat) :
    (f.put v x).getLsbD i =
      if f.lo ≤ i ∧ i < f.lo + f.len ∧ i < w then v.testBit (i - f.lo) else x.getLsbD i := by
  unfold Field.put
  simp only [BitVec.getLsbD_or, BitVec.getLsbD_and, BitVec.getLsbD_not, Field.getLsbD_mask, BitVec.getLsbD_ofNat,
    Nat.testBit_mul_two_pow]
  by_cases h32 : i < w
  · by_cases h1 : f.lo ≤ i <;> by_cases h2 : i < f.lo + f.len <;> simp only [h32, h1, h2] <;> simp
  · have := x.getLsbD_of_ge i (show w ≤ i by omega)
    simp only [h32, this]; simp

/-- Reading a field back gives the value put, truncated. -/
theorem extract_put_same {w : Nat} (lo len v : Nat) (x : BitVec w) (h : lo + len ≤ w) :
    ((⟨lo, len⟩ : Field).put v x).extractLsb' lo len = BitVec.ofNat len v := by
  apply BitVec.eq_of_getLsbD_eq
  intro i hi
  rw [BitVec.getLsbD_extractLsb', Field.getLsbD_put, BitVec.getLsbD_ofNat]
  simp [hi, show lo + i < lo + len ∧ lo + i < w by omega]

/-- Reading another field back gives what was there. -/
theorem extract_put_other {w : Nat} (f : Field) (lo len v : Nat) (x : BitVec w)
    (h : lo + len ≤ f.lo ∨ f.lo + f.len ≤ lo) : (f.put v x).extractLsb' lo len = x.extractLsb' lo len := by
  apply BitVec.eq_of_getLsbD_eq
  intro i hi
  rw [BitVec.getLsbD_extractLsb', BitVec.getLsbD_extractLsb', Field.getLsbD_put]
  rw [if_neg (by omega)]

theorem Field.bit_put {w : Nat} (f g : Field) (v : Nat) (x : BitVec w) :
    f.bit (g.put v x) =
      if g.lo ≤ f.lo ∧ f.lo < g.lo + g.len ∧ f.lo < w then v.testBit (f.lo - g.lo) else f.bit x := by
  simp [Field.bit, Field.getLsbD_put]

@[simp] theorem Field.bit_zero {w : Nat} (f : Field) : f.bit 0#w = false := by simp [Field.bit]

@[simp] theorem flagNat_testBit (b : Bool) (i : Nat) : (flagNat b).testBit i = (b && decide (i = 0)) := by
  cases b <;> cases i <;> simp [flagNat, Nat.testBit_succ]

@[simp] theorem flagNat_mod_two (b : Bool) : flagNat b % 2 = flagNat b := by cases b <;> rfl

@[simp] theorem flagNat_eq_one (b : Bool) : flagNat b = 1 ↔ b = true := by cases b <;> simp [flagNat]

@[simp] theorem epTypeOfCode_code (t : EpType) : epTypeOfCode (BitVec.ofNat 2 (codeOfEpType t).toNat) = t := by
  cases t <;> rfl

@[simp] theorem epTypeOfCode_codeOf (t : EpType) : epTypeOfCode (codeOfEpType t) = t := by cases t <;> rfl

theorem codeOf_epTypeOfCode (c : BitVec 2) : codeOfEpType (epTypeOfCode c) = c := by
  have : ∀ c : BitVec 2, codeOfEpType (epTypeOfCode c) = c := by decide
  exact this c

/-! ## Slots -/

@[simp] theorem slot_setSlot {α : Type} [Inhabited α] {n : Nat} (v : Vector α n) (e k : Nat) (x : α) :
    slot (setSlot v e x) k = if e = k ∧ e < n then x else slot v k := by
  unfold slot setSlot
  rw [Vector.getElem?_setIfInBounds]
  by_cases h : e = k
  · subst h
    by_cases h6 : e < n
    · simp [h6]
    · simp only [h6, and_false, if_true, if_false]
      rw [Vector.getElem?_eq_none (by omega)]
  · simp [h]

theorem slot_of_ge {α : Type} [Inhabited α] {n : Nat} (v : Vector α n) (e : Nat) (h : n ≤ e) : slot v e = default := by
  unfold slot
  rw [Vector.getElem?_eq_none (by omega)]
  rfl

@[simp] theorem setSlot_slot {α : Type} [Inhabited α] {n : Nat} (v : Vector α n) (e : Nat) : setSlot v e (slot v e) = v := by
  unfold slot setSlot
  by_cases h : e < n
  · ext i hi
    simp only [Vector.getElem_setIfInBounds]
    split
    · subst_vars; simp [h]
    · rfl
  · ext i hi
    simp only [Vector.getElem_setIfInBounds]
    rw [if_neg (by omega)]

theorem setSlot_of_ge {α : Type} {n : Nat} (v : Vector α n) (e : Nat) (x : α) (h : n ≤ e) : setSlot v e x = v := by
  unfold setSlot
  ext i hi
  simp only [Vector.getElem_setIfInBounds]
  rw [if_neg (by omega)]

@[simp] theorem setSlot_setSlot {α : Type} {n : Nat} (v : Vector α n) (e : Nat) (x y : α) :
    setSlot (setSlot v e x) e y = setSlot v e y := by
  unfold setSlot
  ext i hi
  simp only [Vector.getElem_setIfInBounds]
  split <;> rfl

/-- Two vectors agree when their slots do. -/
theorem slot_ext {α : Type} [Inhabited α] {n : Nat} {v w : Vector α n} (h : ∀ e, e < n → slot v e = slot w e) : v = w := by
  ext i hi
  have := h i hi
  simpa [slot, hi] using this

@[simp] theorem slot_replicate {α : Type} [Inhabited α] {n : Nat} (x : α) (e : Nat) :
    slot (Vector.replicate n x) e = if e < n then x else default := by
  unfold slot
  by_cases h : e < n
  · simp [h]
  · rw [Vector.getElem?_eq_none (by omega)]
    simp [h]

end Sys2Proof.Machine
end

