-- ==== Sys2Proof/Laws/Sequencer.lean ====
section
/-! SUPPORT. Laws of the sequencer: every access step costs more than the steps it puts before the rest, so a command
ends within its bound (spec/45_link_environment.md R265); what a command does when no other agent moves, as a relation
on the devices (`Runs`, `RunsToWait`); and the induction over the turns of a command. -/

namespace Sys2Proof.Machine

/-! ## The bound on access steps, at every shape -/

variable {sh : Shape}

@[simp] theorem costOf_nil : costOf ([] : List (AccessStep sh)) = 0 := rfl

@[simp] theorem costOf_cons (t : AccessStep sh) (ts : List (AccessStep sh)) : costOf (t :: ts) = t.cost + costOf ts := by
  simp [costOf]

@[simp] theorem costOf_append (a b : List (AccessStep sh)) : costOf (a ++ b) = costOf a + costOf b := by
  simp [costOf, List.sum_append]

theorem AccessStep.cost_pos (t : AccessStep sh) : 0 < t.cost := by
  cases t <;> simp [AccessStep.cost]

/-- The indices below `n` that lie below `size` when counted from `m`. -/
theorem length_filter_lt (m size n : Nat) :
    ((List.range n).filter fun j => decide (m + j < size)).length = min n (size - m) := by
  induction n with
  | zero => simp
  | succ n ih =>
    rw [List.range_succ, List.filter_append, List.length_append, ih]
    by_cases h : m + n < size <;> simp [h] <;> omega

/-- The byte stores of one word cost as many access steps as the word has bytes below `size`. -/
theorem costOf_storeSteps (ba : Word) (size k : Nat) (w : RegWord sh) :
    costOf (storeSteps ba size k w) = min sh.wordBytes (size - sh.wordBytes * k) := by
  have h : ∀ l : List Nat, costOf (l.map fun j =>
      (.store (bufferAddr ba (sh.wordBytes * k + j)) (lane w j) : AccessStep sh)) = l.length := by
    intro l
    induction l with
    | nil => rfl
    | cons x xs ih => simp only [List.map_cons, costOf_cons, ih, AccessStep.cost, List.length_cons]; omega
  rw [storeSteps, h, length_filter_lt]

theorem costOf_deactRestSteps (c : Config sh) (n : Nat) : costOf (deactRestSteps c n) ≤ 11 := by
  unfold deactRestSteps
  by_cases h : n = 0 <;> simp [h, AccessStep.cost]

theorem costOf_deactivateAllSteps (c : Config sh) (ev : Option Event) :
    costOf (deactivateAllSteps c ev) ≤ 14 * (sh.endpoints + 1) + ev.toList.length := by
  have hk : ∀ k : Nat, costOf ((List.range k).flatMap fun n => (deactivateSteps n none : List (AccessStep sh))) = 14 * k := by
    intro k
    induction k with
    | zero => rfl
    | succ k ih =>
      rw [List.range_succ, List.flatMap_append, costOf_append, ih]
      show 14 * k + 14 = 14 * (k + 1)
      omega
  have hl : costOf (deactivateSteps c.deactAllLast ev : List (AccessStep sh)) = 14 + ev.toList.length := by
    simp [deactivateSteps, AccessStep.cost]; omega
  have := c.deactAllLast.isLt
  rw [deactivateAllSteps, costOf_append, hk, hl]
  omega

theorem costOf_causeSteps (c : Config sh) (k : Cause) : costOf (causeSteps c k) < (.snapshot : AccessStep sh).cost := by
  cases k with
  | usbrst =>
    have := costOf_deactivateAllSteps c (some .resetReceived)
    rw [causeSteps, costOf_append]
    simp only [pollTail, costOf_cons, costOf_nil, AccessStep.cost, Option.toList, List.length_cons,
      List.length_nil] at *
    omega
  | enumdne =>
    rw [causeSteps, costOf_append]
    split
    · simp [activateControlSteps, setRxFifoSizeSteps, setTxFifoSizeSteps, pollTail, AccessStep.cost]; omega
    · simp [pollTail, AccessStep.cost]
  | _ => simp [causeSteps, pollTail, AccessStep.cost]

/-- Every access step costs more than the access steps it puts before the rest, at every shape whose words hold a
byte. -/
theorem perform_cost_of (hb : 0 < sh.wordBytes) (t : AccessStep sh) (d : Dev sh) (more : List (AccessStep sh)) (h : (perform t d).2 = .go more) :
    costOf more < t.cost := by
  cases t with
  | rmw r fs => simp only [perform, After.go.injEq] at h; subst h; simp [AccessStep.cost]
  | write r v => simp only [perform, After.go.injEq] at h; subst h; simp [AccessStep.cost]
  | clear r m => simp only [perform, After.go.injEq] at h; subst h; simp [AccessStep.cost]
  | layoutRx =>
    simp only [perform, Dev.layoutRxStep, After.go.injEq] at h; subst h; simp [AccessStep.cost]
  | layoutStart e cur =>
    simp only [perform, Dev.layoutStartStep, After.go.injEq] at h; subst h; simp [AccessStep.cost]
  | layoutDepth e cur =>
    simp only [perform, Dev.layoutDepthStep, After.go.injEq] at h; subst h
    split
    · simp only [costOf_cons, costOf_nil, AccessStep.cost]; omega
    · simp [AccessStep.cost]
  | deactFlags n ev =>
    simp only [perform, Dev.deactFlagsStep] at h
    split at h <;> simp only [After.go.injEq] at h <;> subst h
    · simp [AccessStep.cost]
    · have := costOf_deactRestSteps d.cfg n
      have he : costOf (ev.toList.map AccessStep.emit : List (AccessStep sh)) = ev.toList.length := by cases ev <;> rfl
      simp only [AccessStep.cost, costOf_append]; omega
  | deactTest dir n =>
    cases dir <;> simp only [perform, Dev.deactTestStep, After.go.injEq] at h <;> subst h <;> split <;>
      simp [AccessStep.cost]
  | flushRx => simp only [perform, After.go.injEq] at h; subst h; simp [AccessStep.cost]
  | flushTx n => simp only [perform, After.go.injEq] at h; subst h; simp [AccessStep.cost]
  | popData ba size k =>
    simp only [perform, Dev.popDataStep, After.go.injEq] at h; subst h
    split
    · rw [costOf_append, costOf_storeSteps]
      split
      · simp only [costOf_cons, costOf_nil, AccessStep.cost, Nat.mul_add] at *; omega
      · simp only [costOf_nil, AccessStep.cost]; omega
    · simp [AccessStep.cost]
  | store a b => simp only [perform, After.go.injEq] at h; subst h; simp [AccessStep.cost]
  | checkSize e size ba =>
    simp only [perform, Dev.checkSizeStep] at h
    split at h <;> simp only [After.go.injEq] at h <;> subst h
    · simp [AccessStep.cost]
    · split <;> simp only [List.append_nil, List.cons_append, List.nil_append, costOf_cons, costOf_nil, AccessStep.cost] <;> omega
  | load e size ba i lanes =>
    simp only [perform, Dev.loadStep] at h
    split at h
    · simp only [After.go.injEq] at h; subst h; simp [AccessStep.cost]
    · split at h <;> simp only [After.go.injEq] at h <;> subst h <;>
        simp only [costOf_cons, costOf_nil, AccessStep.cost] <;> omega
  | push e size ba i w =>
    simp only [perform, Dev.pushStep, After.go.injEq] at h; subst h
    split
    · simp only [costOf_cons, costOf_nil, AccessStep.cost]; omega
    · simp [AccessStep.cost]
  | snapshot =>
    simp only [perform, Dev.snapshotStep, After.go.injEq] at h; subst h
    exact costOf_causeSteps _ _
  | popStatus =>
    simp only [perform, Dev.popStatusStep] at h
    split at h
    · simp only [After.go.injEq] at h; subst h
      simp only [Dev.dispatchStatus, Dev.reArmOut]
      split
      · simp [AccessStep.cost]
      · split
        · split <;> simp [AccessStep.cost]
        · split
          · split <;> simp [AccessStep.cost]
          · split <;> simp [AccessStep.cost]
    · simp only [After.go.injEq] at h; subst h; simp [AccessStep.cost]
  | scan dir =>
    simp only [perform, Dev.scanStep, After.go.injEq] at h; subst h
    split <;> simp [AccessStep.cost]
  | testXfrc dir e =>
    simp only [perform, Dev.testXfrcStep, After.go.injEq] at h; subst h
    split <;> simp [AccessStep.cost]
  | emit ev => simp [perform] at h

/-- The same on this hardware. -/
theorem perform_cost (t : AccessStep .hardware) (d : Dev .hardware) (more : List (AccessStep .hardware)) (h : (perform t d).2 = .go more) :
    costOf more < t.cost := perform_cost_of (by decide) t d more h

/-! ## A command that no other agent interrupts -/

/-- The access steps `todo`, performed one after another with no other move between them, take the device from the
first state to the second and leave nothing to do. -/
inductive Runs : List (AccessStep .hardware) → Dev .hardware → Dev .hardware → Prop where
  | done (d : Dev .hardware) : Runs [] d d
  | step {t : AccessStep .hardware} {rest more : List (AccessStep .hardware)} {d d₁ d₂ : Dev .hardware} (h : perform t d = (d₁, .go more))
      (hr : Runs (more ++ rest) d₁ d₂) : Runs (t :: rest) d d₂

/-- The same up to the first event, after which `left` is still to do. -/
inductive RunsToWait : List (AccessStep .hardware) → Dev .hardware → Dev .hardware → List (AccessStep .hardware) → Prop where
  | wait {t : AccessStep .hardware} {rest : List (AccessStep .hardware)} {d d₁ : Dev .hardware} (h : perform t d = (d₁, .wait)) :
      RunsToWait (t :: rest) d d₁ rest
  | step {t : AccessStep .hardware} {rest more left : List (AccessStep .hardware)} {d d₁ d₂ : Dev .hardware} (h : perform t d = (d₁, .go more))
      (hr : RunsToWait (more ++ rest) d₁ d₂ left) : RunsToWait (t :: rest) d d₂ left

theorem Runs.append {a b : List (AccessStep .hardware)} {d d₁ d₂ : Dev .hardware} (ha : Runs a d d₁) (hb : Runs b d₁ d₂) :
    Runs (a ++ b) d d₂ := by
  induction ha with
  | done => exact hb
  | step h _ ih => exact .step h (by simpa [List.append_assoc] using ih hb)

theorem RunsToWait.prepend {a b left : List (AccessStep .hardware)} {d d₁ d₂ : Dev .hardware} (ha : Runs a d d₁)
    (hb : RunsToWait b d₁ d₂ left) : RunsToWait (a ++ b) d d₂ left := by
  induction ha with
  | done => exact hb
  | step h _ ih => exact .step h (by simpa [List.append_assoc] using ih hb)

/-- One access step that puts nothing before the rest. -/
theorem Runs.one {t : AccessStep .hardware} {rest : List (AccessStep .hardware)} {d d₁ d₂ : Dev .hardware} (h : perform t d = (d₁, .go []))
    (hr : Runs rest d₁ d₂) : Runs (t :: rest) d d₂ := .step h hr

/-- Every list of access steps that emits nothing runs to an end. -/
theorem Runs.deterministic {todo : List (AccessStep .hardware)} {d d₁ d₂ : Dev .hardware} (h₁ : Runs todo d d₁) (h₂ : Runs todo d d₂) :
    d₁ = d₂ := by
  induction h₁ with
  | done => cases h₂; rfl
  | step h _ ih =>
    cases h₂ with
    | step h' hr' =>
      rw [h] at h'
      simp only [Prod.mk.injEq, After.go.injEq] at h'
      obtain ⟨rfl, rfl⟩ := h'
      exact ih hr'

@[simp] theorem Seq.accepting_idle : (Seq.idle : Seq .hardware).accepting = true := rfl
@[simp] theorem Seq.accepting_wait (c : Instr) (t : List (AccessStep .hardware)) : (Seq.waitAck c t).accepting = true := rfl
@[simp] theorem Seq.accepting_run (c : Instr) (t : List (AccessStep .hardware)) : (Seq.run c t).accepting = false := rfl
@[simp] theorem Seq.accepting_nested (o : Instr) (ot : List (AccessStep .hardware)) (c : Instr) (t : List (AccessStep .hardware)) :
    (Seq.nested o ot c t).accepting = false := rfl

theorem drive_accepting (n : Nat) (s : State) (h : s.seq.accepting = true) : drive n s = s := by
  cases n with
  | zero => rfl
  | succ n => simp [drive, h]

/-- With nothing in the script a command in progress takes its next access step. -/
theorem drive_quiet (n : Nat) (s : State) (h : s.seq.accepting = false) (hi : s.inputs = []) :
    drive (n + 1) s = drive n (coreStep s) := by
  simp [drive, turn, h, hi]

theorem drive_run (cmd : Instr) {todo : List (AccessStep .hardware)} {d d' : Dev .hardware} (h : Runs todo d d') :
    ∀ (n : Nat) (p : List Word), costOf todo < n →
      drive n { dev := d, seq := .running cmd todo, port := p, inputs := [] } =
        { dev := d', seq := .idle, port := p, inputs := [] } := by
  induction h with
  | done d => intro n p _; exact drive_accepting _ _ rfl
  | @step t rest more d d₁ d₂ h hr ih =>
    intro n p hn
    cases n with
    | zero => omega
    | succ n =>
      have hc := perform_cost t d more (by rw [h])
      rw [drive_quiet _ _ rfl rfl]
      simp only [coreStep, Seq.running, h]
      refine ih n p ?_
      simp only [costOf_cons, costOf_append] at *
      omega

theorem drive_nested (outer cmd : Instr) (outerTodo : List (AccessStep .hardware)) {todo : List (AccessStep .hardware)} {d d' : Dev .hardware}
    (h : Runs todo d d') :
    ∀ (n : Nat) (p : List Word), costOf todo < n →
      drive n { dev := d, seq := .nesting outer outerTodo cmd todo, port := p, inputs := [] } =
        { dev := d', seq := .waitAck outer outerTodo, port := p, inputs := [] } := by
  induction h with
  | done d => intro n p _; exact drive_accepting _ _ rfl
  | @step t rest more d d₁ d₂ h hr ih =>
    intro n p hn
    cases n with
    | zero => omega
    | succ n =>
      have hc := perform_cost t d more (by rw [h])
      rw [drive_quiet _ _ rfl rfl]
      simp only [coreStep, Seq.nesting, h]
      refine ih n p ?_
      simp only [costOf_cons, costOf_append] at *
      omega

theorem drive_wait (cmd : Instr) {todo left : List (AccessStep .hardware)} {d d' : Dev .hardware} (h : RunsToWait todo d d' left) :
    ∀ (n : Nat) (p : List Word), costOf todo < n →
      drive n { dev := d, seq := .running cmd todo, port := p, inputs := [] } =
        { dev := d', seq := .waitAck cmd left, port := p, inputs := [] } := by
  induction h with
  | @wait t rest d d₁ h =>
    intro n p hn
    cases n with
    | zero => omega
    | succ n =>
      rw [drive_quiet _ _ rfl rfl]
      simp only [coreStep, Seq.running, h]
      exact drive_accepting _ _ rfl
  | @step t rest more left d d₁ d₂ h hr ih =>
    intro n p hn
    cases n with
    | zero => omega
    | succ n =>
      have hc := perform_cost t d more (by rw [h])
      rw [drive_quiet _ _ rfl rfl]
      simp only [coreStep, Seq.running, h]
      refine ih n p ?_
      simp only [costOf_cons, costOf_append] at *
      omega

theorem Seq.todo_running (cmd : Instr) (todo : List (AccessStep .hardware)) : (Seq.running cmd todo).todo = todo := by
  cases todo <;> rfl

theorem Seq.todo_nesting (o cmd : Instr) (ot todo : List (AccessStep .hardware)) : (Seq.nesting o ot cmd todo).todo = todo := by
  cases todo <;> rfl

/-- A command whose access steps take the device to `d'`, accepted while nothing else is planned: it answers a next
state with that device, and the sequencer back where it was (R66, R126). -/
theorem issue_of_runs (cmd : Instr) {todo : List (AccessStep .hardware)} {s : State} {d' : Dev .hardware} (ha : s.seq.accepting = true)
    (hi : s.inputs = []) (h : Runs todo s.dev d') : issue cmd todo s = .next { s with dev := d' } := by
  obtain ⟨d, q, p, inp⟩ := s
  simp only at hi h
  subst hi
  cases q with
  | idle =>
    simp only [issue, State.At.proceed, State.At.turnsLeft, Seq.todo_running]
    rw [drive_run cmd h _ _ (by simp)]
  | waitAck o ot =>
    simp only [issue, State.At.proceed, State.At.turnsLeft, Seq.todo_nesting]
    rw [drive_nested o cmd ot h _ _ (by simp)]
  | run c t => simp at ha
  | nested o ot c t => simp at ha

/-- The same for POLL at IDLE: it stops at its first event and waits. -/
theorem issue_of_wait (cmd : Instr) {todo left : List (AccessStep .hardware)} {s : State} {d' : Dev .hardware} (ha : s.seq = .idle)
    (hi : s.inputs = []) (h : RunsToWait todo s.dev d' left) :
    issue cmd todo s = .next { s with dev := d', seq := .waitAck cmd left } := by
  obtain ⟨d, q, p, inp⟩ := s
  simp only at hi h ha
  subst hi ha
  simp only [issue, State.At.proceed, State.At.turnsLeft, Seq.todo_running]
  rw [drive_wait cmd h _ _ (by simp)]

/-- After an acknowledgement, a POLL whose remaining access steps run to the next event waits there. -/
theorem proceed_of_wait {cmd : Instr} {todo left : List (AccessStep .hardware)} {s : State} {d' : Dev .hardware} (hs : s.seq = .run cmd todo)
    (hi : s.inputs = []) (h : RunsToWait todo s.dev d' left) :
    s.proceed = { s with dev := d', seq := .waitAck cmd left } := by
  obtain ⟨d, q, p, inp⟩ := s
  simp only at hi h hs
  subst hi hs
  have hd := drive_wait cmd h (costOf todo + 1) p (by omega)
  cases todo with
  | nil => cases h
  | cons t ts =>
    simp only [State.At.proceed, State.At.turnsLeft, Seq.todo, List.length_nil, Nat.zero_add]
    exact hd

theorem takeFault_accepting (c : FaultCause) (s : State) (h : s.seq.accepting = true) :
    takeFault c s = .next { s with dev := s.dev.raise c } := by simp [takeFault, h]

end Sys2Proof.Machine
end

