-- ==== Sys2Proof/Laws/State.lean ====
section
/-! SUPPORT. One lemma per field and named update of the device: what the field holds after it. Each is true by `rfl`. -/

namespace Sys2Proof.Machine

variable {sh : Shape}

/-! ## R281: a fault sets its bit of FAULT. -/

@[simp] theorem Dev.raise_cfg (d : Dev sh) (c : FaultCause) : (d.raise c).cfg = d.cfg := rfl
@[simp] theorem Dev.raise_gint (d : Dev sh) (c : FaultCause) : (d.raise c).gint = d.gint := rfl
@[simp] theorem Dev.raise_grstctl (d : Dev sh) (c : FaultCause) : (d.raise c).grstctl = d.grstctl := rfl
@[simp] theorem Dev.raise_gintsts (d : Dev sh) (c : FaultCause) : (d.raise c).gintsts = d.gintsts := rfl
@[simp] theorem Dev.raise_gintmsk (d : Dev sh) (c : FaultCause) : (d.raise c).gintmsk = d.gintmsk := rfl
@[simp] theorem Dev.raise_rxfd (d : Dev sh) (c : FaultCause) : (d.raise c).rxfd = d.rxfd := rfl
@[simp] theorem Dev.raise_txf (d : Dev sh) (c : FaultCause) : (d.raise c).txf = d.txf := rfl
@[simp] theorem Dev.raise_dcfg (d : Dev sh) (c : FaultCause) : (d.raise c).dcfg = d.dcfg := rfl
@[simp] theorem Dev.raise_dctl (d : Dev sh) (c : FaultCause) : (d.raise c).dctl = d.dctl := rfl
@[simp] theorem Dev.raise_diepmsk (d : Dev sh) (c : FaultCause) : (d.raise c).diepmsk = d.diepmsk := rfl
@[simp] theorem Dev.raise_doepmsk (d : Dev sh) (c : FaultCause) : (d.raise c).doepmsk = d.doepmsk := rfl
@[simp] theorem Dev.raise_daintmsk (d : Dev sh) (c : FaultCause) : (d.raise c).daintmsk = d.daintmsk := rfl
@[simp] theorem Dev.raise_diepctl (d : Dev sh) (c : FaultCause) : (d.raise c).diepctl = d.diepctl := rfl
@[simp] theorem Dev.raise_diepint (d : Dev sh) (c : FaultCause) : (d.raise c).diepint = d.diepint := rfl
@[simp] theorem Dev.raise_dieptsiz (d : Dev sh) (c : FaultCause) : (d.raise c).dieptsiz = d.dieptsiz := rfl
@[simp] theorem Dev.raise_doepctl (d : Dev sh) (c : FaultCause) : (d.raise c).doepctl = d.doepctl := rfl
@[simp] theorem Dev.raise_doepint (d : Dev sh) (c : FaultCause) : (d.raise c).doepint = d.doepint := rfl
@[simp] theorem Dev.raise_rxq (d : Dev sh) (c : FaultCause) : (d.raise c).rxq = d.rxq := rfl
@[simp] theorem Dev.raise_txq (d : Dev sh) (c : FaultCause) : (d.raise c).txq = d.txq := rfl
@[simp] theorem Dev.raise_fault (d : Dev sh) (c : FaultCause) : (d.raise c).fault = d.fault ||| (1#32 <<< c.code) := rfl
@[simp] theorem Dev.raise_evPending (d : Dev sh) (c : FaultCause) : (d.raise c).evPending = d.evPending := rfl
@[simp] theorem Dev.raise_evlog (d : Dev sh) (c : FaultCause) : (d.raise c).evlog = d.evlog := rfl
@[simp] theorem Dev.raise_wireTx (d : Dev sh) (c : FaultCause) : (d.raise c).wireTx = d.wireTx := rfl
@[simp] theorem Dev.raise_mem (d : Dev sh) (c : FaultCause) : (d.raise c).mem = d.mem := rfl
@[simp] theorem Dev.raise_draws (d : Dev sh) (c : FaultCause) : (d.raise c).draws = d.draws := rfl
@[simp] theorem Dev.raise_overlap (d : Dev sh) (c : FaultCause) : (d.raise c).overlap = d.overlap := rfl

/-! ## R126: an event is pending and logged. -/

@[simp] theorem Dev.emit_cfg (d : Dev sh) (ev : Event) : (d.emit ev).cfg = d.cfg := rfl
@[simp] theorem Dev.emit_gint (d : Dev sh) (ev : Event) : (d.emit ev).gint = d.gint := rfl
@[simp] theorem Dev.emit_grstctl (d : Dev sh) (ev : Event) : (d.emit ev).grstctl = d.grstctl := rfl
@[simp] theorem Dev.emit_gintsts (d : Dev sh) (ev : Event) : (d.emit ev).gintsts = d.gintsts := rfl
@[simp] theorem Dev.emit_gintmsk (d : Dev sh) (ev : Event) : (d.emit ev).gintmsk = d.gintmsk := rfl
@[simp] theorem Dev.emit_rxfd (d : Dev sh) (ev : Event) : (d.emit ev).rxfd = d.rxfd := rfl
@[simp] theorem Dev.emit_txf (d : Dev sh) (ev : Event) : (d.emit ev).txf = d.txf := rfl
@[simp] theorem Dev.emit_dcfg (d : Dev sh) (ev : Event) : (d.emit ev).dcfg = d.dcfg := rfl
@[simp] theorem Dev.emit_dctl (d : Dev sh) (ev : Event) : (d.emit ev).dctl = d.dctl := rfl
@[simp] theorem Dev.emit_diepmsk (d : Dev sh) (ev : Event) : (d.emit ev).diepmsk = d.diepmsk := rfl
@[simp] theorem Dev.emit_doepmsk (d : Dev sh) (ev : Event) : (d.emit ev).doepmsk = d.doepmsk := rfl
@[simp] theorem Dev.emit_daintmsk (d : Dev sh) (ev : Event) : (d.emit ev).daintmsk = d.daintmsk := rfl
@[simp] theorem Dev.emit_diepctl (d : Dev sh) (ev : Event) : (d.emit ev).diepctl = d.diepctl := rfl
@[simp] theorem Dev.emit_diepint (d : Dev sh) (ev : Event) : (d.emit ev).diepint = d.diepint := rfl
@[simp] theorem Dev.emit_dieptsiz (d : Dev sh) (ev : Event) : (d.emit ev).dieptsiz = d.dieptsiz := rfl
@[simp] theorem Dev.emit_doepctl (d : Dev sh) (ev : Event) : (d.emit ev).doepctl = d.doepctl := rfl
@[simp] theorem Dev.emit_doepint (d : Dev sh) (ev : Event) : (d.emit ev).doepint = d.doepint := rfl
@[simp] theorem Dev.emit_rxq (d : Dev sh) (ev : Event) : (d.emit ev).rxq = d.rxq := rfl
@[simp] theorem Dev.emit_txq (d : Dev sh) (ev : Event) : (d.emit ev).txq = d.txq := rfl
@[simp] theorem Dev.emit_fault (d : Dev sh) (ev : Event) : (d.emit ev).fault = d.fault := rfl
@[simp] theorem Dev.emit_evPending (d : Dev sh) (ev : Event) : (d.emit ev).evPending = some ev.word := rfl
@[simp] theorem Dev.emit_evlog (d : Dev sh) (ev : Event) : (d.emit ev).evlog = d.evlog ++ [ev.word] := rfl
@[simp] theorem Dev.emit_wireTx (d : Dev sh) (ev : Event) : (d.emit ev).wireTx = d.wireTx := rfl
@[simp] theorem Dev.emit_mem (d : Dev sh) (ev : Event) : (d.emit ev).mem = d.mem := rfl
@[simp] theorem Dev.emit_draws (d : Dev sh) (ev : Event) : (d.emit ev).draws = d.draws := rfl
@[simp] theorem Dev.emit_overlap (d : Dev sh) (ev : Event) : (d.emit ev).overlap = d.overlap := rfl

/-! ## R126: the acknowledgement. -/

@[simp] theorem Dev.acknowledge_cfg (d : Dev sh) : (d.acknowledge).cfg = d.cfg := rfl
@[simp] theorem Dev.acknowledge_gint (d : Dev sh) : (d.acknowledge).gint = d.gint := rfl
@[simp] theorem Dev.acknowledge_grstctl (d : Dev sh) : (d.acknowledge).grstctl = d.grstctl := rfl
@[simp] theorem Dev.acknowledge_gintsts (d : Dev sh) : (d.acknowledge).gintsts = d.gintsts := rfl
@[simp] theorem Dev.acknowledge_gintmsk (d : Dev sh) : (d.acknowledge).gintmsk = d.gintmsk := rfl
@[simp] theorem Dev.acknowledge_rxfd (d : Dev sh) : (d.acknowledge).rxfd = d.rxfd := rfl
@[simp] theorem Dev.acknowledge_txf (d : Dev sh) : (d.acknowledge).txf = d.txf := rfl
@[simp] theorem Dev.acknowledge_dcfg (d : Dev sh) : (d.acknowledge).dcfg = d.dcfg := rfl
@[simp] theorem Dev.acknowledge_dctl (d : Dev sh) : (d.acknowledge).dctl = d.dctl := rfl
@[simp] theorem Dev.acknowledge_diepmsk (d : Dev sh) : (d.acknowledge).diepmsk = d.diepmsk := rfl
@[simp] theorem Dev.acknowledge_doepmsk (d : Dev sh) : (d.acknowledge).doepmsk = d.doepmsk := rfl
@[simp] theorem Dev.acknowledge_daintmsk (d : Dev sh) : (d.acknowledge).daintmsk = d.daintmsk := rfl
@[simp] theorem Dev.acknowledge_diepctl (d : Dev sh) : (d.acknowledge).diepctl = d.diepctl := rfl
@[simp] theorem Dev.acknowledge_diepint (d : Dev sh) : (d.acknowledge).diepint = d.diepint := rfl
@[simp] theorem Dev.acknowledge_dieptsiz (d : Dev sh) : (d.acknowledge).dieptsiz = d.dieptsiz := rfl
@[simp] theorem Dev.acknowledge_doepctl (d : Dev sh) : (d.acknowledge).doepctl = d.doepctl := rfl
@[simp] theorem Dev.acknowledge_doepint (d : Dev sh) : (d.acknowledge).doepint = d.doepint := rfl
@[simp] theorem Dev.acknowledge_rxq (d : Dev sh) : (d.acknowledge).rxq = d.rxq := rfl
@[simp] theorem Dev.acknowledge_txq (d : Dev sh) : (d.acknowledge).txq = d.txq := rfl
@[simp] theorem Dev.acknowledge_fault (d : Dev sh) : (d.acknowledge).fault = d.fault := rfl
@[simp] theorem Dev.acknowledge_evPending (d : Dev sh) : (d.acknowledge).evPending = none := rfl
@[simp] theorem Dev.acknowledge_evlog (d : Dev sh) : (d.acknowledge).evlog = d.evlog := rfl
@[simp] theorem Dev.acknowledge_wireTx (d : Dev sh) : (d.acknowledge).wireTx = d.wireTx := rfl
@[simp] theorem Dev.acknowledge_mem (d : Dev sh) : (d.acknowledge).mem = d.mem := rfl
@[simp] theorem Dev.acknowledge_draws (d : Dev sh) : (d.acknowledge).draws = d.draws := rfl
@[simp] theorem Dev.acknowledge_overlap (d : Dev sh) : (d.acknowledge).overlap = d.overlap := rfl

/-! ## R94: a byte is stored. -/

@[simp] theorem Dev.memWrite_cfg (d : Dev sh) (a : Word) (b : Byte) : (d.memWrite a b).cfg = d.cfg := rfl
@[simp] theorem Dev.memWrite_gint (d : Dev sh) (a : Word) (b : Byte) : (d.memWrite a b).gint = d.gint := rfl
@[simp] theorem Dev.memWrite_grstctl (d : Dev sh) (a : Word) (b : Byte) : (d.memWrite a b).grstctl = d.grstctl := rfl
@[simp] theorem Dev.memWrite_gintsts (d : Dev sh) (a : Word) (b : Byte) : (d.memWrite a b).gintsts = d.gintsts := rfl
@[simp] theorem Dev.memWrite_gintmsk (d : Dev sh) (a : Word) (b : Byte) : (d.memWrite a b).gintmsk = d.gintmsk := rfl
@[simp] theorem Dev.memWrite_rxfd (d : Dev sh) (a : Word) (b : Byte) : (d.memWrite a b).rxfd = d.rxfd := rfl
@[simp] theorem Dev.memWrite_txf (d : Dev sh) (a : Word) (b : Byte) : (d.memWrite a b).txf = d.txf := rfl
@[simp] theorem Dev.memWrite_dcfg (d : Dev sh) (a : Word) (b : Byte) : (d.memWrite a b).dcfg = d.dcfg := rfl
@[simp] theorem Dev.memWrite_dctl (d : Dev sh) (a : Word) (b : Byte) : (d.memWrite a b).dctl = d.dctl := rfl
@[simp] theorem Dev.memWrite_diepmsk (d : Dev sh) (a : Word) (b : Byte) : (d.memWrite a b).diepmsk = d.diepmsk := rfl
@[simp] theorem Dev.memWrite_doepmsk (d : Dev sh) (a : Word) (b : Byte) : (d.memWrite a b).doepmsk = d.doepmsk := rfl
@[simp] theorem Dev.memWrite_daintmsk (d : Dev sh) (a : Word) (b : Byte) : (d.memWrite a b).daintmsk = d.daintmsk := rfl
@[simp] theorem Dev.memWrite_diepctl (d : Dev sh) (a : Word) (b : Byte) : (d.memWrite a b).diepctl = d.diepctl := rfl
@[simp] theorem Dev.memWrite_diepint (d : Dev sh) (a : Word) (b : Byte) : (d.memWrite a b).diepint = d.diepint := rfl
@[simp] theorem Dev.memWrite_dieptsiz (d : Dev sh) (a : Word) (b : Byte) : (d.memWrite a b).dieptsiz = d.dieptsiz := rfl
@[simp] theorem Dev.memWrite_doepctl (d : Dev sh) (a : Word) (b : Byte) : (d.memWrite a b).doepctl = d.doepctl := rfl
@[simp] theorem Dev.memWrite_doepint (d : Dev sh) (a : Word) (b : Byte) : (d.memWrite a b).doepint = d.doepint := rfl
@[simp] theorem Dev.memWrite_rxq (d : Dev sh) (a : Word) (b : Byte) : (d.memWrite a b).rxq = d.rxq := rfl
@[simp] theorem Dev.memWrite_txq (d : Dev sh) (a : Word) (b : Byte) : (d.memWrite a b).txq = d.txq := rfl
@[simp] theorem Dev.memWrite_fault (d : Dev sh) (a : Word) (b : Byte) : (d.memWrite a b).fault = d.fault := rfl
@[simp] theorem Dev.memWrite_evPending (d : Dev sh) (a : Word) (b : Byte) :
    (d.memWrite a b).evPending = d.evPending := rfl
@[simp] theorem Dev.memWrite_evlog (d : Dev sh) (a : Word) (b : Byte) : (d.memWrite a b).evlog = d.evlog := rfl
@[simp] theorem Dev.memWrite_wireTx (d : Dev sh) (a : Word) (b : Byte) : (d.memWrite a b).wireTx = d.wireTx := rfl
@[simp] theorem Dev.memWrite_mem (d : Dev sh) (a : Word) (b : Byte) :
    (d.memWrite a b).mem = Memory.write d.mem a.toNat b := rfl
@[simp] theorem Dev.memWrite_draws (d : Dev sh) (a : Word) (b : Byte) : (d.memWrite a b).draws = d.draws := rfl
@[simp] theorem Dev.memWrite_overlap (d : Dev sh) (a : Word) (b : Byte) : (d.memWrite a b).overlap = d.overlap := rfl

/-! ## R144, R147: FIFO contents that became unspecified. -/

@[simp] theorem Dev.blurMoved_cfg (d : Dev sh) (rm : Bool) (tm : Nat → Bool) : (d.blurMoved rm tm).cfg = d.cfg := rfl
@[simp] theorem Dev.blurMoved_gint (d : Dev sh) (rm : Bool) (tm : Nat → Bool) : (d.blurMoved rm tm).gint = d.gint := rfl
@[simp] theorem Dev.blurMoved_grstctl (d : Dev sh) (rm : Bool) (tm : Nat → Bool) :
    (d.blurMoved rm tm).grstctl = d.grstctl := rfl
@[simp] theorem Dev.blurMoved_gintsts (d : Dev sh) (rm : Bool) (tm : Nat → Bool) :
    (d.blurMoved rm tm).gintsts = d.gintsts := rfl
@[simp] theorem Dev.blurMoved_gintmsk (d : Dev sh) (rm : Bool) (tm : Nat → Bool) :
    (d.blurMoved rm tm).gintmsk = d.gintmsk := rfl
@[simp] theorem Dev.blurMoved_rxfd (d : Dev sh) (rm : Bool) (tm : Nat → Bool) : (d.blurMoved rm tm).rxfd = d.rxfd := rfl
@[simp] theorem Dev.blurMoved_txf (d : Dev sh) (rm : Bool) (tm : Nat → Bool) : (d.blurMoved rm tm).txf = d.txf := rfl
@[simp] theorem Dev.blurMoved_dcfg (d : Dev sh) (rm : Bool) (tm : Nat → Bool) : (d.blurMoved rm tm).dcfg = d.dcfg := rfl
@[simp] theorem Dev.blurMoved_dctl (d : Dev sh) (rm : Bool) (tm : Nat → Bool) : (d.blurMoved rm tm).dctl = d.dctl := rfl
@[simp] theorem Dev.blurMoved_diepmsk (d : Dev sh) (rm : Bool) (tm : Nat → Bool) :
    (d.blurMoved rm tm).diepmsk = d.diepmsk := rfl
@[simp] theorem Dev.blurMoved_doepmsk (d : Dev sh) (rm : Bool) (tm : Nat → Bool) :
    (d.blurMoved rm tm).doepmsk = d.doepmsk := rfl
@[simp] theorem Dev.blurMoved_daintmsk (d : Dev sh) (rm : Bool) (tm : Nat → Bool) :
    (d.blurMoved rm tm).daintmsk = d.daintmsk := rfl
@[simp] theorem Dev.blurMoved_diepctl (d : Dev sh) (rm : Bool) (tm : Nat → Bool) :
    (d.blurMoved rm tm).diepctl = d.diepctl := rfl
@[simp] theorem Dev.blurMoved_diepint (d : Dev sh) (rm : Bool) (tm : Nat → Bool) :
    (d.blurMoved rm tm).diepint = d.diepint := rfl
@[simp] theorem Dev.blurMoved_dieptsiz (d : Dev sh) (rm : Bool) (tm : Nat → Bool) :
    (d.blurMoved rm tm).dieptsiz = d.dieptsiz := rfl
@[simp] theorem Dev.blurMoved_doepctl (d : Dev sh) (rm : Bool) (tm : Nat → Bool) :
    (d.blurMoved rm tm).doepctl = d.doepctl := rfl
@[simp] theorem Dev.blurMoved_doepint (d : Dev sh) (rm : Bool) (tm : Nat → Bool) :
    (d.blurMoved rm tm).doepint = d.doepint := rfl
@[simp] theorem Dev.blurMoved_rxq (d : Dev sh) (rm : Bool) (tm : Nat → Bool) :
    (d.blurMoved rm tm).rxq = blurRx (rm || !d.layoutFits) d.draws 0 d.rxq := rfl
@[simp] theorem Dev.blurMoved_txq (d : Dev sh) (rm : Bool) (tm : Nat → Bool) :
    (d.blurMoved rm tm).txq = d.txq.mapIdx fun e q => blurTx (tm e || !d.layoutFits) d.draws e 0 q := rfl
@[simp] theorem Dev.blurMoved_fault (d : Dev sh) (rm : Bool) (tm : Nat → Bool) :
    (d.blurMoved rm tm).fault = d.fault := rfl
@[simp] theorem Dev.blurMoved_evPending (d : Dev sh) (rm : Bool) (tm : Nat → Bool) :
    (d.blurMoved rm tm).evPending = d.evPending := rfl
@[simp] theorem Dev.blurMoved_evlog (d : Dev sh) (rm : Bool) (tm : Nat → Bool) :
    (d.blurMoved rm tm).evlog = d.evlog := rfl
@[simp] theorem Dev.blurMoved_wireTx (d : Dev sh) (rm : Bool) (tm : Nat → Bool) :
    (d.blurMoved rm tm).wireTx = d.wireTx := rfl
@[simp] theorem Dev.blurMoved_mem (d : Dev sh) (rm : Bool) (tm : Nat → Bool) : (d.blurMoved rm tm).mem = d.mem := rfl
@[simp] theorem Dev.blurMoved_draws (d : Dev sh) (rm : Bool) (tm : Nat → Bool) :
    (d.blurMoved rm tm).draws = d.draws + 1 := rfl
@[simp] theorem Dev.blurMoved_overlap (d : Dev sh) (rm : Bool) (tm : Nat → Bool) :
    (d.blurMoved rm tm).overlap = (d.overlap || !d.layoutFits) := rfl

/-! ## R144, R326: LayoutFits false; the FIFOs, `draws` and `overlap` are in Laws/Ops.lean. -/

@[simp] theorem Dev.loseIf_cfg (d : Dev sh) (lost : Bool) : (d.loseIf lost).cfg = d.cfg := by cases lost <;> rfl
@[simp] theorem Dev.loseIf_gint (d : Dev sh) (lost : Bool) : (d.loseIf lost).gint = d.gint := by cases lost <;> rfl
@[simp] theorem Dev.loseIf_grstctl (d : Dev sh) (lost : Bool) : (d.loseIf lost).grstctl = d.grstctl := by cases lost <;> rfl
@[simp] theorem Dev.loseIf_gintsts (d : Dev sh) (lost : Bool) : (d.loseIf lost).gintsts = d.gintsts := by cases lost <;> rfl
@[simp] theorem Dev.loseIf_gintmsk (d : Dev sh) (lost : Bool) : (d.loseIf lost).gintmsk = d.gintmsk := by cases lost <;> rfl
@[simp] theorem Dev.loseIf_rxfd (d : Dev sh) (lost : Bool) : (d.loseIf lost).rxfd = d.rxfd := by cases lost <;> rfl
@[simp] theorem Dev.loseIf_txf (d : Dev sh) (lost : Bool) : (d.loseIf lost).txf = d.txf := by cases lost <;> rfl
@[simp] theorem Dev.loseIf_dcfg (d : Dev sh) (lost : Bool) : (d.loseIf lost).dcfg = d.dcfg := by cases lost <;> rfl
@[simp] theorem Dev.loseIf_dctl (d : Dev sh) (lost : Bool) : (d.loseIf lost).dctl = d.dctl := by cases lost <;> rfl
@[simp] theorem Dev.loseIf_diepmsk (d : Dev sh) (lost : Bool) : (d.loseIf lost).diepmsk = d.diepmsk := by cases lost <;> rfl
@[simp] theorem Dev.loseIf_doepmsk (d : Dev sh) (lost : Bool) : (d.loseIf lost).doepmsk = d.doepmsk := by cases lost <;> rfl
@[simp] theorem Dev.loseIf_daintmsk (d : Dev sh) (lost : Bool) : (d.loseIf lost).daintmsk = d.daintmsk := by cases lost <;> rfl
@[simp] theorem Dev.loseIf_diepctl (d : Dev sh) (lost : Bool) : (d.loseIf lost).diepctl = d.diepctl := by cases lost <;> rfl
@[simp] theorem Dev.loseIf_diepint (d : Dev sh) (lost : Bool) : (d.loseIf lost).diepint = d.diepint := by cases lost <;> rfl
@[simp] theorem Dev.loseIf_dieptsiz (d : Dev sh) (lost : Bool) : (d.loseIf lost).dieptsiz = d.dieptsiz := by cases lost <;> rfl
@[simp] theorem Dev.loseIf_doepctl (d : Dev sh) (lost : Bool) : (d.loseIf lost).doepctl = d.doepctl := by cases lost <;> rfl
@[simp] theorem Dev.loseIf_doepint (d : Dev sh) (lost : Bool) : (d.loseIf lost).doepint = d.doepint := by cases lost <;> rfl
@[simp] theorem Dev.loseIf_fault (d : Dev sh) (lost : Bool) : (d.loseIf lost).fault = d.fault := by cases lost <;> rfl
@[simp] theorem Dev.loseIf_evPending (d : Dev sh) (lost : Bool) : (d.loseIf lost).evPending = d.evPending := by cases lost <;> rfl
@[simp] theorem Dev.loseIf_evlog (d : Dev sh) (lost : Bool) : (d.loseIf lost).evlog = d.evlog := by cases lost <;> rfl
@[simp] theorem Dev.loseIf_wireTx (d : Dev sh) (lost : Bool) : (d.loseIf lost).wireTx = d.wireTx := by cases lost <;> rfl
@[simp] theorem Dev.loseIf_mem (d : Dev sh) (lost : Bool) : (d.loseIf lost).mem = d.mem := by cases lost <;> rfl

/-! ## Words enter RXQ. -/

@[simp] theorem Dev.rxAppend_cfg (d : Dev sh) (xs : List (RxWord sh)) : (d.rxAppend xs).cfg = d.cfg := rfl
@[simp] theorem Dev.rxAppend_gint (d : Dev sh) (xs : List (RxWord sh)) : (d.rxAppend xs).gint = d.gint := rfl
@[simp] theorem Dev.rxAppend_grstctl (d : Dev sh) (xs : List (RxWord sh)) : (d.rxAppend xs).grstctl = d.grstctl := rfl
@[simp] theorem Dev.rxAppend_gintsts (d : Dev sh) (xs : List (RxWord sh)) : (d.rxAppend xs).gintsts = d.gintsts := rfl
@[simp] theorem Dev.rxAppend_gintmsk (d : Dev sh) (xs : List (RxWord sh)) : (d.rxAppend xs).gintmsk = d.gintmsk := rfl
@[simp] theorem Dev.rxAppend_rxfd (d : Dev sh) (xs : List (RxWord sh)) : (d.rxAppend xs).rxfd = d.rxfd := rfl
@[simp] theorem Dev.rxAppend_txf (d : Dev sh) (xs : List (RxWord sh)) : (d.rxAppend xs).txf = d.txf := rfl
@[simp] theorem Dev.rxAppend_dcfg (d : Dev sh) (xs : List (RxWord sh)) : (d.rxAppend xs).dcfg = d.dcfg := rfl
@[simp] theorem Dev.rxAppend_dctl (d : Dev sh) (xs : List (RxWord sh)) : (d.rxAppend xs).dctl = d.dctl := rfl
@[simp] theorem Dev.rxAppend_diepmsk (d : Dev sh) (xs : List (RxWord sh)) : (d.rxAppend xs).diepmsk = d.diepmsk := rfl
@[simp] theorem Dev.rxAppend_doepmsk (d : Dev sh) (xs : List (RxWord sh)) : (d.rxAppend xs).doepmsk = d.doepmsk := rfl
@[simp] theorem Dev.rxAppend_daintmsk (d : Dev sh) (xs : List (RxWord sh)) :
    (d.rxAppend xs).daintmsk = d.daintmsk := rfl
@[simp] theorem Dev.rxAppend_diepctl (d : Dev sh) (xs : List (RxWord sh)) : (d.rxAppend xs).diepctl = d.diepctl := rfl
@[simp] theorem Dev.rxAppend_diepint (d : Dev sh) (xs : List (RxWord sh)) : (d.rxAppend xs).diepint = d.diepint := rfl
@[simp] theorem Dev.rxAppend_dieptsiz (d : Dev sh) (xs : List (RxWord sh)) :
    (d.rxAppend xs).dieptsiz = d.dieptsiz := rfl
@[simp] theorem Dev.rxAppend_doepctl (d : Dev sh) (xs : List (RxWord sh)) : (d.rxAppend xs).doepctl = d.doepctl := rfl
@[simp] theorem Dev.rxAppend_doepint (d : Dev sh) (xs : List (RxWord sh)) : (d.rxAppend xs).doepint = d.doepint := rfl
@[simp] theorem Dev.rxAppend_rxq (d : Dev sh) (xs : List (RxWord sh)) :
    (d.rxAppend xs).rxq = d.rxq ++ blurRx d.overlap d.draws d.rxq.length xs := rfl
@[simp] theorem Dev.rxAppend_txq (d : Dev sh) (xs : List (RxWord sh)) : (d.rxAppend xs).txq = d.txq := rfl
@[simp] theorem Dev.rxAppend_fault (d : Dev sh) (xs : List (RxWord sh)) : (d.rxAppend xs).fault = d.fault := rfl
@[simp] theorem Dev.rxAppend_evPending (d : Dev sh) (xs : List (RxWord sh)) :
    (d.rxAppend xs).evPending = d.evPending := rfl
@[simp] theorem Dev.rxAppend_evlog (d : Dev sh) (xs : List (RxWord sh)) : (d.rxAppend xs).evlog = d.evlog := rfl
@[simp] theorem Dev.rxAppend_wireTx (d : Dev sh) (xs : List (RxWord sh)) : (d.rxAppend xs).wireTx = d.wireTx := rfl
@[simp] theorem Dev.rxAppend_mem (d : Dev sh) (xs : List (RxWord sh)) : (d.rxAppend xs).mem = d.mem := rfl
@[simp] theorem Dev.rxAppend_draws (d : Dev sh) (xs : List (RxWord sh)) : (d.rxAppend xs).draws = d.draws + 1 := rfl
@[simp] theorem Dev.rxAppend_overlap (d : Dev sh) (xs : List (RxWord sh)) : (d.rxAppend xs).overlap = d.overlap := rfl

/-! ## Words enter TXQ[e]. -/

@[simp] theorem Dev.txAppend_cfg (d : Dev sh) (e : Nat) (ws : List (RegWord sh)) : (d.txAppend e ws).cfg = d.cfg := rfl
@[simp] theorem Dev.txAppend_gint (d : Dev sh) (e : Nat) (ws : List (RegWord sh)) :
    (d.txAppend e ws).gint = d.gint := rfl
@[simp] theorem Dev.txAppend_grstctl (d : Dev sh) (e : Nat) (ws : List (RegWord sh)) :
    (d.txAppend e ws).grstctl = d.grstctl := rfl
@[simp] theorem Dev.txAppend_gintsts (d : Dev sh) (e : Nat) (ws : List (RegWord sh)) :
    (d.txAppend e ws).gintsts = d.gintsts := rfl
@[simp] theorem Dev.txAppend_gintmsk (d : Dev sh) (e : Nat) (ws : List (RegWord sh)) :
    (d.txAppend e ws).gintmsk = d.gintmsk := rfl
@[simp] theorem Dev.txAppend_rxfd (d : Dev sh) (e : Nat) (ws : List (RegWord sh)) :
    (d.txAppend e ws).rxfd = d.rxfd := rfl
@[simp] theorem Dev.txAppend_txf (d : Dev sh) (e : Nat) (ws : List (RegWord sh)) : (d.txAppend e ws).txf = d.txf := rfl
@[simp] theorem Dev.txAppend_dcfg (d : Dev sh) (e : Nat) (ws : List (RegWord sh)) :
    (d.txAppend e ws).dcfg = d.dcfg := rfl
@[simp] theorem Dev.txAppend_dctl (d : Dev sh) (e : Nat) (ws : List (RegWord sh)) :
    (d.txAppend e ws).dctl = d.dctl := rfl
@[simp] theorem Dev.txAppend_diepmsk (d : Dev sh) (e : Nat) (ws : List (RegWord sh)) :
    (d.txAppend e ws).diepmsk = d.diepmsk := rfl
@[simp] theorem Dev.txAppend_doepmsk (d : Dev sh) (e : Nat) (ws : List (RegWord sh)) :
    (d.txAppend e ws).doepmsk = d.doepmsk := rfl
@[simp] theorem Dev.txAppend_daintmsk (d : Dev sh) (e : Nat) (ws : List (RegWord sh)) :
    (d.txAppend e ws).daintmsk = d.daintmsk := rfl
@[simp] theorem Dev.txAppend_diepctl (d : Dev sh) (e : Nat) (ws : List (RegWord sh)) :
    (d.txAppend e ws).diepctl = d.diepctl := rfl
@[simp] theorem Dev.txAppend_diepint (d : Dev sh) (e : Nat) (ws : List (RegWord sh)) :
    (d.txAppend e ws).diepint = d.diepint := rfl
@[simp] theorem Dev.txAppend_dieptsiz (d : Dev sh) (e : Nat) (ws : List (RegWord sh)) :
    (d.txAppend e ws).dieptsiz = d.dieptsiz := rfl
@[simp] theorem Dev.txAppend_doepctl (d : Dev sh) (e : Nat) (ws : List (RegWord sh)) :
    (d.txAppend e ws).doepctl = d.doepctl := rfl
@[simp] theorem Dev.txAppend_doepint (d : Dev sh) (e : Nat) (ws : List (RegWord sh)) :
    (d.txAppend e ws).doepint = d.doepint := rfl
@[simp] theorem Dev.txAppend_rxq (d : Dev sh) (e : Nat) (ws : List (RegWord sh)) : (d.txAppend e ws).rxq = d.rxq := rfl
@[simp] theorem Dev.txAppend_txq (d : Dev sh) (e : Nat) (ws : List (RegWord sh)) :
    (d.txAppend e ws).txq = setSlot d.txq e (slot d.txq e ++ blurTx d.overlap d.draws e (slot d.txq e).length ws) := rfl
@[simp] theorem Dev.txAppend_fault (d : Dev sh) (e : Nat) (ws : List (RegWord sh)) :
    (d.txAppend e ws).fault = d.fault := rfl
@[simp] theorem Dev.txAppend_evPending (d : Dev sh) (e : Nat) (ws : List (RegWord sh)) :
    (d.txAppend e ws).evPending = d.evPending := rfl
@[simp] theorem Dev.txAppend_evlog (d : Dev sh) (e : Nat) (ws : List (RegWord sh)) :
    (d.txAppend e ws).evlog = d.evlog := rfl
@[simp] theorem Dev.txAppend_wireTx (d : Dev sh) (e : Nat) (ws : List (RegWord sh)) :
    (d.txAppend e ws).wireTx = d.wireTx := rfl
@[simp] theorem Dev.txAppend_mem (d : Dev sh) (e : Nat) (ws : List (RegWord sh)) : (d.txAppend e ws).mem = d.mem := rfl
@[simp] theorem Dev.txAppend_draws (d : Dev sh) (e : Nat) (ws : List (RegWord sh)) :
    (d.txAppend e ws).draws = d.draws + 1 := rfl
@[simp] theorem Dev.txAppend_overlap (d : Dev sh) (e : Nat) (ws : List (RegWord sh)) :
    (d.txAppend e ws).overlap = d.overlap := rfl

/-! ## R258. -/

@[simp] theorem Dev.outStopped_cfg (d : Dev sh) (e : Nat) : (d.outStopped e).cfg = d.cfg := rfl
@[simp] theorem Dev.outStopped_gint (d : Dev sh) (e : Nat) : (d.outStopped e).gint = d.gint := rfl
@[simp] theorem Dev.outStopped_grstctl (d : Dev sh) (e : Nat) : (d.outStopped e).grstctl = d.grstctl := rfl
@[simp] theorem Dev.outStopped_gintsts (d : Dev sh) (e : Nat) : (d.outStopped e).gintsts = d.gintsts := rfl
@[simp] theorem Dev.outStopped_gintmsk (d : Dev sh) (e : Nat) : (d.outStopped e).gintmsk = d.gintmsk := rfl
@[simp] theorem Dev.outStopped_rxfd (d : Dev sh) (e : Nat) : (d.outStopped e).rxfd = d.rxfd := rfl
@[simp] theorem Dev.outStopped_txf (d : Dev sh) (e : Nat) : (d.outStopped e).txf = d.txf := rfl
@[simp] theorem Dev.outStopped_dcfg (d : Dev sh) (e : Nat) : (d.outStopped e).dcfg = d.dcfg := rfl
@[simp] theorem Dev.outStopped_dctl (d : Dev sh) (e : Nat) : (d.outStopped e).dctl = d.dctl := rfl
@[simp] theorem Dev.outStopped_diepmsk (d : Dev sh) (e : Nat) : (d.outStopped e).diepmsk = d.diepmsk := rfl
@[simp] theorem Dev.outStopped_doepmsk (d : Dev sh) (e : Nat) : (d.outStopped e).doepmsk = d.doepmsk := rfl
@[simp] theorem Dev.outStopped_daintmsk (d : Dev sh) (e : Nat) : (d.outStopped e).daintmsk = d.daintmsk := rfl
@[simp] theorem Dev.outStopped_diepctl (d : Dev sh) (e : Nat) : (d.outStopped e).diepctl = d.diepctl := rfl
@[simp] theorem Dev.outStopped_diepint (d : Dev sh) (e : Nat) : (d.outStopped e).diepint = d.diepint := rfl
@[simp] theorem Dev.outStopped_dieptsiz (d : Dev sh) (e : Nat) : (d.outStopped e).dieptsiz = d.dieptsiz := rfl
@[simp] theorem Dev.outStopped_doepctl (d : Dev sh) (e : Nat) :
    (d.outStopped e).doepctl = setSlot d.doepctl e { slot d.doepctl e with epena := false, naksts := true } := rfl
@[simp] theorem Dev.outStopped_doepint (d : Dev sh) (e : Nat) : (d.outStopped e).doepint = d.doepint := rfl
@[simp] theorem Dev.outStopped_rxq (d : Dev sh) (e : Nat) : (d.outStopped e).rxq = d.rxq := rfl
@[simp] theorem Dev.outStopped_txq (d : Dev sh) (e : Nat) : (d.outStopped e).txq = d.txq := rfl
@[simp] theorem Dev.outStopped_fault (d : Dev sh) (e : Nat) : (d.outStopped e).fault = d.fault := rfl
@[simp] theorem Dev.outStopped_evPending (d : Dev sh) (e : Nat) : (d.outStopped e).evPending = d.evPending := rfl
@[simp] theorem Dev.outStopped_evlog (d : Dev sh) (e : Nat) : (d.outStopped e).evlog = d.evlog := rfl
@[simp] theorem Dev.outStopped_wireTx (d : Dev sh) (e : Nat) : (d.outStopped e).wireTx = d.wireTx := rfl
@[simp] theorem Dev.outStopped_mem (d : Dev sh) (e : Nat) : (d.outStopped e).mem = d.mem := rfl
@[simp] theorem Dev.outStopped_draws (d : Dev sh) (e : Nat) : (d.outStopped e).draws = d.draws := rfl
@[simp] theorem Dev.outStopped_overlap (d : Dev sh) (e : Nat) : (d.outStopped e).overlap = d.overlap := rfl

end Sys2Proof.Machine
end

