-- ==== Sys2Proof/Laws/Drive.lean ====
section
/-! SUPPORT. The induction over the turns of a command while the other agents move: what every access step and every
move of the script keeps, the whole command keeps (spec/20_memory.md R96 to R98). -/

namespace Sys2Proof.Machine

/-! ## One turn -/

/-- What a turn can be: an access step of CORE, with or without a script entry that gives it the turn, or a move of
another agent, or a script entry `pause`, which `drive` takes itself. -/
theorem turn_cases (s : State) (ha : s.seq.accepting = false) :
    (turn s = coreStep s) ∨
    (∃ rest, s.inputs = .core .one :: rest ∧ turn s = coreStep { s with inputs := rest }) ∨
    (∃ i rest, s.inputs = i :: rest ∧ i ≠ .host .ack ∧ (∀ c, i ≠ .core c) ∧
      turn s = applyInput i { s with inputs := rest }) ∨
    (∃ rest, s.inputs = .core .pause :: rest ∧ turn s = { s with inputs := rest }) := by
  unfold turn
  split
  · exact .inl rfl
  · next rest h => exact .inr (.inl ⟨rest, h, rfl⟩)
  · exact .inl rfl
  · exact .inl rfl
  · next i rest h1 h2 h3 h =>
    by_cases hp : i = .core .pause
    · subst hp; exact .inr (.inr (.inr ⟨rest, h, rfl⟩))
    · refine .inr (.inr (.inl ⟨i, rest, h, fun hx => h3 (by rw [hx]), fun c hc => ?_, rfl⟩))
      subst hc
      cases c with
      | one => exact h1 rfl
      | finish => exact h2 rfl
      | pause => exact hp rfl

/-- Induction over the turns of a command. -/
theorem drive_induct {ok : Input .hardware → Prop} {P : State → Prop} (hin : ∀ s l, P s → P { s with inputs := l })
    (hcore : ∀ s, s.seq.accepting = false → P s → P (coreStep s))
    (happ : ∀ i s, ok i → s.seq.accepting = false → P s → P (applyInput i s)) :
    ∀ n s, (∀ x ∈ s.inputs, ok x) → P s → P (drive n s) := by
  intro n
  induction n with
  | zero => intro s _ h; exact h
  | succ n ih =>
    intro s hok h
    unfold drive
    by_cases ha : s.seq.accepting = true
    · rw [if_pos ha]; exact h
    · rw [if_neg ha]
      rw [Bool.not_eq_true] at ha
      split
      · exact hin _ _ h
      · have hinputs : ∀ s : State, (coreStep s).inputs = s.inputs := by
          intro s; unfold coreStep; split <;> rfl
        rcases turn_cases s ha with ht | ⟨rest, hr, ht⟩ | ⟨i, rest, hr, -, -, ht⟩ | ⟨rest, hr, ht⟩
        · rw [ht]; exact ih _ (by rw [hinputs]; exact hok) (hcore _ ha h)
        · rw [ht]
          refine ih _ (by rw [hinputs]; exact fun x hx => hok x (by rw [hr]; exact .tail _ hx)) ?_
          exact hcore { s with inputs := rest } ha (hin _ _ h)
        · rw [ht]
          refine ih _ ?_ (happ i { s with inputs := rest } (hok i (by rw [hr]; exact .head _)) ha (hin _ _ h))
          have : (applyInput i { s with inputs := rest }).inputs = rest := by
            cases i with
            | host m => cases m <;> try rfl
                        simp only [applyInput, State.At.ackEvent]; split <;> rfl
            | _ => rfl
          rw [this]; exact fun x hx => hok x (by rw [hr]; exact .tail _ hx)
        · rw [ht]
          exact ih _ (fun x hx => hok x (by rw [hr]; exact .tail _ hx)) (hin _ _ h)

/-! ## What the access steps of a command keep of the device -/

/-- An access step puts only steps with the property before the rest. -/
def Hereditary (q : AccessStep .hardware → Prop) : Prop :=
  ∀ t d more, q t → (perform t d).2 = .go more → ∀ x ∈ more, q x

/-- A property of the device that the access steps of the command in progress and the moves of the script keep. -/
theorem drive_dev {ok : Input .hardware → Prop} {q : AccessStep .hardware → Prop} {P : Dev .hardware → Prop} (hq : Hereditary q)
    (hperf : ∀ t d, q t → P d → P (perform t d).1)
    (happ : ∀ i s, ok i → s.seq.accepting = false → P s.dev → P (applyInput i s).dev) :
    ∀ n s, (∀ x ∈ s.inputs, ok x) → (∀ x ∈ s.seq.todo, q x) → P s.dev → P (drive n s).dev := by
  intro n s hok hs hp
  refine (drive_induct (ok := ok) (P := fun s => (∀ x ∈ s.seq.todo, q x) ∧ P s.dev) (fun _ _ h => h) ?_ ?_ n s hok
    ⟨hs, hp⟩).2
  · rintro ⟨d, seq, port, inputs⟩ ha ⟨hs, hp⟩
    cases seq with
    | idle => simp at ha
    | waitAck _ _ => simp at ha
    | run cmd todo =>
      cases todo with
      | nil => exact ⟨by simp [coreStep, Seq.todo], hp⟩
      | cons t rest =>
        refine ⟨?_, hperf t d (hs t (.head _)) hp⟩
        simp only [coreStep]
        cases hm : (perform t d).2 with
        | go more =>
          intro x hx
          simp only [Seq.todo_running] at hx
          rcases List.mem_append.mp hx with hx | hx
          · exact hq t d more (hs t (.head _)) hm x hx
          · exact hs x (.tail _ hx)
        | wait => simp [Seq.todo]
    | nested o ot cmd todo =>
      cases todo with
      | nil => exact ⟨by simp [coreStep, Seq.todo], hp⟩
      | cons t rest =>
        refine ⟨?_, hperf t d (hs t (.head _)) hp⟩
        simp only [coreStep]
        cases hm : (perform t d).2 with
        | go more =>
          intro x hx
          simp only [Seq.todo_nesting] at hx
          rcases List.mem_append.mp hx with hx | hx
          · exact hq t d more (hs t (.head _)) hm x hx
          · exact hs x (.tail _ hx)
        | wait =>
          intro x hx
          simp only [Seq.todo_nesting] at hx
          exact hs x (.tail _ hx)
  · rintro i s hi ha ⟨hs, hp⟩
    refine ⟨?_, happ i s hi ha hp⟩
    cases i with
    | host m =>
      cases m with
      | ack =>
        simp only [applyInput, State.At.ackEvent]
        split
        · exact hs
        · exact hs
        · next h => rw [h] at ha; simp at ha
        · exact hs
      | _ => exact hs
    | reset => intro x hx; simp [applyInput, State.At.hardReset, Seq.todo] at hx
    | _ => exact hs

/-! ## From a command to a step -/

/-- The access steps of a command whose `pre:` lines hold. -/
def commandSteps (c : Config .hardware) : Instr → List (AccessStep .hardware)
  | .setRxFifoSize size => setRxFifoSizeSteps c size
  | .setTxFifoSize ep size => setTxFifoSizeSteps ep size
  | .activateControlEp mps => activateControlSteps c mps
  | .activateInEp ep t mps => activateInSteps ep t mps
  | .deactivateEp ep => deactivateSteps ep none
  | .deactivateAll => deactivateAllSteps c none
  | .flushRx => [.flushRx]
  | .flushTx ep => [.flushTx ep]
  | .readPacket size ba => readPacketSteps size ba
  | .writePacket ep size ba => writePacketSteps ep size ba
  | .poll => pollSteps
  | .initCore => initCoreSteps
  | .setAddress addr => setAddressSteps addr
  | .connect => connectSteps
  | .disconnect => disconnectSteps

/-- A command takes a fault before its first access step, or runs its access steps. -/
theorem exec_cases (i : Instr) (s : State) :
    (∃ c, exec i s = takeFault c s) ∨ exec i s = issue i (commandSteps s.dev.cfg i) s := by
  cases i with
  | setRxFifoSize size => exact .inr rfl
  | setTxFifoSize ep size =>
    simp only [exec, execSetTxFifoSize]
    split
    · exact .inr rfl
    · exact .inl ⟨_, rfl⟩
  | activateControlEp mps =>
    simp only [exec, execActivateControlEp]
    split
    · exact .inr rfl
    · exact .inl ⟨_, rfl⟩
  | activateInEp ep t mps =>
    simp only [exec, execActivateInEp]
    split
    · split
      · exact .inr rfl
      · exact .inl ⟨_, rfl⟩
    · exact .inl ⟨_, rfl⟩
  | deactivateEp ep =>
    simp only [exec, execDeactivateEp]
    split
    · exact .inr rfl
    · exact .inl ⟨_, rfl⟩
  | deactivateAll => exact .inr rfl
  | flushRx => exact .inr rfl
  | flushTx ep =>
    simp only [exec, execFlushTx]
    split
    · exact .inr rfl
    · exact .inl ⟨_, rfl⟩
  | readPacket size ba => exact .inr rfl
  | writePacket ep size ba =>
    simp only [exec, execWritePacket]
    split
    · exact .inr rfl
    · exact .inl ⟨_, rfl⟩
  | poll =>
    cases hs : s.seq <;> simp only [exec, execPoll, hs]
    · exact .inr rfl
    · exact .inr rfl
    · exact .inl ⟨_, rfl⟩
    · exact .inr rfl
  | initCore => exact .inr rfl
  | setAddress addr => exact .inr rfl
  | connect => exact .inr rfl
  | disconnect => exact .inr rfl

/-- What a command keeps of the device, its access steps having the property `q`. -/
theorem exec_dev {ok : Input .hardware → Prop} {q : AccessStep .hardware → Prop} {P : Dev .hardware → Prop} (hq : Hereditary q)
    (hperf : ∀ t d, q t → P d → P (perform t d).1)
    (happ : ∀ i s, ok i → s.seq.accepting = false → P s.dev → P (applyInput i s).dev)
    (hraise : ∀ c d, P d → P (d.raise c)) {i : Instr} {s t : State} (hs : ∀ x ∈ commandSteps s.dev.cfg i, q x)
    (hok : ∀ x ∈ s.inputs, ok x) (h : exec i s = .next t) (hp : P s.dev) : P t.dev := by
  rcases exec_cases i s with ⟨c, hc⟩ | hc
  · rw [hc, takeFault] at h
    split at h
    · injection h with h; subst h; exact hraise c _ hp
    · cases h
  · rw [hc] at h
    obtain ⟨d, seq, port, inputs⟩ := s
    cases seq with
    | idle =>
      injection h with h; subst h
      exact drive_dev hq hperf happ _ _ hok (by rw [Seq.todo_running]; exact hs) hp
    | waitAck o ot =>
      injection h with h; subst h
      exact drive_dev hq hperf happ _ _ hok (by rw [Seq.todo_nesting]; exact hs) hp
    | run _ _ => cases h
    | nested _ _ _ _ => cases h

/-- At this hardware's shape the machine of R7 is the one the step dispatches to. -/
theorem exec_eq_execAt : exec = execAt := by
  funext i s
  cases i <;> rfl

theorem step_eq_stepAt : step = stepAt := by
  funext s
  rw [step, stepAt, exec_eq_execAt]

/-- What every step keeps of the device. -/
theorem step_dev {ok : Input .hardware → Prop} {P : Dev .hardware → Prop} (hperf : ∀ t d, P d → P (perform t d).1)
    (happ : ∀ i s, ok i → P s.dev → P (applyInput i s).dev) (hraise : ∀ c d, P d → P (d.raise c)) {s t : State}
    (hok : ∀ x ∈ s.inputs, ok x) (h : step s = .next t) (hp : P s.dev) : P t.dev := by
  have hq : Hereditary fun _ => True := fun _ _ _ _ _ _ _ => trivial
  unfold step stepWith at h
  split at h
  · next ha =>
    unfold acceptStep at h
    split at h
    · next i rest _ =>
      exact exec_dev (s := { s with port := rest }) hq (fun t d _ => hperf t d) (fun i s hi _ => happ i s hi) hraise
        (fun _ _ => trivial) hok h hp
    · next why rest _ =>
      have ha' : ({ s with port := rest } : State).seq.accepting = true := ha
      rw [takeFault_accepting _ _ ha'] at h
      injection h with h; subst h; exact hraise _ _ hp
    · split at h
      · injection h with h; subst h; exact hp
      · next i rest hi =>
        injection h with h; subst h
        exact happ i _ (hok i (by rw [hi]; exact .head _)) hp
  · injection h with h; subst h
    exact drive_dev hq (fun t d _ => hperf t d) (fun i s hi _ => happ i s hi) _ _ hok (fun _ _ => trivial) hp

end Sys2Proof.Machine
end

