-- ==== Sys2Proof/Laws/Encoding.lean ====
section
/-! SUPPORT. Laws of the command words (spec/30_encoding.md R111 to R116): the fields of a command word that was put
together from its fields, a word taken apart and put together again, and the rows of the opcode map. -/

namespace Sys2Proof

/-- A word is its opcode byte, endpoint, type, two fixed bits and immediate (R111). -/
theorem word_eq_fields (cw : Word) :
    cw = cw.extractLsb' 24 8 ++ cw.extractLsb' 20 4 ++ cw.extractLsb' 18 2 ++ cw.extractLsb' 16 2 ++
      cw.extractLsb' 0 16 := by
  apply BitVec.eq_of_getLsbD_eq
  intro i hi
  have hi : i < 32 := hi
  simp only [BitVec.getLsbD_append, BitVec.getLsbD_extractLsb']
  split
  · simp [*]
  · split
    · rw [show 16 + (i - 16) = i by omega]; simp; omega
    · split
      · rw [show 18 + (i - 16 - 2) = i by omega]; simp; omega
      · split
        · rw [show 20 + (i - 16 - 2 - 2) = i by omega]; simp; omega
        · rw [show 24 + (i - 16 - 2 - 2 - 4) = i by omega]; simp; omega

theorem fields_extract (a : BitVec 8) (b : BitVec 4) (c d : BitVec 2) (e : BitVec 16) :
    (a ++ b ++ c ++ d ++ e : Word).extractLsb' 24 8 = a ∧ (a ++ b ++ c ++ d ++ e : Word).extractLsb' 20 4 = b ∧
    (a ++ b ++ c ++ d ++ e : Word).extractLsb' 18 2 = c ∧ (a ++ b ++ c ++ d ++ e : Word).extractLsb' 16 2 = d ∧
    (a ++ b ++ c ++ d ++ e : Word).extractLsb' 0 16 = e := by
  refine ⟨?_, ?_, ?_, ?_, ?_⟩ <;> apply BitVec.eq_of_getLsbD_eq <;> intro i hi <;>
    simp only [BitVec.getLsbD_append, BitVec.getLsbD_extractLsb', hi, decide_true, Bool.true_and]
  · rw [if_neg (by omega), if_neg (by omega), if_neg (by omega), if_neg (by omega)]; congr 1; omega
  · rw [if_neg (by omega), if_neg (by omega), if_neg (by omega), if_pos (by omega)]; congr 1; omega
  · rw [if_neg (by omega), if_neg (by omega), if_pos (by omega)]; congr 1; omega
  · rw [if_neg (by omega), if_pos (by omega)]; congr 1; omega
  · rw [if_pos (by omega)]; congr 1; omega

/-- The fields of a command word are those it was put together from. -/
theorem commandWord_fields (op ep : Nat) (t : BitVec 2) (imm : Nat) (ho : op < 256) (he : ep < 16) (hi : imm < 65536) :
    opcodeOf (commandWord op ep t imm) = op ∧ epOf (commandWord op ep t imm) = ep ∧
    epTypeOf (commandWord op ep t imm) = epTypeOfCode t ∧ immOf (commandWord op ep t imm) = imm := by
  obtain ⟨h1, h2, h3, -, h4⟩ := fields_extract (BitVec.ofNat 8 op) (BitVec.ofNat 4 ep) t 0#2 (BitVec.ofNat 16 imm)
  unfold commandWord opcodeOf epOf immOf epTypeOf
  rw [h1, h2, h3, h4]
  simp only [BitVec.toNat_ofNat, and_true, true_and]
  omega

/-- A mask of whole fields splits over the fields of a command word. -/
theorem and_fields (a a' : BitVec 8) (b b' : BitVec 4) (c c' d d' : BitVec 2) (e e' : BitVec 16) :
    (a ++ b ++ c ++ d ++ e : Word) &&& (a' ++ b' ++ c' ++ d' ++ e') =
      ((a &&& a') ++ (b &&& b') ++ (c &&& c') ++ (d &&& d') ++ (e &&& e') : Word) := by
  apply BitVec.eq_of_getLsbD_eq
  intro i hi
  simp only [BitVec.getLsbD_and, BitVec.getLsbD_append]
  split
  · rfl
  · split
    · rfl
    · split
      · rfl
      · split
        · rfl
        · rfl

/-- Two command words agree iff their fields do. -/
theorem fields_inj (a a' : BitVec 8) (b b' : BitVec 4) (c c' d d' : BitVec 2) (e e' : BitVec 16) :
    (a ++ b ++ c ++ d ++ e : Word) = (a' ++ b' ++ c' ++ d' ++ e' : Word) ↔
      a = a' ∧ b = b' ∧ c = c' ∧ d = d' ∧ e = e' := by
  constructor
  · intro h
    obtain ⟨h1, h2, h3, h4, h5⟩ := fields_extract a b c d e
    obtain ⟨k1, k2, k3, k4, k5⟩ := fields_extract a' b' c' d' e'
    rw [h] at h1 h2 h3 h4 h5
    exact ⟨h1.symm.trans k1, h2.symm.trans k2, h3.symm.trans k3, h4.symm.trans k4, h5.symm.trans k5⟩
  · rintro ⟨rfl, rfl, rfl, rfl, rfl⟩; rfl

/-- A command word matches a pattern under a mask iff it does field by field. -/
theorem word_matches (cw : Word) (a a' : BitVec 8) (b b' : BitVec 4) (c c' d d' : BitVec 2) (e e' : BitVec 16) :
    cw &&& (a ++ b ++ c ++ d ++ e) = a' ++ b' ++ c' ++ d' ++ e' ↔
      cw.extractLsb' 24 8 &&& a = a' ∧ cw.extractLsb' 20 4 &&& b = b' ∧ cw.extractLsb' 18 2 &&& c = c' ∧
      cw.extractLsb' 16 2 &&& d = d' ∧ cw.extractLsb' 0 16 &&& e = e' := by
  conv => lhs; rw [word_eq_fields cw, and_fields, fields_inj]

/-- R112: the bits above a device address are zero iff it is below 128. -/
theorem addr_mask (v : BitVec 16) : v &&& 0xFF80#16 = 0#16 ↔ v.toNat < 128 := by
  constructor
  · intro h
    have h1 : v.toNat &&& 0xFF80 = 0 := by simpa using congrArg BitVec.toNat h
    have h2 : v.toNat = v.toNat &&& 0x7F ||| v.toNat &&& 0xFF80 := by
      rw [← Nat.and_or_distrib_left]
      exact (Nat.and_two_pow_sub_one_of_lt_two_pow (n := 16) v.isLt).symm
    rw [h1, Nat.or_zero] at h2
    have h3 : v.toNat &&& 0x7F ≤ 0x7F := Nat.and_le_right
    omega
  · intro h
    apply BitVec.eq_of_toNat_eq
    rw [BitVec.toNat_and]
    have h2 : v.toNat &&& 0x7F = v.toNat := Nat.and_two_pow_sub_one_of_lt_two_pow (n := 7) h
    rw [← h2, Nat.and_assoc]
    exact Nat.and_zero _

end Sys2Proof
end

