-- ==== Sys2Proof/Laws/Memory.lean ====
section
/-! SUPPORT. Laws of the buffer memory: reading after a write, and that every memory operation keeps the canonical form
(spec/20_memory.md R83, R94). -/

namespace Sys2Proof.Machine

@[simp] theorem Memory.read_nil (a : Nat) : Memory.read [] a = Memory.unlisted := rfl

theorem Memory.read_consCell (k a : Nat) (b : Byte) (m : Memory) (h : Memory.read m k = Memory.unlisted) :
    Memory.read (Memory.consCell k b m) a = if k = a then b else Memory.read m a := by
  unfold Memory.consCell
  by_cases hb : b = Memory.unlisted
  · rw [if_pos hb]
    by_cases hk : k = a
    · subst hk; rw [if_pos rfl, h, hb]
    · rw [if_neg hk]
  · rw [if_neg hb]; rfl

theorem Memory.read_of_above (lo : Nat) (m : Memory) (a : Nat) (h : Memory.above lo m = true) (hw : Memory.wf m = true)
    (ha : a ≤ lo) : Memory.read m a = Memory.unlisted := by
  induction m generalizing lo with
  | nil => rfl
  | cons c rest ih =>
    obtain ⟨k, b⟩ := c
    simp only [Memory.above, decide_eq_true_eq] at h
    simp only [Memory.wf, Bool.and_eq_true, decide_eq_true_eq] at hw
    rw [Memory.read, if_neg (by omega)]
    exact ih k hw.1.2 hw.2 (by omega)

theorem Memory.above_le {lo lo' : Nat} {m : Memory} (h : Memory.above lo m = true) (hl : lo' ≤ lo) :
    Memory.above lo' m = true := by
  cases m with
  | nil => rfl
  | cons c rest => simp only [Memory.above, decide_eq_true_eq] at *; omega

/-- A byte written is read back, and every other byte reads as before. -/
theorem Memory.read_write (m : Memory) (a : Nat) (b : Byte) (x : Nat) (hw : Memory.wf m = true) :
    Memory.read (Memory.write m a b) x = if a = x then b else Memory.read m x := by
  induction m with
  | nil => exact Memory.read_consCell a x b [] rfl
  | cons c rest ih =>
    obtain ⟨k, v⟩ := c
    have hw' := hw
    simp only [Memory.wf, Bool.and_eq_true, decide_eq_true_eq] at hw
    obtain ⟨⟨⟨hk, hv⟩, hab⟩, hr⟩ := hw
    rw [Memory.write]
    split
    · next hlt =>
      apply Memory.read_consCell
      exact Memory.read_of_above a _ a (by simpa [Memory.above] using hlt) hw' (Nat.le_refl a)
    · split
      · next hne heq =>
        subst heq
        rw [Memory.read_consCell]
        · by_cases hx : a = x
          · rw [if_pos hx, if_pos hx]
          · rw [if_neg hx, if_neg hx, Memory.read, if_neg hx]
        · exact Memory.read_of_above a rest a hab hr (Nat.le_refl a)
      · next hge hne =>
        rw [Memory.read, Memory.read, ih hr]
        by_cases hx : k = x
        · rw [if_pos hx, if_pos hx, if_neg (by omega)]
        · rw [if_neg hx, if_neg hx]

theorem Memory.wf_consCell (a : Nat) (b : Byte) (m : Memory) (ha : a < 2 ^ 32) (hab : Memory.above a m = true)
    (hw : Memory.wf m = true) : Memory.wf (Memory.consCell a b m) = true := by
  unfold Memory.consCell
  split
  · exact hw
  · next hb =>
    simp only [Memory.wf, Bool.and_eq_true, decide_eq_true_eq, bne_iff_ne, ne_eq]
    exact ⟨⟨⟨ha, hb⟩, hab⟩, hw⟩

theorem Memory.above_consCell (lo a : Nat) (b : Byte) (m : Memory) (hl : lo < a) (hm : Memory.above lo m = true) :
    Memory.above lo (Memory.consCell a b m) = true := by
  unfold Memory.consCell
  split
  · exact hm
  · simpa [Memory.above] using hl

theorem Memory.above_write (lo : Nat) (m : Memory) (a : Nat) (b : Byte) (hl : lo < a) (hm : Memory.above lo m = true)
    (hw : Memory.wf m = true) : Memory.above lo (Memory.write m a b) = true := by
  cases m with
  | nil => exact Memory.above_consCell lo a b [] hl rfl
  | cons c rest =>
    obtain ⟨k, v⟩ := c
    simp only [Memory.wf, Bool.and_eq_true, decide_eq_true_eq] at hw
    simp only [Memory.above, decide_eq_true_eq] at hm
    rw [Memory.write]
    split
    · exact Memory.above_consCell lo a b _ hl (by simpa [Memory.above] using hm)
    · split
      · next hne heq =>
        exact Memory.above_consCell lo a b rest hl (Memory.above_le hw.1.2 (by omega))
      · simpa [Memory.above] using hm

/-- A write keeps the canonical form. -/
theorem Memory.wf_write (m : Memory) (a : Nat) (b : Byte) (ha : a < 2 ^ 32) (hw : Memory.wf m = true) :
    Memory.wf (Memory.write m a b) = true := by
  induction m with
  | nil => exact Memory.wf_consCell a b [] ha rfl rfl
  | cons c rest ih =>
    obtain ⟨k, v⟩ := c
    have hw' := hw
    simp only [Memory.wf, Bool.and_eq_true, decide_eq_true_eq] at hw
    obtain ⟨⟨⟨hk, hv⟩, hab⟩, hr⟩ := hw
    rw [Memory.write]
    split
    · next hlt => exact Memory.wf_consCell a b _ ha (by simpa [Memory.above] using hlt) hw'
    · split
      · next hne heq => subst heq; exact Memory.wf_consCell a b rest ha hab hr
      · next hge hne =>
        simp only [Memory.wf, Bool.and_eq_true, decide_eq_true_eq]
        exact ⟨⟨⟨hk, hv⟩, Memory.above_write k rest a b (by omega) hab hr⟩, ih hr⟩

theorem Dev.memRead_memWrite (d : Dev .hardware) (a x : Word) (b : Byte) (hw : Memory.wf d.mem = true) :
    (d.memWrite a b).memRead x = if a = x then b else d.memRead x := by
  rw [Dev.memRead, Dev.memWrite, Memory.read_write _ _ _ _ hw]
  by_cases h : a = x
  · subst h; simp
  · rw [if_neg h, if_neg (fun he => h (BitVec.eq_of_toNat_eq he))]; rfl

theorem Dev.wf_memWrite (d : Dev .hardware) (a : Word) (b : Byte) (hw : Memory.wf d.mem = true) :
    Memory.wf (d.memWrite a b).mem = true := Memory.wf_write _ _ _ a.isLt hw

theorem Dev.wf_memWriteAll (d : Dev .hardware) (a : Word) (bs : List Byte) (hw : Memory.wf d.mem = true) :
    Memory.wf (d.memWriteAll a bs).mem = true := by
  induction bs generalizing d a with
  | nil => exact hw
  | cons b bs ih => exact ih _ _ (Dev.wf_memWrite d a b hw)

/-- Storing bytes changes the buffer memory and nothing else. -/
theorem Dev.memWriteAll_eq (d : Dev .hardware) (a : Word) (bs : List Byte) :
    d.memWriteAll a bs = { d with mem := (d.memWriteAll a bs).mem } := by
  induction bs generalizing d a with
  | nil => rfl
  | cons b bs ih => rw [Dev.memWriteAll, ih]; rfl

theorem reset_memory_wf : Memory.wf State.reset.dev.mem = true := rfl

end Sys2Proof.Machine
end

