-- ==== Sys2Proof/Laws/Registers.lean ====
section
/-! SUPPORT. What the packed view of each register record reads as, and what each read-modify-write form of the
procedures does to the record (R90): the listed fields change and nothing else (R22). -/

namespace Sys2Proof.Machine

/-! ## Reading fields of a packed record -/

@[simp] theorem Diepctl.pack_usbaep (r : Diepctl .hardware) : F.usbaep.bit r.pack = r.usbaep := by
  simp [Diepctl.pack, packFields, putFields, Field.bit_put, extract_put_same, extract_put_other, F.mpsiz, Shape.hardware, F.usbaep, F.dpid, F.naksts, F.eptyp, F.stall, F.txfnum, F.epdis, F.epena]

@[simp] theorem Diepctl.pack_naksts (r : Diepctl .hardware) : F.naksts.bit r.pack = r.naksts := by
  simp [Diepctl.pack, packFields, putFields, Field.bit_put, extract_put_same, extract_put_other, F.mpsiz, Shape.hardware, F.usbaep, F.dpid, F.naksts, F.eptyp, F.stall, F.txfnum, F.epdis, F.epena]

@[simp] theorem Diepctl.pack_epdis (r : Diepctl .hardware) : F.epdis.bit r.pack = r.epdis := by
  simp [Diepctl.pack, packFields, putFields, Field.bit_put, extract_put_same, extract_put_other, F.mpsiz, Shape.hardware, F.usbaep, F.dpid, F.naksts, F.eptyp, F.stall, F.txfnum, F.epdis, F.epena]

@[simp] theorem Diepctl.pack_epena (r : Diepctl .hardware) : F.epena.bit r.pack = r.epena := by
  simp [Diepctl.pack, packFields, putFields, Field.bit_put, extract_put_same, extract_put_other, F.mpsiz, Shape.hardware, F.usbaep, F.dpid, F.naksts, F.eptyp, F.stall, F.txfnum, F.epdis, F.epena]

@[simp] theorem Diepctl.pack_stall (r : Diepctl .hardware) : F.stall.bit r.pack = r.stall := by
  simp [Diepctl.pack, packFields, putFields, Field.bit_put, extract_put_same, extract_put_other, F.mpsiz, Shape.hardware, F.usbaep, F.dpid, F.naksts, F.eptyp, F.stall, F.txfnum, F.epdis, F.epena]

@[simp] theorem Diepctl.pack_dpid (r : Diepctl .hardware) : F.dpid.bit r.pack = r.dpid := by
  simp [Diepctl.pack, packFields, putFields, Field.bit_put, extract_put_same, extract_put_other, F.mpsiz, Shape.hardware, F.usbaep, F.dpid, F.naksts, F.eptyp, F.stall, F.txfnum, F.epdis, F.epena]

@[simp] theorem Doepctl.pack_epdis (r : Doepctl .hardware) (e : Nat) : F.epdis.bit (r.pack e) = r.epdis := by
  simp [Doepctl.pack, packFields, putFields, Field.bit_put, extract_put_same, extract_put_other, F.mpsiz, Shape.hardware, F.usbaep, F.dpid, F.naksts, F.eptyp, F.stall, F.epdis, F.epena]

@[simp] theorem Doepctl.pack_epena (r : Doepctl .hardware) (e : Nat) : F.epena.bit (r.pack e) = r.epena := by
  simp [Doepctl.pack, packFields, putFields, Field.bit_put, extract_put_same, extract_put_other, F.mpsiz, Shape.hardware, F.usbaep, F.dpid, F.naksts, F.eptyp, F.stall, F.epdis, F.epena]

@[simp] theorem Doepctl.pack_naksts (r : Doepctl .hardware) (e : Nat) : F.naksts.bit (r.pack e) = r.naksts := by
  simp [Doepctl.pack, packFields, putFields, Field.bit_put, extract_put_same, extract_put_other, F.mpsiz, Shape.hardware, F.usbaep, F.dpid, F.naksts, F.eptyp, F.stall, F.epdis, F.epena]

@[simp] theorem Diepctl.pack_mpsiz (r : Diepctl .hardware) : F.mpsiz.get r.pack = r.mpsiz.toNat := by
  simp [Field.get, Diepctl.pack, packFields, putFields, Field.bit_put, extract_put_same, extract_put_other, F.mpsiz, Shape.hardware, F.usbaep, F.dpid, F.naksts, F.eptyp, F.stall, F.txfnum, F.epdis, F.epena]

@[simp] theorem Diepctl.unpack_pack (r : Diepctl .hardware) : Diepctl.unpack r.pack = r := by
  cases r
  simp [Diepctl.unpack, Diepctl.pack, packFields, putFields, Field.bit_put, extract_put_same, extract_put_other,
    F.mpsiz, Shape.hardware, F.usbaep, F.dpid, F.naksts, F.eptyp, F.stall, F.txfnum, F.epdis, F.epena]

theorem Doepctl.unpack_pack (r : Doepctl .hardware) (e : Nat) :
    Doepctl.unpack e (r.pack e) = { r with usbaep := r.active e } := by
  cases r
  simp [Doepctl.unpack, Doepctl.pack, Doepctl.active, packFields, putFields, Field.bit_put, extract_put_same, extract_put_other,
    F.mpsiz, Shape.hardware, F.usbaep, F.dpid, F.naksts, F.eptyp, F.stall, F.epdis, F.epena]
  <;> by_cases he : e = 0 <;> simp [he]

@[simp] theorem Grstctl.unpack_pack (r : Grstctl) : Grstctl.unpack (r.pack : RegWord) = r := by
  cases r
  simp [Grstctl.unpack, Grstctl.pack, packFields, putFields, Field.bit_put, extract_put_same, extract_put_other, F.rxfflsh, F.txfflsh, F.grsttxfnum]

@[simp] theorem Daintmsk.unpack_pack (r : Daintmsk .hardware) : Daintmsk.unpack r.pack = r := by
  cases r
  simp [Daintmsk.unpack, Daintmsk.pack, packFields, putFields, Field.bit_put, extract_put_same, extract_put_other, F.iepmAll, F.oepmAll, N, Shape.hardware]

@[simp] theorem txRegionUnpack_pack (r : TxRegion .hardware) : txRegionUnpack (txRegionPack r) = r := by
  cases r
  simp [txRegionUnpack, txRegionPack, packFields, putFields, Field.bit_put, extract_put_same, extract_put_other, F.txStart, F.txDepth, Shape.hardware]

@[simp] theorem Dieptsiz.unpack_pack (r : Dieptsiz .hardware) : Dieptsiz.unpack r.pack = r := by
  cases r
  simp [Dieptsiz.unpack, Dieptsiz.pack, packFields, putFields, Field.bit_put, extract_put_same, extract_put_other, F.xfrsiz, Shape.hardware, F.pktcnt]

@[simp] theorem txRegionPack_depth (r : TxRegion .hardware) : (txRegionPack r).extractLsb' F.txDepth.lo 16 = r.depth := by
  simp [txRegionPack, packFields, putFields, Field.bit_put, extract_put_same, extract_put_other, F.txStart, F.txDepth, Shape.hardware]

@[simp] theorem rxfdPack_extract (v : Half) :
    (packFields [(F.rxfd, v.toNat)] : RegWord).extractLsb' F.rxfd.lo 16 = v := by
  simp [packFields, putFields, Field.bit_put, extract_put_same, extract_put_other, F.rxfd, Shape.hardware]

/-! ## The read-modify-write forms of the procedures -/

/-- R160. -/
theorem Diepctl.rmw_activateControl (r : Diepctl .hardware) (mps : Nat) :
    r.write (putFields [(F.mpsiz, mps), (F.usbaep, 1), (F.snak, 1)] r.pack) = { r with mpsiz := BitVec.ofNat 11 mps, usbaep := true, naksts := true } := by
  cases r
  simp [Diepctl.write, Diepctl.pack, nakAfterWrite, packFields, putFields, Field.bit_put, extract_put_same, extract_put_other,
    F.mpsiz, Shape.hardware, F.usbaep, F.dpid, F.naksts, F.eptyp, F.stall, F.txfnum, F.cnak, F.snak, F.sd0pid, F.epdis, F.epena]

/-- R161. -/
theorem Diepctl.rmw_activateIn (r : Diepctl .hardware) (mps e : Nat) (t : EpType) :
    r.write (putFields
      [(F.mpsiz, mps), (F.usbaep, 1), (F.snak, 1), (F.eptyp, (codeOfEpType t).toNat), (F.txfnum, e), (F.sd0pid, 1)] r.pack) =
      { r with mpsiz := BitVec.ofNat 11 mps, usbaep := true, naksts := true, eptyp := t, txfnum := BitVec.ofNat 4 e,
               dpid := false } := by
  cases r
  simp [Diepctl.write, Diepctl.pack, nakAfterWrite, packFields, putFields, Field.bit_put, extract_put_same, extract_put_other,
    F.mpsiz, Shape.hardware, F.usbaep, F.dpid, F.naksts, F.eptyp, F.stall, F.txfnum, F.cnak, F.snak, F.sd0pid, F.epdis, F.epena]

/-- R162, the disable request. -/
theorem Diepctl.rmw_epdis (r : Diepctl .hardware) :
    r.write (putFields [(F.epdis, 1)] r.pack) = { r with epdis := true } := by
  cases r
  simp [Diepctl.write, Diepctl.pack, nakAfterWrite, packFields, putFields, Field.bit_put, extract_put_same, extract_put_other,
    F.mpsiz, Shape.hardware, F.usbaep, F.dpid, F.naksts, F.eptyp, F.stall, F.txfnum, F.cnak, F.snak, F.sd0pid, F.epdis, F.epena]

/-- R162, the active bit. -/
theorem Diepctl.rmw_inactive (r : Diepctl .hardware) :
    r.write (putFields [(F.usbaep, 0)] r.pack) = { r with usbaep := false } := by
  cases r
  simp [Diepctl.write, Diepctl.pack, nakAfterWrite, packFields, putFields, Field.bit_put, extract_put_same, extract_put_other,
    F.mpsiz, Shape.hardware, F.usbaep, F.dpid, F.naksts, F.eptyp, F.stall, F.txfnum, F.cnak, F.snak, F.sd0pid, F.epdis, F.epena]

/-- R192. -/
theorem Diepctl.rmw_transmit (r : Diepctl .hardware) :
    r.write (putFields [(F.stall, 0), (F.cnak, 1), (F.epena, 1)] r.pack) = { r with stall := false, naksts := false, epena := true } := by
  cases r
  simp [Diepctl.write, Diepctl.pack, nakAfterWrite, packFields, putFields, Field.bit_put, extract_put_same, extract_put_other,
    F.mpsiz, Shape.hardware, F.usbaep, F.dpid, F.naksts, F.eptyp, F.stall, F.txfnum, F.cnak, F.snak, F.sd0pid, F.epdis, F.epena]

/-- R160. -/
theorem Doepctl.rmw_arm (r : Doepctl .hardware) (e : Nat) :
    r.write e (putFields [(F.epena, 1), (F.cnak, 1)] (r.pack e)) = { r with usbaep := r.active e, naksts := false, epena := true } := by
  cases r
  simp [Doepctl.write, Doepctl.pack, Doepctl.active, nakAfterWrite, packFields, putFields, Field.bit_put, extract_put_same, extract_put_other,
    F.mpsiz, Shape.hardware, F.usbaep, F.dpid, F.naksts, F.eptyp, F.stall, F.cnak, F.snak, F.sd0pid, F.epdis, F.epena]
  <;> by_cases he : e = 0 <;> simp [he]

/-- R218. -/
theorem Doepctl.rmw_rearm (r : Doepctl .hardware) (e : Nat) :
    r.write e (putFields [(F.cnak, 1), (F.epena, 1)] (r.pack e)) = { r with usbaep := r.active e, naksts := false, epena := true } := by
  cases r
  simp [Doepctl.write, Doepctl.pack, Doepctl.active, nakAfterWrite, packFields, putFields, Field.bit_put, extract_put_same, extract_put_other,
    F.mpsiz, Shape.hardware, F.usbaep, F.dpid, F.naksts, F.eptyp, F.stall, F.cnak, F.snak, F.sd0pid, F.epdis, F.epena]
  <;> by_cases he : e = 0 <;> simp [he]

/-- R162, the disable request. -/
theorem Doepctl.rmw_epdis (r : Doepctl .hardware) (e : Nat) :
    r.write e (putFields [(F.epdis, 1)] (r.pack e)) = { r with usbaep := r.active e, epdis := true } := by
  cases r
  simp [Doepctl.write, Doepctl.pack, Doepctl.active, nakAfterWrite, packFields, putFields, Field.bit_put, extract_put_same, extract_put_other,
    F.mpsiz, Shape.hardware, F.usbaep, F.dpid, F.naksts, F.eptyp, F.stall, F.cnak, F.snak, F.sd0pid, F.epdis, F.epena]
  <;> by_cases he : e = 0 <;> simp [he]

/-- R162, the active bit; endpoint 0 keeps it (R45). -/
theorem Doepctl.rmw_inactive (r : Doepctl .hardware) (e : Nat) :
    r.write e (putFields [(F.usbaep, 0)] (r.pack e)) = { r with usbaep := e == 0 } := by
  cases r
  simp [Doepctl.write, Doepctl.pack, Doepctl.active, nakAfterWrite, packFields, putFields, Field.bit_put, extract_put_same, extract_put_other,
    F.mpsiz, Shape.hardware, F.usbaep, F.dpid, F.naksts, F.eptyp, F.stall, F.cnak, F.snak, F.sd0pid, F.epdis, F.epena]

/-- R192. -/
theorem Dieptsiz.rmw_program (r : Dieptsiz .hardware) (size : Nat) :
    Dieptsiz.unpack (putFields [(F.pktcnt, 1), (F.xfrsiz, size)] r.pack) =
      { xfrsiz := BitVec.ofNat 19 size, pktcnt := 1 } := by
  cases r
  simp [Dieptsiz.unpack, Dieptsiz.pack, packFields, putFields, Field.bit_put, extract_put_same, extract_put_other, F.xfrsiz, Shape.hardware, F.pktcnt]

/-- R164. -/
theorem Grstctl.rmw_flushRx (r : Grstctl) : r.write (putFields [(F.rxfflsh, 1)] (r.pack : RegWord)) = { r with rxfflsh := true } := by
  cases r
  simp [Grstctl.write, Grstctl.pack, packFields, putFields, Field.bit_put, extract_put_same, extract_put_other, F.rxfflsh, F.txfflsh, F.grsttxfnum]

/-- R165. -/
theorem Grstctl.rmw_flushTx (r : Grstctl) (n : Nat) :
    r.write (putFields [(F.grsttxfnum, n), (F.txfflsh, 1)] (r.pack : RegWord)) =
      { r with txfflsh := true, txfnum := BitVec.ofNat 5 n } := by
  cases r
  simp [Grstctl.write, Grstctl.pack, packFields, putFields, Field.bit_put, extract_put_same, extract_put_other, F.rxfflsh, F.txfflsh, F.grsttxfnum]

/-- R140. -/
theorem rxfd_rmw (w : RegWord) (n : Nat) :
    (putFields [(F.rxfd, n)] w).extractLsb' F.rxfd.lo 16 = BitVec.ofNat 16 n := by
  simp [putFields, F.rxfd, Shape.hardware, extract_put_same]

/-- R141. -/
theorem txRegion_rmw_depth (r : TxRegion .hardware) (n : Nat) :
    txRegionUnpack (putFields [(F.txDepth, n)] (txRegionPack r)) = { r with depth := BitVec.ofNat 16 n } := by
  cases r
  simp [txRegionUnpack, txRegionPack, packFields, putFields, Field.bit_put, extract_put_same, extract_put_other, F.txStart, F.txDepth, Shape.hardware]

/-- R142. -/
theorem txRegion_rmw_start (r : TxRegion .hardware) (c : Half) :
    txRegionUnpack (putFields [(F.txStart, c.toNat)] (txRegionPack r)) = { r with start := c } := by
  cases r
  simp [txRegionUnpack, txRegionPack, packFields, putFields, Field.bit_put, extract_put_same, extract_put_other, F.txStart, F.txDepth, Shape.hardware]

/-- R240. -/
theorem gint_rmw (b : Bool) : F.gint.bit (putFields [(F.gint, 1)] (packFields [(F.gint, flagNat b)] : RegWord)) = true := by
  simp [packFields, putFields, Field.bit_put, extract_put_same, extract_put_other, F.gint]

/-- R241: the device address field is replaced and every other bit of DCFG kept. -/
theorem dcfg_rmw (w : RegWord) (a i : Nat) :
    (putFields [(F.dad, a)] w).getLsbD i = if 4 ≤ i ∧ i < 11 then a.testBit (i - 4) else w.getLsbD i := by
  simp only [putFields, List.foldl, Field.getLsbD_put, F.dad]
  congr 1
  simp only [eq_iff_iff]
  omega

/-- R242, R243: only the soft-disconnect bit changes. -/
theorem dctl_rmw (w : RegWord) (b : Bool) (i : Nat) :
    (putFields [(F.sdis, flagNat b)] w).getLsbD i = if i = 1 then b else w.getLsbD i := by
  simp only [putFields, List.foldl, Field.getLsbD_put, F.sdis]
  by_cases h : i = 1
  · subst h; simp
  · rw [if_neg (by omega), if_neg h]

/-! ## DAINTMSK -/

/-- A 6-bit half with bit `e` set. -/
def Daintmsk.unmask (r : BitVec 6) (e : Nat) : BitVec 6 := r ||| (1#6 <<< e)

/-- A 6-bit half with bit `e` cleared. -/
def Daintmsk.mask (r : BitVec 6) (e : Nat) : BitVec 6 := r &&& ~~~(1#6 <<< e)

theorem Daintmsk.getLsbD_pack (r : Daintmsk .hardware) (i : Nat) :
    r.pack.getLsbD i = if i < 6 then r.iepm.getLsbD i else if 16 ≤ i ∧ i < 22 then r.oepm.getLsbD (i - 16) else false := by
  simp only [Daintmsk.pack, packFields, putFields, List.foldl, Field.getLsbD_put, F.iepmAll, F.oepmAll,
    BitVec.testBit_toNat, N]
  by_cases h : i < 6
  · rw [if_neg (by omega), if_pos (by omega), if_pos h]; simp
  · by_cases h2 : 16 ≤ i ∧ i < 22
    · rw [if_pos (by omega), if_neg h, if_pos h2]
    · rw [if_neg (by omega), if_neg (by omega), if_neg h, if_neg h2]; simp

/-- The IN half of a packed DAINTMSK as bits. -/
theorem Daintmsk.pack_in (r : Daintmsk .hardware) (i : Nat) (hi : i < 6) : r.pack.getLsbD i = r.iepm.getLsbD i := by
  rw [Daintmsk.getLsbD_pack, if_pos hi]

/-- The OUT half of a packed DAINTMSK as bits. -/
theorem Daintmsk.pack_out (r : Daintmsk .hardware) (i : Nat) (hi : i < 6) : r.pack.getLsbD (16 + i) = r.oepm.getLsbD i := by
  rw [Daintmsk.getLsbD_pack, if_neg (by omega), if_pos (by omega), Nat.add_sub_cancel_left]

theorem Daintmsk.getLsbD_unmask (r : BitVec 6) (e i : Nat) (hi : i < 6) :
    (Daintmsk.unmask r e).getLsbD i = (decide (i = e) || r.getLsbD i) := by
  rw [Daintmsk.unmask, BitVec.getLsbD_or, BitVec.getLsbD_shiftLeft, BitVec.getLsbD_one, Bool.or_comm]
  congr 1
  by_cases h : i = e
  · subst h; simp [hi]
  · by_cases h2 : i < e
    · simp [h, h2]
    · simp [h, hi, h2]; omega

theorem Daintmsk.getLsbD_mask (r : BitVec 6) (e i : Nat) (hi : i < 6) :
    (Daintmsk.mask r e).getLsbD i = (!decide (i = e) && r.getLsbD i) := by
  rw [Daintmsk.mask, BitVec.getLsbD_and, BitVec.getLsbD_not, BitVec.getLsbD_shiftLeft, BitVec.getLsbD_one,
    Bool.and_comm]
  congr 1
  by_cases h : i = e
  · subst h; simp
  · by_cases h2 : i < e
    · simp [h, hi, h2]
    · simp [h, hi, h2]; omega

/-- R161: the IN interrupt-enable bit of endpoint `e` is set. -/
theorem Daintmsk.rmw_unmaskIn (r : Daintmsk .hardware) (e : Nat) (he : e < 6) :
    Daintmsk.unpack (putFields [(F.iepm e, 1)] r.pack) = { r with iepm := Daintmsk.unmask r.iepm e } := by
  simp only [Daintmsk.unpack, Daintmsk.mk.injEq, putFields, List.foldl]
  constructor <;> apply BitVec.eq_of_getLsbD_eq <;> intro i hi
  · rw [BitVec.getLsbD_extractLsb', Field.getLsbD_put, Daintmsk.getLsbD_unmask _ _ _ hi]
    by_cases h : i = e
    · subst h; simp [hi, F.iepm, F.iepmAll]; omega
    · rw [if_neg (by simp only [F.iepm, F.iepmAll]; omega)]
      simp [hi, h, F.iepmAll, Daintmsk.pack_in]
  · rw [BitVec.getLsbD_extractLsb', Field.getLsbD_put, if_neg (by simp only [F.iepm, F.oepmAll]; omega)]
    simp only [F.oepmAll, Daintmsk.pack_out _ _ hi, hi, decide_true, Bool.true_and]

/-- A one-bit put changes that bit alone. -/
theorem getLsbD_put_bit (lo v : Nat) (w : RegWord) (i : Nat) (hi : i < 32) :
    ((⟨lo, 1⟩ : Field).put v w).getLsbD i = if i = lo then v.testBit 0 else w.getLsbD i := by
  rw [Field.getLsbD_put]
  by_cases h : i = lo
  · subst h; simp [hi]
  · rw [if_neg h, if_neg]
    intro hc
    have h1 : lo ≤ i := hc.1
    have h2 : i < lo + 1 := hc.2.1
    omega

/-- Both halves of a packed DAINTMSK after the two bits of endpoint `e` are put. -/
theorem Daintmsk.put_both (r : Daintmsk .hardware) (e v : Nat) (he : e ≤ 6) (i : Nat) (hi : i < 6) :
    ((F.oepm e).put v ((F.iepm e).put v r.pack)).getLsbD i = (if i = e then v.testBit 0 else r.iepm.getLsbD i) ∧
    ((F.oepm e).put v ((F.iepm e).put v r.pack)).getLsbD (16 + i) =
      (if i = e then v.testBit 0 else r.oepm.getLsbD i) := by
  have h1 := getLsbD_put_bit (16 + e) v ((F.iepm e).put v r.pack) i (by omega)
  have h2 := getLsbD_put_bit e v r.pack i (by omega)
  have h3 := getLsbD_put_bit (16 + e) v ((F.iepm e).put v r.pack) (16 + i) (by omega)
  have h4 := getLsbD_put_bit e v r.pack (16 + i) (by omega)
  rw [if_neg (by omega)] at h1 h4
  rw [Daintmsk.pack_in _ _ hi] at h2
  rw [Daintmsk.pack_out _ _ hi] at h4
  refine ⟨h1.trans h2, h3.trans ?_⟩
  by_cases h : i = e
  · rw [if_pos (by omega), if_pos h]
  · rw [if_neg (by omega), if_neg h]
    exact h4

/-- R160: both interrupt-enable bits of endpoint 0 are set. -/
theorem Daintmsk.rmw_unmaskControl (r : Daintmsk .hardware) :
    Daintmsk.unpack (putFields [(F.iepm 0, 1), (F.oepm 0, 1)] r.pack) =
      { iepm := Daintmsk.unmask r.iepm 0, oepm := Daintmsk.unmask r.oepm 0 } := by
  simp only [Daintmsk.unpack, Daintmsk.mk.injEq, putFields, List.foldl]
  constructor <;> apply BitVec.eq_of_getLsbD_eq <;> intro i hi <;>
    rw [BitVec.getLsbD_extractLsb', Daintmsk.getLsbD_unmask _ _ _ hi]
  · have := (Daintmsk.put_both r 0 1 (by omega) i hi).1
    simp only [F.iepmAll, Nat.zero_add, this]
    by_cases h : i = 0 <;> simp [h, hi]
  · have := (Daintmsk.put_both r 0 1 (by omega) i hi).2
    simp only [F.oepmAll, this]
    by_cases h : i = 0 <;> simp [h, hi]

/-- R162: both interrupt-enable bits of endpoint `n` are cleared; for the pad slot nothing changes (R39). -/
theorem Daintmsk.rmw_mask (r : Daintmsk .hardware) (n : Nat) (hn : n ≤ 6) :
    Daintmsk.unpack (putFields [(F.iepm n, 0), (F.oepm n, 0)] r.pack) =
      { iepm := Daintmsk.mask r.iepm n, oepm := Daintmsk.mask r.oepm n } := by
  simp only [Daintmsk.unpack, Daintmsk.mk.injEq, putFields, List.foldl]
  constructor <;> apply BitVec.eq_of_getLsbD_eq <;> intro i hi <;>
    rw [BitVec.getLsbD_extractLsb', Daintmsk.getLsbD_mask _ _ _ hi]
  · have := (Daintmsk.put_both r n 0 hn i hi).1
    simp only [F.iepmAll, Nat.zero_add, this]
    by_cases h : i = n <;> simp [h, hi]
  · have := (Daintmsk.put_both r n 0 hn i hi).2
    simp only [F.oepmAll, this]
    by_cases h : i = n <;> simp [h, hi]

end Sys2Proof.Machine
end

