-- ==== Sys2Proof/Laws/Ops.lean ====
section
/-! SUPPORT. What each shared operation can do, said once: FIFO contents made unspecified, region writes, the
read-modify-write forms of the procedures on the whole device, pops, pushes, flushes, and the fields no register write
touches. -/

namespace Sys2Proof.Machine

variable {sh : Shape} {w : Nat}

/-! ## Unspecified contents (R144, R147) -/

@[simp] theorem blurRx_length (lost : Bool) (draw p : Nat) (xs : List (RxWord sh)) :
    (blurRx lost draw p xs).length = xs.length := by
  induction xs generalizing p with
  | nil => rfl
  | cons x xs ih => simp [blurRx, ih]

@[simp] theorem blurTx_length (lost : Bool) (draw e p : Nat) (xs : List (BitVec w)) :
    (blurTx lost draw e p xs).length = xs.length := by
  induction xs generalizing p with
  | nil => rfl
  | cons x xs ih => simp [blurTx, ih]

@[simp] theorem blurRx_false (draw p : Nat) (xs : List (RxWord sh)) : blurRx false draw p xs = xs := by
  induction xs generalizing p with
  | nil => rfl
  | cons x xs ih => simp [blurRx, ih]

@[simp] theorem blurTx_false (draw e p : Nat) (xs : List (BitVec w)) : blurTx false draw e p xs = xs := by
  induction xs generalizing p with
  | nil => rfl
  | cons x xs ih => simp [blurTx, ih]

@[simp] theorem blurRx_nil (lost : Bool) (draw p : Nat) : blurRx lost draw p ([] : List (RxWord sh)) = [] := rfl
@[simp] theorem blurTx_nil (lost : Bool) (draw e p : Nat) : blurTx lost draw e p ([] : List (BitVec w)) = [] := rfl

theorem slot_mapIdx {α β : Type} [Inhabited α] [Inhabited β] {n : Nat} (v : Vector α n) (f : Nat → α → β) (e : Nat)
    (he : e < n) :
    slot (v.mapIdx f) e = f e (slot v e) := by
  simp [slot, he]

@[simp] theorem Dev.loseIf_rxq (d : Dev sh) (lost : Bool) : (d.loseIf lost).rxq = blurRx lost d.draws 0 d.rxq := by
  cases lost <;> simp [Dev.loseIf, Dev.blur]
@[simp] theorem Dev.loseIf_txq (d : Dev sh) (lost : Bool) :
    (d.loseIf lost).txq = d.txq.mapIdx fun e q => blurTx lost d.draws e 0 q := by
  cases lost
  · simp only [Dev.loseIf, Bool.false_eq_true, if_false, blurTx_false]
    ext i hi
    simp
  · rfl
@[simp] theorem Dev.loseIf_overlap (d : Dev sh) (lost : Bool) : (d.loseIf lost).overlap = (d.overlap || lost) := by
  cases lost <;> simp [Dev.loseIf]
@[simp] theorem Dev.loseIf_false (d : Dev sh) : d.loseIf false = d := rfl

/-- What it can do: FIFO contents, the draws and the overlap mark change, nothing else. -/
theorem Dev.loseIf_eq (d : Dev sh) (lost : Bool) :
    d.loseIf lost = { d with
      rxq := (d.loseIf lost).rxq, txq := (d.loseIf lost).txq, draws := (d.loseIf lost).draws,
      overlap := (d.loseIf lost).overlap } := by
  cases lost <;> rfl

/-! ## Region registers (R30 to R33) -/

/-- A write of GRXFSIZ changes the depth; the FIFOs keep their word counts, and with the new layout fitting only RXQ may
lose its contents, where the depth changed. -/
theorem Dev.setRxDepth_eq (d : Dev .hardware) (v : Half) :
    d.setRxDepth v = { d with
      rxfd := v, rxq := (d.setRxDepth v).rxq, txq := (d.setRxDepth v).txq, draws := d.draws + 1,
      overlap := (d.setRxDepth v).overlap } := rfl

/-- A write of the register of region `e` changes that region; see `setRxDepth_eq`. -/
theorem Dev.setTxRegion_eq (d : Dev .hardware) (e : Nat) (r : TxRegion .hardware) :
    d.setTxRegion e r = { d with
      txf := setSlot d.txf e r, rxq := (d.setTxRegion e r).rxq, txq := (d.setTxRegion e r).txq, draws := d.draws + 1,
      overlap := (d.setTxRegion e r).overlap } := rfl

@[simp] theorem Dev.regionReg_read (d : Dev .hardware) (e : Nat) : d.regRead (regionReg e) = txRegionPack (slot d.txf e) := by
  cases e <;> rfl

@[simp] theorem Dev.regionReg_write (d : Dev .hardware) (e : Nat) (w : Word) :
    d.regWrite (regionReg e) w = d.setTxRegion e (txRegionUnpack w) := by
  cases e <;> rfl

/-! ## The read-modify-write forms of the procedures -/

/-- R90, of a register that holds no region. -/
theorem Dev.regRMW_eq (d : Dev sh) {r : Reg} (fs : List (Field × Nat)) (h : r.isRegion = false) :
    d.regRMW r fs = d.regWrite r (putFields fs (d.regRead r)) := by simp [Dev.regRMW, h]

@[simp] theorem regionReg_isRegion (e : Nat) : (regionReg e).isRegion = true := by cases e <;> rfl

/-- R140, U28: a depth that does not fit its field is truncated, and LayoutFits is then lost. -/
theorem Dev.rmw_rxfd (d : Dev .hardware) (n : Nat) :
    d.regRMW .grxfsiz [(F.rxfd, n)] = (d.setRxDepth (BitVec.ofNat 16 n)).loseIf (decide (65536 ≤ n)) := by
  rw [Dev.regRMW, Dev.regWrite, rxfd_rmw]
  simp [Reg.isRegion, Field.truncates, F.rxfd]
  rfl

/-- R141, U28. -/
theorem Dev.rmw_txDepth (d : Dev .hardware) (e n : Nat) :
    d.regRMW (regionReg e) [(F.txDepth, n)] =
      (d.setTxRegion e { slot d.txf e with depth := BitVec.ofNat 16 n }).loseIf (decide (65536 ≤ n)) := by
  rw [Dev.regRMW, Dev.regionReg_read, Dev.regionReg_write, txRegion_rmw_depth]
  simp [Field.truncates, F.txDepth]
  rfl

theorem Dev.rmw_txStart (d : Dev .hardware) (e : Nat) (c : Half) :
    d.regRMW (regionReg e) [(F.txStart, c.toNat)] = d.setTxRegion e { slot d.txf e with start := c } := by
  rw [Dev.regRMW, Dev.regionReg_read, Dev.regionReg_write, txRegion_rmw_start]
  have : ¬ 2 ^ (F.txStart).len ≤ c.toNat := Nat.not_le.mpr c.isLt
  simp [Field.truncates, this]

theorem Dev.rmw_unmaskControl (d : Dev .hardware) :
    d.regRMW .daintmsk [(F.iepm 0, 1), (F.oepm 0, 1)] =
      { d with daintmsk := { iepm := Daintmsk.unmask d.daintmsk.iepm 0, oepm := Daintmsk.unmask d.daintmsk.oepm 0 } } := by
  rw [Dev.regRMW_eq _ _ rfl, Dev.regWrite, Dev.regRead, Daintmsk.rmw_unmaskControl]

theorem Dev.rmw_unmaskIn (d : Dev .hardware) (e : Nat) (he : e < 6) :
    d.regRMW .daintmsk [(F.iepm e, 1)] =
      { d with daintmsk := { d.daintmsk with iepm := Daintmsk.unmask d.daintmsk.iepm e } } := by
  rw [Dev.regRMW_eq _ _ rfl, Dev.regWrite, Dev.regRead, Daintmsk.rmw_unmaskIn _ _ he]

theorem Dev.rmw_mask (d : Dev .hardware) (n : Nat) (hn : n ≤ 6) :
    d.regRMW .daintmsk [(F.iepm n, 0), (F.oepm n, 0)] =
      { d with daintmsk := { iepm := Daintmsk.mask d.daintmsk.iepm n, oepm := Daintmsk.mask d.daintmsk.oepm n } } := by
  rw [Dev.regRMW_eq _ _ rfl, Dev.regWrite, Dev.regRead, Daintmsk.rmw_mask _ _ hn]

theorem Dev.rmw_activateControl (d : Dev .hardware) (e mps : Nat) :
    d.regRMW (.diepctl e) [(F.mpsiz, mps), (F.usbaep, 1), (F.snak, 1)] =
      { d with
        diepctl := setSlot d.diepctl e { slot d.diepctl e with mpsiz := BitVec.ofNat 11 mps, usbaep := true, naksts := true } } := by
  rw [Dev.regRMW_eq _ _ rfl, Dev.regWrite, Dev.regRead, Diepctl.rmw_activateControl]

theorem Dev.rmw_activateIn (d : Dev .hardware) (e mps : Nat) (t : EpType) :
    d.regRMW (.diepctl e) [(F.mpsiz, mps), (F.usbaep, 1), (F.snak, 1), (F.eptyp, (codeOfEpType t).toNat),
        (F.txfnum, e), (F.sd0pid, 1)] =
      { d with
        diepctl := setSlot d.diepctl e { slot d.diepctl e with
            mpsiz := BitVec.ofNat 11 mps, usbaep := true, naksts := true, eptyp := t, txfnum := BitVec.ofNat 4 e,
            dpid := false } } := by
  rw [Dev.regRMW_eq _ _ rfl, Dev.regWrite, Dev.regRead, Diepctl.rmw_activateIn]

theorem Dev.rmw_inEpdis (d : Dev .hardware) (e : Nat) :
    d.regRMW (.diepctl e) [(F.epdis, 1)] =
      { d with diepctl := setSlot d.diepctl e { slot d.diepctl e with epdis := true } } := by
  rw [Dev.regRMW_eq _ _ rfl, Dev.regWrite, Dev.regRead, Diepctl.rmw_epdis]

theorem Dev.rmw_inInactive (d : Dev .hardware) (e : Nat) :
    d.regRMW (.diepctl e) [(F.usbaep, 0)] =
      { d with diepctl := setSlot d.diepctl e { slot d.diepctl e with usbaep := false } } := by
  rw [Dev.regRMW_eq _ _ rfl, Dev.regWrite, Dev.regRead, Diepctl.rmw_inactive]

theorem Dev.rmw_transmit (d : Dev .hardware) (e : Nat) :
    d.regRMW (.diepctl e) [(F.stall, 0), (F.cnak, 1), (F.epena, 1)] =
      { d with
        diepctl := setSlot d.diepctl e { slot d.diepctl e with stall := false, naksts := false, epena := true } } := by
  rw [Dev.regRMW_eq _ _ rfl, Dev.regWrite, Dev.regRead, Diepctl.rmw_transmit]

theorem Dev.rmw_arm (d : Dev .hardware) (e : Nat) :
    d.regRMW (.doepctl e) [(F.epena, 1), (F.cnak, 1)] =
      { d with
        doepctl := setSlot d.doepctl e { slot d.doepctl e with usbaep := (slot d.doepctl e).active e, naksts := false, epena := true } } := by
  rw [Dev.regRMW_eq _ _ rfl, Dev.regWrite, Dev.regRead, Doepctl.rmw_arm]

theorem Dev.rmw_rearm (d : Dev .hardware) (e : Nat) :
    d.regRMW (.doepctl e) [(F.cnak, 1), (F.epena, 1)] =
      { d with
        doepctl := setSlot d.doepctl e { slot d.doepctl e with usbaep := (slot d.doepctl e).active e, naksts := false, epena := true } } := by
  rw [Dev.regRMW_eq _ _ rfl, Dev.regWrite, Dev.regRead, Doepctl.rmw_rearm]

theorem Dev.rmw_outEpdis (d : Dev .hardware) (e : Nat) :
    d.regRMW (.doepctl e) [(F.epdis, 1)] =
      { d with
        doepctl := setSlot d.doepctl e { slot d.doepctl e with usbaep := (slot d.doepctl e).active e, epdis := true } } := by
  rw [Dev.regRMW_eq _ _ rfl, Dev.regWrite, Dev.regRead, Doepctl.rmw_epdis]

theorem Dev.rmw_outInactive (d : Dev .hardware) (e : Nat) :
    d.regRMW (.doepctl e) [(F.usbaep, 0)] =
      { d with doepctl := setSlot d.doepctl e { slot d.doepctl e with usbaep := e == 0 } } := by
  rw [Dev.regRMW_eq _ _ rfl, Dev.regWrite, Dev.regRead, Doepctl.rmw_inactive]

theorem Dev.rmw_transferSize (d : Dev .hardware) (e size : Nat) :
    d.regRMW (.dieptsiz e) [(F.pktcnt, 1), (F.xfrsiz, size)] =
      { d with dieptsiz := setSlot d.dieptsiz e { xfrsiz := BitVec.ofNat 19 size, pktcnt := 1 } } := by
  rw [Dev.regRMW_eq _ _ rfl, Dev.regWrite, Dev.regRead, Dieptsiz.rmw_program]

theorem Dev.rmw_gint (d : Dev .hardware) : d.regRMW .gahbcfg [(F.gint, 1)] = { d with gint := true } := by
  rw [Dev.regRMW_eq _ _ rfl, Dev.regWrite, Dev.regRead, gint_rmw]

/-! ## Flushes (R164, R165, R173 to R175) -/

/-- FLUSH_RX without FLUSH_SYNC: the request bit is set, nothing else. -/
theorem Dev.requestFlushRx_async (d : Dev .hardware) (h : d.cfg.flushSync = false) :
    d.requestFlushRx = { d with grstctl := { d.grstctl with rxfflsh := true } } := by
  have hr : d.regRMW .grstctl [(F.rxfflsh, 1)] = { d with grstctl := { d.grstctl with rxfflsh := true } } := by
    rw [Dev.regRMW_eq _ _ rfl, Dev.regWrite, Dev.regRead, Grstctl.rmw_flushRx]
  simp [Dev.requestFlushRx, hr, h]

/-- FLUSH_RX with FLUSH_SYNC: RXQ is emptied at once, and no request is ever pending. -/
theorem Dev.requestFlushRx_sync (d : Dev .hardware) (h : d.cfg.flushSync = true) :
    d.requestFlushRx = { d with rxq := [], grstctl := { d.grstctl with rxfflsh := false } } := by
  have hr : d.regRMW .grstctl [(F.rxfflsh, 1)] = { d with grstctl := { d.grstctl with rxfflsh := true } } := by
    rw [Dev.regRMW_eq _ _ rfl, Dev.regWrite, Dev.regRead, Grstctl.rmw_flushRx]
  simp [Dev.requestFlushRx, hr, h, Dev.flushRxDone]

/-- FLUSH_TX without FLUSH_SYNC: the number and the request bit are set, nothing else. -/
theorem Dev.requestFlushTx_async (d : Dev .hardware) (n : Nat) (h : d.cfg.flushSync = false) :
    d.requestFlushTx n = { d with grstctl := { d.grstctl with txfflsh := true, txfnum := BitVec.ofNat 5 n } } := by
  have hr : d.regRMW .grstctl [(F.grsttxfnum, n), (F.txfflsh, 1)] =
      { d with grstctl := { d.grstctl with txfflsh := true, txfnum := BitVec.ofNat 5 n } } := by
    rw [Dev.regRMW_eq _ _ rfl, Dev.regWrite, Dev.regRead, Grstctl.rmw_flushTx]
  simp [Dev.requestFlushTx, hr, h]

/-- FLUSH_TX with FLUSH_SYNC: TXQ[n] is emptied at once; a number that names no FIFO empties none. -/
theorem Dev.requestFlushTx_sync (d : Dev .hardware) (n : Nat) (hn : n < 32) (h : d.cfg.flushSync = true) :
    d.requestFlushTx n = { d with
      txq := setSlot d.txq n [], grstctl := { d.grstctl with txfflsh := false, txfnum := BitVec.ofNat 5 n } } := by
  have hr : d.regRMW .grstctl [(F.grsttxfnum, n), (F.txfflsh, 1)] =
      { d with grstctl := { d.grstctl with txfflsh := true, txfnum := BitVec.ofNat 5 n } } := by
    rw [Dev.regRMW_eq _ _ rfl, Dev.regWrite, Dev.regRead, Grstctl.rmw_flushTx]
  have hm : n % 32 = n := Nat.mod_eq_of_lt hn
  simp [Dev.requestFlushTx, hr, h, Dev.flushTxDone, hm]

/-! ## What no register write touches -/

@[simp] theorem Dev.regWrite_cfg (d : Dev .hardware) (r : Reg) (w : Word) : (d.regWrite r w).cfg = d.cfg := by cases r <;> rfl
@[simp] theorem Dev.regWrite_fault (d : Dev .hardware) (r : Reg) (w : Word) : (d.regWrite r w).fault = d.fault := by
  cases r <;> rfl
@[simp] theorem Dev.regWrite_evPending (d : Dev .hardware) (r : Reg) (w : Word) : (d.regWrite r w).evPending = d.evPending := by
  cases r <;> rfl
@[simp] theorem Dev.regWrite_evlog (d : Dev .hardware) (r : Reg) (w : Word) : (d.regWrite r w).evlog = d.evlog := by cases r <;> rfl
@[simp] theorem Dev.regWrite_wireTx (d : Dev .hardware) (r : Reg) (w : Word) : (d.regWrite r w).wireTx = d.wireTx := by
  cases r <;> rfl
@[simp] theorem Dev.regWrite_mem (d : Dev .hardware) (r : Reg) (w : Word) : (d.regWrite r w).mem = d.mem := by cases r <;> rfl

@[simp] theorem Dev.regRMW_cfg (d : Dev .hardware) (r : Reg) (fs : List (Field × Nat)) : (d.regRMW r fs).cfg = d.cfg := by
  simp [Dev.regRMW]
@[simp] theorem Dev.regRMW_fault (d : Dev .hardware) (r : Reg) (fs : List (Field × Nat)) : (d.regRMW r fs).fault = d.fault := by
  simp [Dev.regRMW]
@[simp] theorem Dev.regRMW_evPending (d : Dev .hardware) (r : Reg) (fs : List (Field × Nat)) :
    (d.regRMW r fs).evPending = d.evPending := by simp [Dev.regRMW]
@[simp] theorem Dev.regRMW_evlog (d : Dev .hardware) (r : Reg) (fs : List (Field × Nat)) : (d.regRMW r fs).evlog = d.evlog := by
  simp [Dev.regRMW]
@[simp] theorem Dev.regRMW_wireTx (d : Dev .hardware) (r : Reg) (fs : List (Field × Nat)) :
    (d.regRMW r fs).wireTx = d.wireTx := by simp [Dev.regRMW]
@[simp] theorem Dev.regRMW_mem (d : Dev .hardware) (r : Reg) (fs : List (Field × Nat)) : (d.regRMW r fs).mem = d.mem := by
  simp [Dev.regRMW]

@[simp] theorem Dev.intClear_cfg (d : Dev .hardware) (r : Reg) (w : Word) : (d.intClear r w).cfg = d.cfg := by simp [Dev.intClear]
@[simp] theorem Dev.intClear_fault (d : Dev .hardware) (r : Reg) (w : Word) : (d.intClear r w).fault = d.fault := by
  simp [Dev.intClear]
@[simp] theorem Dev.intClear_evPending (d : Dev .hardware) (r : Reg) (w : Word) : (d.intClear r w).evPending = d.evPending := by
  simp [Dev.intClear]
@[simp] theorem Dev.intClear_evlog (d : Dev .hardware) (r : Reg) (w : Word) : (d.intClear r w).evlog = d.evlog := by
  simp [Dev.intClear]
@[simp] theorem Dev.intClear_mem (d : Dev .hardware) (r : Reg) (w : Word) : (d.intClear r w).mem = d.mem := by simp [Dev.intClear]

/-- A force by the harness touches none of these either. -/
theorem Dev.regForce_same (d : Dev .hardware) (r : Reg) (w : Word) :
    (d.regForce r w).cfg = d.cfg ∧ (d.regForce r w).fault = d.fault ∧ (d.regForce r w).evPending = d.evPending ∧
    (d.regForce r w).evlog = d.evlog ∧ (d.regForce r w).wireTx = d.wireTx ∧ (d.regForce r w).mem = d.mem := by
  cases r <;> exact ⟨rfl, rfl, rfl, rfl, rfl, rfl⟩

/-- R45: no write makes the control OUT endpoint inactive. -/
theorem Dev.regWrite_control (d : Dev .hardware) (r : Reg) (w : Word) (h : (slot d.doepctl 0).usbaep = true) :
    (slot (d.regWrite r w).doepctl 0).usbaep = true := by
  cases r with
  | doepctl e =>
    simp only [Dev.regWrite, slot_setSlot]
    split
    · next he => simp [Doepctl.write, he.1]
    · exact h
  | _ => exact h

/-! ## FIFO accesses (R92, R93) -/

/-- A status pop that meets a status entry removes it and returns it. -/
theorem Dev.statusPop_status (d : Dev .hardware) (w : Word) (rest : List (RxWord .hardware)) (h : d.rxq = .status w :: rest) :
    d.statusPop = { dev := { d with rxq := rest }, word := w, ok := true } := by
  simp [Dev.statusPop, h]

/-- A port pop that meets a data word removes it and returns it. -/
theorem Dev.portPop_data (d : Dev .hardware) (w : Word) (rest : List (RxWord .hardware)) (h : d.rxq = .data w :: rest) :
    d.portPop = { dev := { d with rxq := rest }, word := w, ok := true } := by
  simp [Dev.portPop, h]

/-- What a pop can do: it removes at most the head of RXQ, sets at most one FAULT bit, takes at most one draw, and
changes nothing else. -/
theorem Dev.portPop_eq (d : Dev .hardware) :
    d.portPop.dev = { d with rxq := d.rxq.tail, fault := d.portPop.dev.fault, draws := d.portPop.dev.draws } ∧
    (d.portPop.dev.fault = d.fault ∨ ∃ c, d.portPop.dev.fault = (d.raise c).fault) := by
  unfold Dev.portPop
  split
  · next h => exact ⟨by simp [Dev.popEmpty, Dev.raise, h], .inr ⟨.rxUnderflow, rfl⟩⟩
  · next h => exact ⟨by simp [h], .inl rfl⟩
  · next h => exact ⟨by simp [Dev.popDesync, Dev.raise, h], .inr ⟨.rxDesync, rfl⟩⟩

/-- The same of the status pop. -/
theorem Dev.statusPop_eq (d : Dev .hardware) :
    d.statusPop.dev = { d with rxq := d.rxq.tail, fault := d.statusPop.dev.fault, draws := d.statusPop.dev.draws } ∧
    (d.statusPop.dev.fault = d.fault ∨ ∃ c, d.statusPop.dev.fault = (d.raise c).fault) := by
  unfold Dev.statusPop
  split
  · next h => exact ⟨by simp [Dev.popEmpty, Dev.raise, h], .inr ⟨.rxUnderflow, rfl⟩⟩
  · next h => exact ⟨by simp [h], .inl rfl⟩
  · next h => exact ⟨by simp [Dev.popDesync, Dev.raise, h], .inr ⟨.rxDesync, rfl⟩⟩

/-- A push that fits appends the word, while LayoutFits has held since reset. -/
theorem Dev.portPush_fits (d : Dev .hardware) (e : Nat) (w : Word) (h : d.txHasRoom e = true) (ho : d.overlap = false) :
    d.portPush e w = { d with txq := setSlot d.txq e (slot d.txq e ++ [w]), draws := d.draws + 1 } := by
  simp [Dev.portPush, h, Dev.txAppend, ho]

/-- A push that does not fit sets `tx_overflow` and drops the word. -/
theorem Dev.portPush_full (d : Dev .hardware) (e : Nat) (w : Word) (h : d.txHasRoom e = false) :
    d.portPush e w = d.raise .txOverflow := by
  simp [Dev.portPush, h]

/-- R60: a fault bit that is set stays set. -/
theorem Dev.raise_sticky (d : Dev .hardware) (c : FaultCause) : d.fault &&& (d.raise c).fault = d.fault := by
  simp only [Dev.raise_fault]
  ext i hi
  simp only [BitVec.getElem_and, BitVec.getElem_or]
  cases d.fault[i] <;> simp

/-- R283: a fault sets a bit that has a cause. -/
theorem Dev.raise_legal (d : Dev .hardware) (c : FaultCause) (h : d.fault &&& ~~~faultAll = 0#32) :
    (d.raise c).fault &&& ~~~faultAll = 0#32 := by
  have hc : (1#32 <<< c.code) &&& ~~~faultAll = 0#32 := by cases c <;> decide
  rw [Dev.raise_fault, BitVec.and_comm, BitVec.and_or_distrib_left, BitVec.and_comm, h, BitVec.and_comm, hc]
  rfl

/-! ## Preconditions and dispatch -/

/-- R160, R161: the legal max packet sizes. -/
theorem mpsLegal_iff (mps : Nat) : mpsLegal mps = true ↔ 1 ≤ mps ∧ mps ≤ 2047 := by simp [mpsLegal]

/-- R210: what the snapshot puts before the rest, where no `pre:` line of a handler fails. -/
theorem Dev.snapshotStep_eq (d : Dev .hardware) (c : Cause) (hc : classify (d.regRead .gintsts) = c)
    (h : c = .enumdne → mpsLegal d.cfg.enumCtrlMps = true) : d.snapshotStep = (d, .go (causeSteps d.cfg c)) := by
  rw [Dev.snapshotStep, hc]
  congr 1
  exact if_neg fun hx => by rw [h hx.1] at hx; cases hx.2

/-- R214: the enumeration-done handler whose `pre:` line fails. -/
theorem Dev.snapshotStep_badSize (d : Dev .hardware) (hc : classify (d.regRead .gintsts) = .enumdne)
    (h : mpsLegal d.cfg.enumCtrlMps = false) : d.snapshotStep = (d.raise .badSize, .go (pollTail F.enumdne)) := by
  simp [Dev.snapshotStep, hc, h, causeSteps]

end Sys2Proof.Machine
end

