-- ==== Sys2Proof/Laws/Layout.lean ====
section
/-! SUPPORT. Laws of the re-layout (spec/40_fifo_allocator.md R142, R143): what the procedure leaves when no other agent
moves, and what it leaves unchanged. -/

namespace Sys2Proof.Machine

/-! ## What one region write keeps -/

theorem Dev.SameOutsideRegions.refl (d : Dev .hardware) : d.SameOutsideRegions d := rfl

theorem Dev.SameOutsideRegions.trans {a b c : Dev .hardware} (h₁ : a.SameOutsideRegions b) (h₂ : b.SameOutsideRegions c) :
    a.SameOutsideRegions c := by
  unfold Dev.SameOutsideRegions at *
  rw [h₂, h₁]

/-- Writing region registers touches no byte of the buffer memory. -/
theorem Dev.SameOutsideRegions.memRead {a b : Dev .hardware} (h : a.SameOutsideRegions b) (x : Word) :
    b.memRead x = a.memRead x := by
  have hm : b.mem = a.mem := by
    unfold Dev.SameOutsideRegions at h
    rw [h]
  rw [Dev.memRead, Dev.memRead, hm]

theorem Dev.setRxDepth_same (d : Dev .hardware) (v : Half) : d.SameOutsideRegions (d.setRxDepth v) := rfl

theorem Dev.setTxRegion_same (d : Dev .hardware) (e : Nat) (r : TxRegion .hardware) : d.SameOutsideRegions (d.setTxRegion e r) := rfl

theorem Dev.FifoCountsKept.refl (d : Dev .hardware) : d.FifoCountsKept d := ⟨rfl, fun _ _ => rfl⟩

theorem Dev.FifoCountsKept.trans {a b c : Dev .hardware} (h₁ : a.FifoCountsKept b) (h₂ : b.FifoCountsKept c) :
    a.FifoCountsKept c := ⟨h₂.1.trans h₁.1, fun e he => (h₂.2 e he).trans (h₁.2 e he)⟩

theorem Dev.blurMoved_counts (d : Dev .hardware) (rm : Bool) (tm : Nat → Bool) : d.FifoCountsKept (d.blurMoved rm tm) := by
  refine ⟨by simp, fun e he => ?_⟩
  rw [Dev.blurMoved_txq, slot_mapIdx _ _ _ he]
  simp

theorem Dev.loseIf_same (d : Dev .hardware) (lost : Bool) : d.SameOutsideRegions (d.loseIf lost) := by cases lost <;> rfl

theorem Dev.loseIf_counts (d : Dev .hardware) (lost : Bool) : d.FifoCountsKept (d.loseIf lost) := by
  refine ⟨by simp, fun e he => ?_⟩
  rw [Dev.loseIf_txq, slot_mapIdx _ _ _ he]
  simp

theorem Dev.setRxDepth_counts (d : Dev .hardware) (v : Half) : d.FifoCountsKept (d.setRxDepth v) :=
  Dev.blurMoved_counts { d with rxfd := v } _ _

theorem Dev.setTxRegion_counts (d : Dev .hardware) (e : Nat) (r : TxRegion .hardware) : d.FifoCountsKept (d.setTxRegion e r) :=
  Dev.blurMoved_counts { d with txf := setSlot d.txf e r } _ _

@[simp] theorem Dev.setRxDepth_rxfd (d : Dev .hardware) (v : Half) : (d.setRxDepth v).rxfd = v := rfl
@[simp] theorem Dev.setRxDepth_txf (d : Dev .hardware) (v : Half) : (d.setRxDepth v).txf = d.txf := rfl
@[simp] theorem Dev.setTxRegion_rxfd (d : Dev .hardware) (e : Nat) (r : TxRegion .hardware) : (d.setTxRegion e r).rxfd = d.rxfd := rfl
@[simp] theorem Dev.setTxRegion_txf (d : Dev .hardware) (e : Nat) (r : TxRegion .hardware) :
    (d.setTxRegion e r).txf = setSlot d.txf e r := rfl

theorem Dev.setRxDepth_overlap (d : Dev .hardware) (v : Half) :
    (d.setRxDepth v).overlap = (d.overlap || !(d.setRxDepth v).layoutFits) := rfl
theorem Dev.setTxRegion_overlap (d : Dev .hardware) (e : Nat) (r : TxRegion .hardware) :
    (d.setTxRegion e r).overlap = (d.overlap || !(d.setTxRegion e r).layoutFits) := rfl

/-- With the new layout fitting, a region write leaves the words of a FIFO whose region did not change. -/
theorem Dev.setRxDepth_contents (d : Dev .hardware) (v : Half) (h : (d.setRxDepth v).layoutFits = true) :
    (d.rxfd = v → (d.setRxDepth v).rxq = d.rxq) ∧ (d.setRxDepth v).txq = d.txq := by
  have hf : ({ d with rxfd := v } : Dev .hardware).layoutFits = true := h
  constructor
  · intro hv; simp [Dev.setRxDepth, hf, hv]
  · refine slot_ext fun e he => ?_
    simp only [Dev.setRxDepth, Dev.blurMoved_txq]
    rw [slot_mapIdx _ _ _ he]
    simp [hf]

theorem Dev.setTxRegion_contents (d : Dev .hardware) (e : Nat) (r : TxRegion .hardware) (h : (d.setTxRegion e r).layoutFits = true) :
    (d.setTxRegion e r).rxq = d.rxq ∧
    ∀ k, k < N → (k = e → slot d.txf e = r) → slot (d.setTxRegion e r).txq k = slot d.txq k := by
  have hf : ({ d with txf := setSlot d.txf e r } : Dev .hardware).layoutFits = true := h
  constructor
  · simp [Dev.setTxRegion, hf]
  · intro k hk hr
    simp only [Dev.setTxRegion, Dev.blurMoved_txq]
    rw [slot_mapIdx _ _ _ hk]
    by_cases he : k = e
    · simp [hf, hr he, he]
    · have hb : (k == e) = false := by simpa using he
      simp [hf, hb]

theorem Dev.txDepth_setTxRegion_start (d : Dev .hardware) (e k : Nat) (c : Half) (he : e < N) :
    (d.setTxRegion e { slot d.txf e with start := c }).txDepth k = d.txDepth k := by
  simp only [Dev.txDepth, Dev.setTxRegion_txf, slot_setSlot]
  split
  · next h => rw [← h.1]
  · rfl

/-- The sum of the depths, region by region. -/
theorem depthSum_slots (v : Vector (TxRegion .hardware) N) :
    (v.map fun t => t.depth.toNat).sum = ((List.range N).map fun k => (slot v k).depth.toNat).sum := by
  obtain ⟨⟨l⟩, hl⟩ := v
  simp only [List.size_toArray] at hl
  match l, hl with
  | [a, b, c, d, e, f], _ =>
    simp [slot, N, List.range_succ, Vector.sum, Vector.map]

theorem Dev.depthSum_eq (d : Dev .hardware) :
    d.depthSum = d.rxfd.toNat + ((List.range N).map fun k => (d.txDepth k).toNat).sum := by
  rw [Dev.depthSum, depthSum_slots]; rfl

theorem Dev.depthSum_congr {a b : Dev .hardware} (hr : b.rxfd = a.rxfd) (ht : ∀ k, k < N → b.txDepth k = a.txDepth k) :
    b.depthSum = a.depthSum := by
  rw [Dev.depthSum_eq, Dev.depthSum_eq, hr]
  congr 2
  refine List.map_congr_left fun k hk => ?_
  rw [ht k (by simpa using hk)]

theorem Dev.layoutFits_congr {a b : Dev .hardware} (hr : b.rxfd = a.rxfd) (ht : ∀ k, k < N → b.txDepth k = a.txDepth k)
    (hc : b.cfg = a.cfg) : b.layoutFits = a.layoutFits := by
  rw [Dev.layoutFits, Dev.layoutFits, Dev.depthSum_congr hr ht, hc]

theorem Dev.layoutFits_iff (d : Dev .hardware) : d.layoutFits = true ↔ d.depthSum ≤ d.cfg.fifoRamWords ∧ d.depthSum < 65536 := by
  simp [Dev.layoutFits, Config.fits]

/-- LayoutFits of a state, with a depth that is not truncated. -/
theorem Dev.fitsAfter_iff (d : Dev .hardware) {n : Nat} (h : n < 65536) : d.FitsAfter n ↔ d.layoutFits = true := by
  rw [Dev.layoutFits_iff, Dev.FitsAfter]; tauto

/-- From writing a depth that may be truncated, and a re-layout after it, to the whole procedure. -/
theorem Dev.FifosKept.ofRegion {d a b : Dev .hardware} {n : Nat} (h : d.FifoCountsKept b)
    (hk : n < 65536 → b.layoutFits = true → (b.rxfd = d.rxfd → b.rxq = d.rxq) ∧
      ∀ e, e < N → slot b.txf e = slot d.txf e → slot b.txq e = slot d.txq e)
    (ha : a.overlap = (d.overlap || !a.layoutFits || decide (65536 ≤ n))) (hf : b.layoutFits = a.layoutFits)
    (ho : a.overlap = true → b.overlap = true) : d.FifosKept b n := by
  refine ⟨h, fun hn => hk hn.1 ((b.fitsAfter_iff hn.1).mp hn), fun hn => ho ?_⟩
  rw [ha]
  rcases hn with hn | hn
  · simp [hn]
  · by_cases h1 : n < 65536
    · have := mt (b.fitsAfter_iff h1).mpr hn
      rw [hf] at this
      simp [this]
    · simp [Nat.not_lt.mp h1]

/-! ## The loop of R142 -/

/-- What the loop of R142 leaves from region `e` on, with `n` regions to go, the cursor at `cur`. -/
def Dev.layoutFrom (d : Dev .hardware) (e : Nat) (cur : Half) : Nat → Dev .hardware
  | 0 => d
  | n + 1 =>
    let d' := d.setTxRegion e { slot d.txf e with start := cur }
    d'.layoutFrom (e + 1) (cur + d'.txDepth e) n

theorem Dev.layoutFrom_runs (n : Nat) : ∀ (d : Dev .hardware) (e : Nat) (cur : Half) (rest : List (AccessStep .hardware)) (d' : Dev .hardware),
    e + n = N → 0 < n → Runs rest (d.layoutFrom e cur n) d' → Runs (.layoutStart e cur :: rest) d d' := by
  induction n with
  | zero => intro d e cur rest d' _ h; omega
  | succ n ih =>
    intro d e cur rest d' hn _ hr
    refine .step rfl (.step rfl ?_)
    rw [Dev.layoutFrom] at hr
    have hN := N_eq
    simp only [Dev.rmw_txStart, Dev.regionReg_read, Shape.hardware_depthBits, txRegionPack_depth]
    by_cases hn0 : n = 0
    · subst hn0
      rw [if_neg (by omega)]
      exact hr
    · rw [if_pos (by omega)]
      exact ih _ _ _ _ _ (by omega) (by omega) hr

/-- What the loop leaves of the layout. -/
theorem Dev.layoutFrom_spec (n : Nat) : ∀ (d : Dev .hardware) (e : Nat) (cur : Half), e + n = N →
    let d' := d.layoutFrom e cur n
    d.SameOutsideRegions d' ∧ d.FifoCountsKept d' ∧ d'.rxfd = d.rxfd ∧
    (∀ k, k < N → d'.txDepth k = d.txDepth k) ∧
    (∀ k, k < e → slot d'.txf k = slot d.txf k) ∧
    (∀ k, e ≤ k → k < N →
      d'.txStart k = cur + BitVec.ofNat 16 ((List.range (k - e)).map fun j => (d.txDepth (e + j)).toNat).sum) ∧
    (d.layoutFits = true →
      d'.rxq = d.rxq ∧ ∀ k, k < N → slot d'.txf k = slot d.txf k → slot d'.txq k = slot d.txq k) ∧
    (d.overlap = true → d'.overlap = true) := by
  induction n with
  | zero =>
    intro d e cur hn
    exact ⟨rfl, Dev.FifoCountsKept.refl d, rfl, fun _ _ => rfl, fun _ _ => rfl, fun k h1 h2 => by omega,
      fun _ => ⟨rfl, fun _ _ _ => rfl⟩, id⟩
  | succ n ih =>
    intro d e cur hn
    have he : e < N := by omega
    have hdep := fun k => Dev.txDepth_setTxRegion_start d e k cur he
    have hfit : (d.setTxRegion e { slot d.txf e with start := cur }).layoutFits = d.layoutFits :=
      Dev.layoutFits_congr rfl (fun k _ => hdep k) rfl
    obtain ⟨h1, h2, h3, h4, h5, h6, h7, h8⟩ :=
      ih (d.setTxRegion e { slot d.txf e with start := cur }) (e + 1)
        (cur + (d.setTxRegion e { slot d.txf e with start := cur }).txDepth e) (by omega)
    rw [Dev.layoutFrom]
    refine ⟨(Dev.setTxRegion_same ..).trans h1, (Dev.setTxRegion_counts ..).trans h2, h3.trans rfl,
      fun k hk => (h4 k hk).trans (hdep k), fun k hk => ?_, fun k hk1 hk2 => ?_, fun hf => ?_,
      fun ho => h8 (by simp [Dev.setTxRegion, ho])⟩
    · rw [h5 k (by omega)]
      simp only [Dev.setTxRegion_txf, slot_setSlot]
      rw [if_neg (by omega)]
    · by_cases hke : k = e
      · subst hke
        rw [Dev.txStart, h5 k (by omega)]
        simp [he]
      · rw [h6 k (by omega) hk2, hdep e]
        have hk : k - e = (k - (e + 1)) + 1 := by omega
        rw [hk, List.range_succ_eq_map, List.map_cons, List.sum_cons, List.map_map, BitVec.ofNat_add, BitVec.add_assoc]
        congr 1
        simp only [Nat.add_zero, BitVec.ofNat_toNat, BitVec.setWidth_eq]
        congr 3
        refine List.map_congr_left fun j _ => ?_
        simp only [Function.comp, hdep]
        congr 2; omega
    · obtain ⟨hr, hq⟩ := h7 (hfit.trans hf)
      obtain ⟨gr, gq⟩ := Dev.setTxRegion_contents d e { slot d.txf e with start := cur } (hfit.trans hf)
      refine ⟨hr.trans gr, fun k hk hs => ?_⟩
      by_cases hke : k = e
      · subst hke
        have : slot d.txf k = { slot d.txf k with start := cur } := by
          conv_lhs => rw [← hs, h5 k (by omega)]
          simp [he]
        rw [hq k hk, gq k hk fun _ => this]
        rw [h5 k (by omega)]
      · rw [hq k hk, gq k hk fun h => absurd h hke]
        rw [hs]
        simp only [Dev.setTxRegion_txf, slot_setSlot]
        rw [if_neg (by omega)]

/-- R142 `Relayout()`, with no other agent moving. -/
def Dev.relayout (d : Dev .hardware) : Dev .hardware := d.layoutFrom 0 d.rxfd N

/-- The last access steps of a command that re-lays the buffer out. -/
theorem Dev.relayout_runs (d : Dev .hardware) : Runs [.layoutRx] d d.relayout := by
  refine .step (d₁ := d) (more := [.layoutStart 0 d.rxfd]) (by simp [perform, Dev.layoutRxStep, Dev.regRead]) ?_
  exact Dev.layoutFrom_runs N d 0 d.rxfd [] _ rfl (by decide) (.done _)

/-- R142, R143: after a re-layout every region starts where the ones before it end; the depths and everything outside
the regions are as before. -/
theorem Dev.relayout_spec (d : Dev .hardware) :
    d.SameOutsideRegions d.relayout ∧ d.FifoCountsKept d.relayout ∧ d.relayout.rxfd = d.rxfd ∧
    (∀ k, k < N → d.relayout.txDepth k = d.txDepth k) ∧ d.relayout.LayoutLaw ∧
    (d.layoutFits = true → d.relayout.rxq = d.rxq ∧
      ∀ k, k < N → slot d.relayout.txf k = slot d.txf k → slot d.relayout.txq k = slot d.txq k) ∧
    (d.overlap = true → d.relayout.overlap = true) ∧ d.relayout.layoutFits = d.layoutFits := by
  obtain ⟨h1, h2, h3, h4, -, h6, h7, h8⟩ := Dev.layoutFrom_spec N d 0 d.rxfd rfl
  refine ⟨h1, h2, h3, h4, fun e he => ?_, h7, h8, Dev.layoutFits_congr h3 h4 (by rw [Dev.relayout, h1])⟩
  · have hs := h6 e (Nat.zero_le e) he
    have hl : ((List.range e).map fun j => (d.txDepth (0 + j)).toNat) =
        (List.range e).map fun k => ((d.layoutFrom 0 d.rxfd N).txDepth k).toNat := by
      refine List.map_congr_left fun j hj => ?_
      have hj' : j < e := by simpa using hj
      rw [h4 j (by omega), Nat.zero_add]
    rw [Nat.sub_zero, hl] at hs
    rw [Dev.relayout, hs, Dev.regionStart, h3, BitVec.ofNat_add, BitVec.ofNat_toNat, BitVec.setWidth_eq]

/-! ## The two allocator procedures (R140, R141) -/

/-- R140 `SetRxFifoSize(size)` with no other agent moving: what it leaves. -/
theorem Dev.setRxFifoSize_runs (d : Dev .hardware) (size : Nat) :
    ∃ d', Runs (setRxFifoSizeSteps d.cfg size) d d' ∧ d'.rxfd = BitVec.ofNat 16 (rxDepthFor d.cfg size) ∧
      (∀ e, e < N → d'.txDepth e = d.txDepth e) ∧ d'.LayoutLaw ∧ d.SameOutsideRegions d' ∧
      d.FifosKept d' (rxDepthFor d.cfg size) := by
  generalize hn : rxDepthFor d.cfg size = n
  obtain ⟨g1, g2, g3, g4, g5, g6, g7, g8⟩ :=
    Dev.relayout_spec ((d.setRxDepth (BitVec.ofNat 16 n)).loseIf (decide (65536 ≤ n)))
  have hf : ((d.setRxDepth (BitVec.ofNat 16 n)).loseIf (decide (65536 ≤ n))).layoutFits =
      (d.setRxDepth (BitVec.ofNat 16 n)).layoutFits :=
    Dev.layoutFits_congr (by simp) (fun k _ => by simp [Dev.txDepth]) (by simp)
  refine ⟨_, .one (by simp [perform, Dev.rmw_rxfd, hn]) (Dev.relayout_runs _), g3.trans (by simp),
    fun e he => (g4 e he).trans (by simp [Dev.txDepth]), g5,
    ((Dev.setRxDepth_same _ _).trans (Dev.loseIf_same _ _)).trans g1,
    .ofRegion (((Dev.setRxDepth_counts _ _).trans (Dev.loseIf_counts _ _)).trans g2) (fun hlt hfit => ?_)
      (by rw [hf, Dev.loseIf_overlap, Dev.setRxDepth_overlap]) g8 g7⟩
  have hd : (d.setRxDepth (BitVec.ofNat 16 n)).loseIf (decide (65536 ≤ n)) = d.setRxDepth (BitVec.ofNat 16 n) := by
    rw [decide_eq_false (Nat.not_le.mpr hlt), Dev.loseIf_false]
  rw [hd] at g3 g6 g8 hfit ⊢
  obtain ⟨a1, a2⟩ := Dev.setRxDepth_contents _ _ (g8.symm.trans hfit)
  obtain ⟨b1, b2⟩ := g6 (g8.symm.trans hfit)
  exact ⟨fun h => b1.trans (a1 (h.symm.trans g3)), fun e he h => by rw [b2 e he h, a2]⟩

/-- R141 `SetTxFifoSize(e, size)` after its `pre:` line, with no other agent moving: what it leaves. -/
theorem Dev.setTxFifoSize_runs (d : Dev .hardware) (ep size : Nat) (hep : ep < N) :
    ∃ d', Runs (setTxFifoSizeSteps ep size) d d' ∧ d'.txDepth ep = BitVec.ofNat 16 (txDepthFor size) ∧
      (∀ e, e < N → e ≠ ep → d'.txDepth e = d.txDepth e) ∧ d'.rxfd = d.rxfd ∧ d'.LayoutLaw ∧
      d.SameOutsideRegions d' ∧ d.FifosKept d' (txDepthFor size) := by
  generalize hn : txDepthFor size = n
  obtain ⟨g1, g2, g3, g4, g5, g6, g7, g8⟩ := Dev.relayout_spec
    ((d.setTxRegion ep { slot d.txf ep with depth := BitVec.ofNat 16 n }).loseIf (decide (65536 ≤ n)))
  have hf : ((d.setTxRegion ep { slot d.txf ep with depth := BitVec.ofNat 16 n }).loseIf
      (decide (65536 ≤ n))).layoutFits = (d.setTxRegion ep { slot d.txf ep with depth := BitVec.ofNat 16 n }).layoutFits :=
    Dev.layoutFits_congr (by simp) (fun k _ => by simp [Dev.txDepth]) (by simp)
  refine ⟨_, .one (by simp [perform, Dev.rmw_txDepth, hn]) (Dev.relayout_runs _), ?_, fun e he hne => ?_,
    g3.trans (by simp), g5, ((Dev.setTxRegion_same _ _ _).trans (Dev.loseIf_same _ _)).trans g1,
    .ofRegion (((Dev.setTxRegion_counts _ _ _).trans (Dev.loseIf_counts _ _)).trans g2) (fun hlt hfit => ?_)
      (by rw [hf, Dev.loseIf_overlap, Dev.setTxRegion_overlap]) g8 g7⟩
  · rw [g4 ep hep]; simp [Dev.txDepth, hep]
  · rw [g4 e he]; simp [Dev.txDepth, Ne.symm hne]
  · have hd : (d.setTxRegion ep { slot d.txf ep with depth := BitVec.ofNat 16 n }).loseIf (decide (65536 ≤ n)) =
        d.setTxRegion ep { slot d.txf ep with depth := BitVec.ofNat 16 n } := by
      rw [decide_eq_false (Nat.not_le.mpr hlt), Dev.loseIf_false]
    rw [hd] at g4 g6 g8 hfit ⊢
    obtain ⟨a1, a2⟩ := Dev.setTxRegion_contents _ _ _ (g8.symm.trans hfit)
    obtain ⟨b1, b2⟩ := g6 (g8.symm.trans hfit)
    refine ⟨fun _ => b1.trans a1, fun e he h => ?_⟩
    by_cases hee : e = ep
    · subst hee
      have h3 : (slot d.txf e).depth = BitVec.ofNat 16 n := by
        rw [← h]; exact (g4 e he).trans (by simp [Dev.txDepth, he])
      have h4 : slot d.txf e = { slot d.txf e with depth := BitVec.ofNat 16 n } := by rw [← h3]
      rw [b2 e he, a2 e he fun _ => h4]
      rw [h]; simp only [Dev.setTxRegion_txf, slot_setSlot]; rw [if_pos ⟨trivial, he⟩]; exact h4
    · rw [b2 e he, a2 e he fun h => absurd h hee]
      rw [h]; simp only [Dev.setTxRegion_txf, slot_setSlot]; rw [if_neg (fun h => hee h.1.symm)]

end Sys2Proof.Machine
end

