-- ==== Sys2Proof/Laws/Endpoints.lean ====
section
/-! SUPPORT. Laws of the Endpoint Manager's procedures (spec/41_endpoint_manager.md): what activation and deactivation
leave when no other agent moves. -/

namespace Sys2Proof.Machine

/-! ## Activation (R160, R161) -/

/-- What the three register updates of R160 leave. -/
def Dev.armControl (d : Dev .hardware) (mps : Nat) : Dev .hardware :=
  { d with
    daintmsk := { iepm := d.daintmsk.iepm ||| 1#6, oepm := d.daintmsk.oepm ||| 1#6 }
    diepctl  := setSlot d.diepctl 0
      { slot d.diepctl 0 with mpsiz := BitVec.ofNat 11 mps, usbaep := true, naksts := true }
    doepctl  := setSlot d.doepctl 0
      { slot d.doepctl 0 with usbaep := true, naksts := false, epena := true } }

/-- R143: the layout law gives the regions from the depths. -/
theorem Dev.txf_of_layout {a b : Dev .hardware} (ha : a.LayoutLaw) (hb : b.LayoutLaw) (hr : b.rxfd = a.rxfd)
    (ht : ∀ e, e < N → b.txDepth e = a.txDepth e) : b.txf = a.txf := by
  refine slot_ext (n := N) fun e he => ?_
  have hs : b.txStart e = a.txStart e := by
    rw [hb e he, ha e he, Dev.regionStart, Dev.regionStart, hr]
    congr 3
    refine List.map_congr_left fun k hk => ?_
    have hk' : k < e := by simpa using hk
    rw [ht k (by omega)]
  exact show TxRegion.mk (b.txStart e) (b.txDepth e) = TxRegion.mk (a.txStart e) (a.txDepth e) by rw [hs, ht e he]

/-- R160 `ActivateControlEndpoint(mps)` after its `pre:` line. -/
theorem Dev.activateControl_runs (d : Dev .hardware) (mps : Nat) :
    ∃ d', Runs (activateControlSteps d.cfg mps) d d' ∧ d.ControlActivated mps d' := by
  obtain ⟨d₁, r1, f1, t1, l1, s1, ⟨k1, q1, p1⟩⟩ := (d.armControl mps).setRxFifoSize_runs d.cfg.ctrlRxBytes
  obtain ⟨d₂, r2, t2, o2, f2, l2, s2, ⟨k2, q2, p2⟩⟩ := d₁.setTxFifoSize_runs 0 mps (by decide)
  have f : d₂.rxfd = BitVec.ofNat 16 (rxDepthFor d.cfg d.cfg.ctrlRxBytes) := f2.trans f1
  refine ⟨d₂, ?_, Dev.SameOutsideRegions.trans s1 s2, f, fun h => ?_, t2, fun e h1 h6 => ?_, l2, k1.trans k2,
    fun hr ht hl hfit => ?_, fun hn => p2 ?_⟩
  · rw [activateControlSteps, List.append_assoc]
    refine Runs.append ?_ (r1.append r2)
    refine .one (by simp only [perform]; rw [Dev.rmw_unmaskControl]) ?_
    refine .one (by simp only [perform]; rw [Dev.rmw_activateControl]) ?_
    refine .one (by simp only [perform]; rw [Dev.rmw_arm]) ?_
    exact .done _
  · rw [f, rxDepthFor, h.overhead, h.perChunk, h.ctrlRx]; rfl
  · rw [o2 e h6 (by omega), t1 e h6]; rfl
  · have hc1 : d₁.cfg = d.cfg := by rw [s1]; rfl
    have hc2 : d₂.cfg = d.cfg := by rw [s2, hc1]
    have hd1 : ∀ e, e < N → d₁.txDepth e = d.txDepth e := t1
    have hr : d.rxfd = BitVec.ofNat 16 (rxDepthFor d.cfg d.cfg.ctrlRxBytes) := by
      rw [← hr, BitVec.ofNat_toNat, BitVec.setWidth_eq]
    have ht : d.txDepth 0 = BitVec.ofNat 16 (txDepthFor mps) := by
      rw [show txDepthFor mps = (d.txDepth 0).toNat from ht.symm, BitVec.ofNat_toNat, BitVec.setWidth_eq]
    have hm : txDepthFor mps < 65536 := by rw [show txDepthFor mps = _ from ‹(d.txDepth 0).toNat = _›.symm]; exact (d.txDepth 0).isLt
    have hd2 : ∀ e, e < N → d₂.txDepth e = d.txDepth e := fun e he =>
      (Nat.eq_zero_or_pos e).elim (fun h0 => by rw [h0, ht]; exact t2) fun h0 => (o2 e he (by omega)).trans (hd1 e he)
    have e1 : d₁.txf = d.txf := Dev.txf_of_layout hl l1 (f1.trans hr.symm) hd1
    have e2 : d₂.txf = d.txf := Dev.txf_of_layout hl l2 (f.trans hr.symm) hd2
    have hf := (d.fitsAfter_iff hfit.1).mp hfit
    obtain ⟨a1, b1⟩ := q1 ((d₁.fitsAfter_iff hfit.1).mpr ((Dev.layoutFits_congr (f1.trans hr.symm) hd1 hc1).trans hf))
    obtain ⟨a2, b2⟩ := q2 ((d₂.fitsAfter_iff hm).mpr ((Dev.layoutFits_congr (f.trans hr.symm) hd2 hc2).trans hf))
    refine ⟨(a2 f2).trans (a1 (f1.trans hr.symm)), slot_ext fun e he => ?_, e2⟩
    exact (b2 e he (by rw [e1, e2])).trans (b1 e he (by rw [e1]; rfl))
  · by_cases h1 : rxDepthFor d.cfg d.cfg.ctrlRxBytes < 65536
    · exact .inr fun h => hn ⟨h1, h.2⟩
    · exact .inl (p1 (.inr fun h => h1 h.1))

/-- What the two register updates of R161 leave. -/
def Dev.armIn (d : Dev .hardware) (ep : Nat) (t : EpType) (mps : Nat) : Dev .hardware :=
  { d with
    daintmsk := { d.daintmsk with iepm := d.daintmsk.iepm ||| (1#6 <<< ep) }
    diepctl  := setSlot d.diepctl ep
      { slot d.diepctl ep with
        mpsiz := BitVec.ofNat 11 mps, usbaep := true, naksts := true, eptyp := t, txfnum := BitVec.ofNat 4 ep,
        dpid := false } }

/-- R161 `ActivateInEndpoint(e, t, mps)` after its `pre:` lines. -/
theorem Dev.activateIn_runs (d : Dev .hardware) (ep : Nat) (t : EpType) (mps : Nat) (hep : ep < N) :
    ∃ d', Runs (activateInSteps ep t mps) d d' ∧ (d.armIn ep t mps).SameOutsideRegions d' ∧ d'.rxfd = d.rxfd ∧
      d'.txDepth ep = BitVec.ofNat 16 (txDepthFor mps) ∧ (∀ e, e < N → e ≠ ep → d'.txDepth e = d.txDepth e) ∧
      d'.LayoutLaw ∧ d.FifosKept d' (txDepthFor mps) := by
  obtain ⟨d', r, t2, o2, f2, l2, s2, k2⟩ := (d.armIn ep t mps).setTxFifoSize_runs ep mps hep
  refine ⟨d', ?_, s2, f2, t2, fun e he hne => o2 e he hne, l2, k2⟩
  rw [activateInSteps]
  refine Runs.append ?_ r
  refine .one (by simp only [perform]; rw [Dev.rmw_unmaskIn _ _ hep]) ?_
  refine .one (by simp only [perform]; rw [Dev.rmw_activateIn]) ?_
  exact .done _

/-! ## Deactivation (R162, R163) -/

/-- What the mask update of R162 leaves. -/
def Dev.masked (d : Dev .hardware) (n : Nat) : Dev .hardware :=
  { d with
    daintmsk := { iepm := d.daintmsk.iepm &&& ~~~(1#6 <<< n), oepm := d.daintmsk.oepm &&& ~~~(1#6 <<< n) } }

/-- What the flags and control updates of R162 leave of slot `n`. -/
def Dev.tornDown (d : Dev .hardware) (n : Nat) : Dev .hardware :=
  { d with
    diepint := setSlot d.diepint n (slot d.diepint n &&& ~~~d.cfg.inIntAll)
    doepint := setSlot d.doepint n (slot d.doepint n &&& ~~~d.cfg.outIntAll)
    diepctl := setSlot d.diepctl n (slot d.diepctl n).deactivated
    doepctl := setSlot d.doepctl n ((slot d.doepctl n).deactivated n) }

/-- What the two flush requests of R162 leave. -/
def Dev.flushed (d : Dev .hardware) (n : Nat) : Dev .hardware :=
  { d with
    grstctl := { rxfflsh := !d.cfg.flushSync, txfflsh := !d.cfg.flushSync, txfnum := BitVec.ofNat 5 n }
    rxq     := if d.cfg.flushSync then [] else d.rxq
    txq     := if d.cfg.flushSync then setSlot d.txq n [] else d.txq }

theorem Dev.flushed_runs (d : Dev .hardware) (n : Nat) (hn : n < 32) : Runs [.flushTx n, .flushRx] d (d.flushed n) := by
  cases hs : d.cfg.flushSync with
  | false =>
    refine .one (by simp only [perform]; rw [Dev.requestFlushTx_async _ _ hs]) ?_
    refine .one (d₁ := d.flushed n) ?_ (.done _)
    simp only [perform]
    rw [Dev.requestFlushRx_async _ (by exact hs)]
    simp [Dev.flushed, hs]
  | true =>
    refine .one (by simp only [perform]; rw [Dev.requestFlushTx_sync _ _ hn hs]) ?_
    refine .one (d₁ := d.flushed n) ?_ (.done _)
    simp only [perform]
    rw [Dev.requestFlushRx_sync _ (by exact hs)]
    simp [Dev.flushed, hs]

/-- R162: the disable request of an IN endpoint, made where it is enabled. -/
theorem Dev.deactTestIn_runs (d : Dev .hardware) (n : Nat) :
    Runs [.deactTest .inn n] d { d with
      diepctl := setSlot d.diepctl n
        { slot d.diepctl n with epdis := (slot d.diepctl n).epdis || (slot d.diepctl n).epena } } := by
  refine .step rfl ?_
  simp only [Dev.regRead, Diepctl.pack_epena]
  cases h : (slot d.diepctl n).epena with
  | false =>
    have hs : ({ slot d.diepctl n with epdis := (slot d.diepctl n).epdis || false, epena := false } : Diepctl .hardware) =
        slot d.diepctl n := by rw [← h, Bool.or_eq_left_iff_imp.mpr (by simp [h])]
    simp only [Bool.or_false] at hs ⊢
    rw [hs, setSlot_slot]
    exact .done _
  | true =>
    simp only [Bool.or_true]
    exact .one (by simp only [perform]; rw [Dev.rmw_inEpdis]; simp [h]) (.done _)

/-- R162: the disable request of an OUT endpoint other than 0. -/
theorem Dev.deactTestOut_runs (d : Dev .hardware) (n : Nat) (hn : n ≠ 0) :
    Runs [.deactTest .out n] d { d with
      doepctl := setSlot d.doepctl n
        { slot d.doepctl n with epdis := (slot d.doepctl n).epdis || (slot d.doepctl n).epena } } := by
  refine .step rfl ?_
  simp only [Dev.regRead, Doepctl.pack_epena]
  have ha : (slot d.doepctl n).active n = (slot d.doepctl n).usbaep := by simp [Doepctl.active, hn]
  cases h : (slot d.doepctl n).epena with
  | false =>
    have hs : ({ slot d.doepctl n with epdis := (slot d.doepctl n).epdis || false, epena := false } : Doepctl .hardware) =
        slot d.doepctl n := by rw [← h, Bool.or_eq_left_iff_imp.mpr (by simp [h])]
    simp only [Bool.or_false] at hs ⊢
    rw [hs, setSlot_slot]
    exact .done _
  | true =>
    simp only [Bool.or_true]
    exact .one (by simp only [perform]; rw [Dev.rmw_outEpdis, ha]; simp [h]) (.done _)

/-- The registers of slot `n` after the flags and control updates of R162, the IN flags already cleared. -/
theorem Dev.deactRest_runs (d : Dev .hardware) (n : Nat) (hn : n ≤ N) :
    Runs (deactRestSteps d.cfg n) { d with diepint := setSlot d.diepint n (slot d.diepint n &&& ~~~d.cfg.inIntAll) }
      ((d.tornDown n).flushed n) := by
  have hn' : n ≤ 6 := hn
  have hfl := fun (x : Dev .hardware) => x.flushed_runs n (by omega)
  unfold deactRestSteps
  simp only [List.append_assoc]
  refine .one (t := .clear (.doepint n) d.cfg.outIntAll) rfl ?_
  refine Runs.append (a := [.deactTest .inn n]) (Dev.deactTestIn_runs _ _) ?_
  by_cases h0 : n = 0
  · subst h0
    simp only [if_true, List.nil_append]
    refine .one (by simp only [perform]; rw [Dev.rmw_inInactive]) ?_
    refine cast ?_ (hfl (d.tornDown 0))
    congr 1
    simp [Dev.tornDown, Diepctl.deactivated, Doepctl.deactivated, Dev.intClear, Dev.regWrite, N]
  · simp only [if_neg h0, List.singleton_append]
    refine Runs.append (a := [.deactTest .out n]) (Dev.deactTestOut_runs _ _ h0) ?_
    refine .one (by simp only [perform]; rw [Dev.rmw_inInactive]) ?_
    refine .one (by simp only [perform]; rw [Dev.rmw_outInactive]) ?_
    refine cast ?_ (hfl (d.tornDown n))
    congr 1
    have hb : (n == 0) = false := by simpa using h0
    by_cases h6 : n < N
    · simp [Dev.tornDown, Diepctl.deactivated, Doepctl.deactivated, Dev.intClear, Dev.regWrite, h6, h0, hb]
    · simp [Dev.tornDown, Dev.intClear, Dev.regWrite, setSlot_of_ge _ _ _ (show N ≤ n by omega)]

/-- What DEACTIVATE_EP leaves of slot `n`. -/
def Dev.deactivated (d : Dev .hardware) (n : Nat) : Dev .hardware := ((d.masked n).tornDown n).flushed n

/-- R162 `DeactivateEndpoint(n)` for a slot whose registers may be accessed. -/
theorem Dev.deactivate_runs (d : Dev .hardware) (n : Nat) (hn : n ≤ N) (hp : ¬ (N ≤ n ∧ d.cfg.oorPolicy = .fault)) :
    Runs (deactivateSteps n none) d (d.deactivated n) := by
  refine .one (by simp only [perform]; rw [Dev.rmw_mask _ _ hn]) ?_
  refine .step (more := deactRestSteps d.cfg n)
    (d₁ := { d.masked n with diepint := setSlot d.diepint n (slot d.diepint n &&& ~~~d.cfg.inIntAll) }) ?_ ?_
  · simp only [perform, Dev.deactFlagsStep]
    rw [if_neg (by exact hp)]
    simp [Dev.masked, Daintmsk.mask, Dev.intClear, Dev.regWrite]
  · rw [List.append_nil]
    exact (d.masked n).deactRest_runs n hn

/-- The same with the caller's event after it: the procedure waits there. -/
theorem Dev.deactivate_waits (d : Dev .hardware) (n : Nat) (ev : Event) (rest : List (AccessStep .hardware)) (hn : n ≤ N)
    (hp : ¬ (N ≤ n ∧ d.cfg.oorPolicy = .fault)) :
    RunsToWait (deactivateSteps n (some ev) ++ rest) d ((d.deactivated n).emit ev) rest := by
  refine .step (more := []) (by simp only [perform]; rw [Dev.rmw_mask _ _ hn]) ?_
  refine .step (more := deactRestSteps d.cfg n ++ [.emit ev])
    (d₁ := { d.masked n with diepint := setSlot d.diepint n (slot d.diepint n &&& ~~~d.cfg.inIntAll) }) ?_ ?_
  · simp only [perform, Dev.deactFlagsStep]
    rw [if_neg (by exact hp)]
    simp [Dev.masked, Daintmsk.mask, Dev.intClear, Dev.regWrite]
  · rw [List.append_assoc]
    exact RunsToWait.prepend ((d.masked n).deactRest_runs n hn) (.wait rfl)

/-- R52: under OOR_POLICY = fault the pad slot's deactivation ends at its first register access. -/
theorem Dev.deactivate_pad (d : Dev .hardware) (ev : Option Event) (hp : d.cfg.oorPolicy = .fault) :
    Runs (deactivateSteps N ev) d ((d.masked N).raise .padAccess) := by
  refine .one (by simp only [perform]; rw [Dev.rmw_mask _ _ (Nat.le_refl 6)]) ?_
  refine .one (d₁ := (d.masked N).raise .padAccess) ?_ (.done _)
  simp only [perform, Dev.deactFlagsStep]
  rw [if_pos ⟨Nat.le_refl _, by exact hp⟩]
  rfl

/-! ## Deactivate-all (R163) -/

/-- What the first `k` slots' deactivations leave. -/
def Dev.deactivatedTo (d : Dev .hardware) : Nat → Dev .hardware
  | 0 => d
  | k + 1 => (d.deactivatedTo k).deactivated k

theorem Dev.deactivatedTo_cfg (d : Dev .hardware) (k : Nat) : (d.deactivatedTo k).cfg = d.cfg := by
  induction k with
  | zero => rfl
  | succ k ih => exact ih

theorem Dev.deactivatedTo_runs (d : Dev .hardware) (k : Nat) (hk : k ≤ N) :
    Runs ((List.range k).flatMap fun n => deactivateSteps n none) d (d.deactivatedTo k) := by
  induction k with
  | zero => exact .done _
  | succ k ih =>
    rw [List.range_succ, List.flatMap_append]
    refine (ih (by omega)).append ?_
    simp only [List.flatMap_cons, List.flatMap_nil, List.append_nil]
    exact Dev.deactivate_runs _ k (by omega) (by omega)

/-- Only the fields a deactivation writes differ. -/
def Dev.SameOutsideEndpoints (d d' : Dev .hardware) : Prop :=
  d' = { d with
    daintmsk := d'.daintmsk, diepctl := d'.diepctl, diepint := d'.diepint, doepctl := d'.doepctl,
    doepint := d'.doepint, grstctl := d'.grstctl, rxq := d'.rxq, txq := d'.txq }

theorem Dev.SameOutsideEndpoints.trans {a b c : Dev .hardware} (h₁ : a.SameOutsideEndpoints b) (h₂ : b.SameOutsideEndpoints c) :
    a.SameOutsideEndpoints c := by
  unfold Dev.SameOutsideEndpoints at *
  rw [h₂, h₁]

theorem Dev.deactivated_same (d : Dev .hardware) (n : Nat) : d.SameOutsideEndpoints (d.deactivated n) := rfl

/-- Everything the first `k` deactivations change, and what they leave there. -/
theorem Dev.deactivatedTo_spec (d : Dev .hardware) (k : Nat) (hk : k ≤ 7) :
    let d' := d.deactivatedTo k
    d.SameOutsideEndpoints d' ∧
    (∀ i, i < 6 → d'.daintmsk.iepm.getLsbD i = (!decide (i < k) && d.daintmsk.iepm.getLsbD i)) ∧
    (∀ i, i < 6 → d'.daintmsk.oepm.getLsbD i = (!decide (i < k) && d.daintmsk.oepm.getLsbD i)) ∧
    (∀ e, e < N → slot d'.diepint e = if e < k then slot d.diepint e &&& ~~~d.cfg.inIntAll else slot d.diepint e) ∧
    (∀ e, e < N → slot d'.doepint e = if e < k then slot d.doepint e &&& ~~~d.cfg.outIntAll else slot d.doepint e) ∧
    (∀ e, e < N → slot d'.diepctl e = if e < k then (slot d.diepctl e).deactivated else slot d.diepctl e) ∧
    (∀ e, e < N → slot d'.doepctl e = if e < k then (slot d.doepctl e).deactivated e else slot d.doepctl e) ∧
    (1 ≤ k → d'.grstctl =
      { rxfflsh := !d.cfg.flushSync, txfflsh := !d.cfg.flushSync, txfnum := BitVec.ofNat 5 (k - 1) }) ∧
    d'.rxq = (if d.cfg.flushSync = true ∧ 1 ≤ k then [] else d.rxq) ∧
    (∀ e, e < N → slot d'.txq e = if d.cfg.flushSync = true ∧ e < k then [] else slot d.txq e) := by
  induction k with
  | zero => simp [Dev.deactivatedTo, Dev.SameOutsideEndpoints]
  | succ k ih =>
    obtain ⟨h0, h1, h2, h3, h4, h5, h6, -, h8, h9⟩ := ih (by omega)
    have hc := d.deactivatedTo_cfg k
    refine ⟨?_, fun i hi => ?_, fun i hi => ?_, fun e he => ?_, fun e he => ?_, fun e he => ?_, fun e he => ?_,
      fun _ => ?_, ?_, fun e he => ?_⟩
    · exact h0.trans (Dev.deactivated_same _ _)
    · have hm := Daintmsk.getLsbD_mask (d.deactivatedTo k).daintmsk.iepm k i hi
      refine hm.trans ?_
      rw [h1 i hi]
      by_cases hik : i = k
      · simp [hik]
      · by_cases hlt : i < k <;> simp [hik, hlt] <;> omega
    · have hm := Daintmsk.getLsbD_mask (d.deactivatedTo k).daintmsk.oepm k i hi
      refine hm.trans ?_
      rw [h2 i hi]
      by_cases hik : i = k
      · simp [hik]
      · by_cases hlt : i < k <;> simp [hik, hlt] <;> omega
    · show slot (setSlot (d.deactivatedTo k).diepint k _) e = _
      rw [slot_setSlot]
      by_cases hek : k = e
      · subst hek; simp [he, h3 k he, Dev.masked, hc]
      · by_cases hlt : e < k <;> simp [hek, h3 e he, hlt] <;> omega
    · show slot (setSlot (d.deactivatedTo k).doepint k _) e = _
      rw [slot_setSlot]
      by_cases hek : k = e
      · subst hek; simp [he, h4 k he, Dev.masked, hc]
      · by_cases hlt : e < k <;> simp [hek, h4 e he, hlt] <;> omega
    · show slot (setSlot (d.deactivatedTo k).diepctl k _) e = _
      rw [slot_setSlot]
      by_cases hek : k = e
      · subst hek; simp [he, h5 k he, Dev.masked]
      · by_cases hlt : e < k <;> simp [hek, h5 e he, hlt] <;> omega
    · show slot (setSlot (d.deactivatedTo k).doepctl k _) e = _
      rw [slot_setSlot]
      by_cases hek : k = e
      · subst hek; simp [he, h6 k he, Dev.masked]
      · by_cases hlt : e < k <;> simp [hek, h6 e he, hlt] <;> omega
    · show Grstctl.mk (!(d.deactivatedTo k).cfg.flushSync) (!(d.deactivatedTo k).cfg.flushSync) (BitVec.ofNat 5 k) = _
      rw [hc, Nat.add_sub_cancel]
    · show (if (d.deactivatedTo k).cfg.flushSync then [] else (d.deactivatedTo k).rxq) = _
      rw [hc, h8]
      cases d.cfg.flushSync <;> simp
    · show slot (if (d.deactivatedTo k).cfg.flushSync then setSlot (d.deactivatedTo k).txq k []
        else (d.deactivatedTo k).txq) e = _
      rw [hc]
      cases hs : d.cfg.flushSync with
      | false => simp [h9 e he, hs]
      | true =>
        simp only [if_true, slot_setSlot, h9 e he, hs, true_and]
        by_cases hek : k = e
        · subst hek; simp [he]
        · by_cases hlt : e < k <;> simp [hek, hlt] <;> omega

/-- R38, R54: no aggregate bit is left once every defined cause is cleared. -/
theorem Dev.daint_of_cleared (d d' : Dev .hardware) (hc : d'.cfg = d.cfg)
    (hi : ∀ e, e < N → slot d'.diepint e = slot d.diepint e &&& ~~~d.cfg.inIntAll)
    (ho : ∀ e, e < N → slot d'.doepint e = slot d.doepint e &&& ~~~d.cfg.outIntAll) :
    (∀ e, d'.inPending e = false) ∧ (∀ e, d'.outPending e = false) ∧ d'.daint = 0#32 := by
  have hand : ∀ x m k : Word, x &&& ~~~m &&& m &&& k = 0#32 := by
    intro x m k
    rw [BitVec.and_assoc x, BitVec.and_comm (~~~m), BitVec.and_not_self]
    simp
  have h1 : ∀ e, d'.inPending e = false := by
    intro e
    by_cases he : e < N
    · simp [Dev.inPending, hi e he, hc, hand]
    · simp [Dev.inPending, slot_of_ge _ _ (show N ≤ e by omega), default]
  have h2 : ∀ e, d'.outPending e = false := by
    intro e
    by_cases he : e < N
    · simp [Dev.outPending, ho e he, hc, hand]
    · simp [Dev.outPending, slot_of_ge _ _ (show N ≤ e by omega), default]
  refine ⟨h1, h2, ?_⟩
  have hz : ∀ (f : Nat → Bool) (n : Nat), (∀ e, f e = false) → bitMap f n = 0#32 := by
    intro f n hf
    induction n with
    | zero => rfl
    | succ n ih => simp [bitMap, ih, hf]
  simp [Dev.daint, hz _ _ h1, hz _ _ h2]

theorem mask_all (a b : BitVec 6) (k : Nat) (hk : 6 ≤ k)
    (h : ∀ i, i < 6 → b.getLsbD i = (!decide (i < k) && a.getLsbD i)) : b = 0#6 := by
  apply BitVec.eq_of_getLsbD_eq
  intro i hi
  rw [h i hi]
  simp [show i < k by omega]

/-- R163 where no access to the pad slot faults. -/
theorem Dev.allDeactivated_harmless (d : Dev .hardware) (hp : d.cfg.padFaults = false) :
    d.AllDeactivated (d.deactivatedTo (d.cfg.deactAllLast + 1)) := by
  have hL : (d.cfg.deactAllLast : Nat) < 7 := d.cfg.deactAllLast.isLt
  obtain ⟨h0, h1, h2, h3, h4, h5, h6, h7, h8, h9⟩ := d.deactivatedTo_spec (d.cfg.deactAllLast + 1) hL
  refine ⟨?_, fun e he hv => ?_, fun e he hv => ?_, fun hs => slot_ext fun e he => ?_, fun hN => ⟨?_, ?_⟩⟩
  · refine Eq.trans (show _ = _ from h0) ?_
    rw [h7 (by omega), h8]
    simp [hp]
  · have hk : e < d.cfg.deactAllLast + 1 := by omega
    refine ⟨?_, ?_, (h3 e he).trans (if_pos hk), (h4 e he).trans (if_pos hk), (h5 e he).trans (if_pos hk),
      (h6 e he).trans (if_pos hk), fun hs => (h9 e he).trans (if_pos ⟨hs, hk⟩)⟩
    · rw [h1 e he]; simp [hk]
    · rw [h2 e he]; simp [hk]
  · have hk : ¬ e < d.cfg.deactAllLast + 1 := by omega
    refine ⟨?_, ?_, (h3 e he).trans (if_neg hk), (h4 e he).trans (if_neg hk), (h5 e he).trans (if_neg hk),
      (h6 e he).trans (if_neg hk), (h9 e he).trans (if_neg fun h => hk h.2)⟩
    · rw [h1 e he]; simp [hk]
    · rw [h2 e he]; simp [hk]
  · rw [h9 e he, if_neg (by simp [hs])]
  · exact congr (congrArg Daintmsk.mk (mask_all _ _ _ hN h1)) (mask_all _ _ _ hN h2)
  · exact (Dev.daint_of_cleared d _ (d.deactivatedTo_cfg _) (fun e he => (h3 e he).trans (if_pos (by omega)))
      fun e he => (h4 e he).trans (if_pos (by omega))).2.2

/-- R163 with the pad slot faulting at its first register access (R52). -/
theorem Dev.allDeactivated_fault (d : Dev .hardware) (hp : d.cfg.padFaults = true) (hlast : (d.cfg.deactAllLast : Nat) = N) :
    d.AllDeactivated (((d.deactivatedTo N).masked N).raise .padAccess) := by
  obtain ⟨h0, h1, h2, h3, h4, h5, h6, h7, h8, h9⟩ := d.deactivatedTo_spec N (by decide)
  have hm : ((d.deactivatedTo N).masked N).daintmsk = { iepm := 0#6, oepm := 0#6 } := by
    simp [Dev.masked, mask_all _ _ N (Nat.le_refl _) h1, mask_all _ _ N (Nat.le_refl _) h2]
  refine ⟨?_, fun e he _ => ⟨?_, ?_, (h3 e he).trans (if_pos he), (h4 e he).trans (if_pos he),
    (h5 e he).trans (if_pos he), (h6 e he).trans (if_pos he), fun hs => (h9 e he).trans (if_pos ⟨hs, he⟩)⟩, fun e he hv => by omega,
    fun hs => slot_ext fun e he => ?_, fun _ => ⟨hm, ?_⟩⟩
  · have hf : (((d.deactivatedTo N).masked N).raise .padAccess).fault = (d.raise .padAccess).fault := by
      show (d.deactivatedTo N).fault ||| _ = d.fault ||| _
      rw [h0]
    have hy : ((d.deactivatedTo N).masked N).raise .padAccess = { d.deactivatedTo N with
        daintmsk := ((d.deactivatedTo N).masked N).daintmsk,
        fault := (((d.deactivatedTo N).masked N).raise .padAccess).fault } := rfl
    have hz : ∀ (x : Dev .hardware) (m : Daintmsk .hardware) (f : Word), d.SameOutsideEndpoints x →
        ({ x with daintmsk := m, fault := f } : Dev .hardware) = { d with
          daintmsk := m, fault := f, diepctl := x.diepctl, diepint := x.diepint, doepctl := x.doepctl,
          doepint := x.doepint, grstctl := x.grstctl, rxq := x.rxq, txq := x.txq } := by
      intro x m f hx
      conv_lhs => rw [show x = _ from hx]
    refine hy.trans ((hz _ _ _ h0).trans ?_)
    rw [h7 (by decide), h8, hf]
    simp [hp, Dev.masked, Dev.raise]
  · exact (congrArg (fun m : Daintmsk .hardware => m.iepm.getLsbD e) hm).trans (by simp)
  · exact (congrArg (fun m : Daintmsk .hardware => m.oepm.getLsbD e) hm).trans (by simp)
  · exact (h9 e he).trans (if_neg (by simp [hs]))
  · exact (Dev.daint_of_cleared d _ (d.deactivatedTo_cfg _) (fun e he => (h3 e he).trans (if_pos he))
      fun e he => (h4 e he).trans (if_pos he)).2.2

/-- What `padFaults` says. -/
theorem padFaults_iff {c : Config .hardware} :
    c.padFaults = true ↔ (c.deactAllLast : Nat) = N ∧ c.oorPolicy = .fault := by
  simp [Config.padFaults, Fin.ext_iff]

/-- R163 `DeactivateAll()`, for every setting of the parameters. -/
theorem Dev.deactivateAll_runs (d : Dev .hardware) : ∃ d', Runs (deactivateAllSteps d.cfg none) d d' ∧ d.AllDeactivated d' := by
  have hL : (d.cfg.deactAllLast : Nat) ≤ N := Nat.le_of_lt_succ d.cfg.deactAllLast.isLt
  have hr := d.deactivatedTo_runs d.cfg.deactAllLast hL
  cases hp : d.cfg.padFaults with
  | false =>
    refine ⟨_, hr.append (Dev.deactivate_runs _ _ hL ?_), d.allDeactivated_harmless hp⟩
    rw [d.deactivatedTo_cfg]
    rintro ⟨h, hpol⟩
    exact absurd (padFaults_iff.mpr ⟨Nat.le_antisymm hL h, hpol⟩) (by simp [hp])
  | true =>
    obtain ⟨hlast, hpol⟩ := padFaults_iff.mp hp
    rw [deactivateAllSteps, hlast]
    rw [hlast] at hr
    exact ⟨_, hr.append (Dev.deactivate_pad _ none (by rw [d.deactivatedTo_cfg, hpol])),
      d.allDeactivated_fault hp hlast⟩

end Sys2Proof.Machine
end

