-- ==== Sys2Proof/Laws/Frames.lean ====
section
/-! SUPPORT. What an access step can do to the device, said once: the register it writes and the other parts it may
change; and the properties of access steps that are inherited by the steps they put before the rest. -/

namespace Sys2Proof.Machine

/-- The register an access step writes, if any. -/
def AccessStep.writesReg : AccessStep .hardware → Option Reg
  | .rmw r _ => some r
  | .write r _ => some r
  | .clear r _ => some r
  | .layoutStart e _ => some (regionReg e)
  | .deactFlags n _ => some (.diepint n)
  | .flushRx => some .grstctl
  | .flushTx _ => some .grstctl
  | .layoutRx => none
  | .layoutDepth _ _ => none
  | .deactTest _ _ => none
  | .popData _ _ _ => none
  | .store _ _ => none
  | .checkSize _ _ _ => none
  | .load _ _ _ _ _ => none
  | .push _ _ _ _ _ => none
  | .snapshot => none
  | .popStatus => none
  | .scan _ => none
  | .testXfrc _ _ => none
  | .emit _ => none

/-- A property of the device that every part an access step may change keeps, the access step keeps. -/
theorem perform_keeps {P : Dev .hardware → Prop} (t : AccessStep .hardware)
    (hwrite : ∀ d r w, t.writesReg = some r → P d → P (d.regWrite r w))
    (hraise : ∀ d c, P d → P (d.raise c))
    (hqueues : ∀ d rq tq n o, P d → P { d with rxq := rq, txq := tq, draws := n, overlap := o })
    (hflush : ∀ d g, P d → P { d with grstctl := g })
    (hmem : ∀ d a b, P d → P (d.memWrite a b))
    (hemit : ∀ d ev, t = .emit ev → P d → P (d.emit ev)) (d : Dev .hardware) (h : P d) : P (perform t d).1 := by
  have hpop : ∀ d : Dev .hardware, P d → P d.statusPop.dev ∧ P d.portPop.dev := by
    intro d h
    constructor
    · unfold Dev.statusPop
      split
      · exact hqueues (d.raise .rxUnderflow) d.rxq d.txq _ _ (hraise _ _ h)
      · exact hqueues d _ d.txq d.draws _ h
      · exact hqueues (d.raise .rxDesync) _ d.txq _ _ (hraise _ _ h)
    · unfold Dev.portPop
      split
      · exact hqueues (d.raise .rxUnderflow) d.rxq d.txq _ _ (hraise _ _ h)
      · exact hqueues d _ d.txq d.draws _ h
      · exact hqueues (d.raise .rxDesync) _ d.txq _ _ (hraise _ _ h)
  have hftx : ∀ d : Dev .hardware, P d → P d.flushTxDone := by
    intro d h
    unfold Dev.flushTxDone
    split
    · exact hflush { d with txq := setSlot d.txq d.grstctl.txfnum.toNat [] } _ (hqueues d d.rxq _ d.draws _ h)
    · exact h
  have hfrx : ∀ d : Dev .hardware, P d → P d.flushRxDone := by
    intro d h
    unfold Dev.flushRxDone
    split
    · exact hflush { d with rxq := [] } _ (hqueues d [] d.txq d.draws _ h)
    · exact h
  have hrmw : ∀ r fs, t.writesReg = some r → P (d.regRMW r fs) := by
    intro r fs hr
    rw [Dev.regRMW, Dev.loseIf_eq]
    exact hqueues _ _ _ _ _ (hwrite d r _ hr h)
  cases t with
  | rmw r fs => exact hrmw r fs rfl
  | write r v => exact hwrite d r _ rfl h
  | clear r m => exact hwrite d r _ rfl h
  | layoutRx => exact h
  | layoutStart e cur => exact hrmw (regionReg e) _ rfl
  | layoutDepth e cur => exact h
  | deactFlags n ev =>
    simp only [perform, Dev.deactFlagsStep]
    split
    · exact hraise d _ h
    · exact hwrite d (.diepint n) _ rfl h
  | deactTest dir n => exact h
  | flushRx =>
    have h' := hrmw .grstctl [(F.rxfflsh, 1)] rfl
    simp only [perform, Dev.requestFlushRx]
    split
    · exact hfrx _ h'
    · exact h'
  | flushTx n =>
    have h' := hrmw .grstctl [(F.grsttxfnum, n), (F.txfflsh, 1)] rfl
    simp only [perform, Dev.requestFlushTx]
    split
    · exact hftx _ h'
    · exact h'
  | popData ba size k => exact (hpop d h).2
  | store a b => exact hmem d a b h
  | checkSize e size ba =>
    simp only [perform, Dev.checkSizeStep]
    split
    · exact hraise d _ h
    · exact h
  | load e size ba i lanes =>
    simp only [perform, Dev.loadStep]
    split
    · exact h
    · split
      · exact hqueues d d.rxq d.txq _ _ h
      · exact h
  | push e size ba i w =>
    simp only [perform, Dev.pushStep, Dev.portPush]
    split
    · exact hqueues d d.rxq _ _ _ h
    · exact hraise d _ h
  | snapshot =>
    show P (if _ then _ else _)
    split
    · exact hraise d _ h
    · exact h
  | popStatus =>
    simp only [perform, Dev.popStatusStep]
    split
    · have hp := (hpop d h).1
      simp only [Dev.dispatchStatus, Dev.reArmOut, Dev.outDataGap]
      split
      · exact hp
      · split
        · split
          · exact hraise _ _ hp
          · exact hp
        · split
          · split
            · exact hraise _ _ hp
            · exact hp
          · split
            · show P (if _ then _ else _)
              split
              · exact hp
              · exact hraise _ _ hp
            · exact hp
    · exact (hpop d h).1
  | scan dir => exact h
  | testXfrc dir e => exact h
  | emit ev => exact hemit d ev rfl h

/-- R126: only an event makes an access step wait. -/
theorem perform_wait (t : AccessStep .hardware) (d : Dev .hardware) (h : (perform t d).2 = .wait) : ∃ ev, t = .emit ev := by
  cases t <;> simp only [perform, Dev.layoutRxStep, Dev.layoutStartStep, Dev.layoutDepthStep, Dev.deactFlagsStep,
    Dev.deactTestStep, Dev.popDataStep, Dev.checkSizeStep, Dev.loadStep, Dev.pushStep, Dev.snapshotStep,
    Dev.popStatusStep, Dev.scanStep, Dev.testXfrcStep] at h <;> (repeat' split at h) <;> try cases h
  exact ⟨_, rfl⟩

/-! ## Inherited properties of access steps -/

/-- What an access step can put before the rest. -/
theorem storeSteps_stores (ba : Word) (size k : Nat) (w : RegWord) : ∀ x ∈ storeSteps ba size k w, ∃ a b, x = .store a b := by
  intro x hx
  unfold storeSteps at hx
  obtain ⟨j, -, rfl⟩ := List.mem_map.mp hx
  exact ⟨_, _, rfl⟩

/-- R126: the access steps of a command other than POLL stay such steps. -/
theorem hereditary_emitsNothing : Hereditary fun t => t.pollOnly = false := by
  intro t d more hq h x hx
  cases t with
  | rmw r fs => simp only [perform, After.go.injEq] at h; subst h; simp at hx
  | write r v => simp only [perform, After.go.injEq] at h; subst h; simp at hx
  | clear r m => simp only [perform, After.go.injEq] at h; subst h; simp at hx
  | layoutRx => simp only [perform, Dev.layoutRxStep, After.go.injEq] at h; subst h; simp at hx; subst hx; rfl
  | layoutStart e cur =>
    simp only [perform, Dev.layoutStartStep, After.go.injEq] at h; subst h; simp at hx; subst hx; rfl
  | layoutDepth e cur =>
    simp only [perform, Dev.layoutDepthStep, After.go.injEq] at h; subst h
    split at hx
    · simp at hx; subst hx; rfl
    · simp at hx
  | deactFlags n ev =>
    cases ev with
    | some ev => simp [AccessStep.pollOnly] at hq
    | none =>
      simp only [perform, Dev.deactFlagsStep] at h
      split at h <;> simp only [After.go.injEq] at h <;> subst h
      · simp at hx
      · simp only [Option.toList_none, List.map_nil, List.append_nil] at hx
        unfold deactRestSteps at hx
        split at hx
        · simp at hx; rcases hx with rfl | rfl | rfl | rfl | rfl <;> rfl
        · simp at hx; rcases hx with rfl | rfl | rfl | rfl | rfl | rfl | rfl <;> rfl
  | deactTest dir n =>
    cases dir <;> simp only [perform, Dev.deactTestStep, After.go.injEq] at h <;> subst h <;> split at hx <;>
      simp at hx <;> subst hx <;> rfl
  | flushRx => simp only [perform, After.go.injEq] at h; subst h; simp at hx
  | flushTx n => simp only [perform, After.go.injEq] at h; subst h; simp at hx
  | popData ba size k =>
    simp only [perform, Dev.popDataStep, After.go.injEq] at h; subst h
    split at hx
    · rcases List.mem_append.mp hx with hx | hx
      · obtain ⟨a, b, rfl⟩ := storeSteps_stores _ _ _ _ x hx; rfl
      · split at hx
        · simp at hx; subst hx; rfl
        · simp at hx
    · simp at hx
  | store a b => simp only [perform, After.go.injEq] at h; subst h; simp at hx
  | checkSize e size ba =>
    simp only [perform, Dev.checkSizeStep] at h
    split at h <;> simp only [After.go.injEq] at h <;> subst h
    · simp at hx
    · split at hx <;> simp at hx
      · rcases hx with rfl | rfl <;> rfl
      · rcases hx with rfl | rfl | rfl <;> rfl
  | load e size ba i lanes =>
    simp only [perform, Dev.loadStep] at h
    split at h
    · simp only [After.go.injEq] at h; subst h; simp at hx
    · split at h <;> simp only [After.go.injEq] at h <;> subst h <;> simp at hx <;> subst hx <;> rfl
  | push e size ba i w =>
    simp only [perform, Dev.pushStep, After.go.injEq] at h; subst h
    split at hx
    · simp at hx; subst hx; rfl
    · simp at hx
  | snapshot => simp [AccessStep.pollOnly] at hq
  | popStatus => simp [AccessStep.pollOnly] at hq
  | scan dir => simp [AccessStep.pollOnly] at hq
  | testXfrc dir e => simp [AccessStep.pollOnly] at hq
  | emit ev => simp [perform] at h

theorem commandSteps_deactivate (n : Nat) : ∀ x ∈ deactivateSteps n none, x.pollOnly = false := by
  intro x hx
  simp only [deactivateSteps, List.mem_cons, List.not_mem_nil, or_false] at hx
  rcases hx with rfl | rfl <;> rfl

/-- R126: no command but POLL has an access step that emits. -/
theorem commandSteps_emitsNothing (c : Config .hardware) (i : Instr) (h : i ≠ .poll) : ∀ x ∈ commandSteps c i, x.pollOnly = false := by
  cases i with
  | poll => exact absurd rfl h
  | deactivateEp n => exact commandSteps_deactivate n
  | deactivateAll =>
    intro x hx
    rcases List.mem_append.mp hx with hx | hx
    · obtain ⟨n, -, hx⟩ := List.mem_flatMap.mp hx; exact commandSteps_deactivate n x hx
    · exact commandSteps_deactivate _ x hx
  | readPacket size ba =>
    intro x hx
    simp only [commandSteps, readPacketSteps] at hx
    split at hx
    · simp at hx
    · simp at hx; subst hx; rfl
  | activateControlEp mps =>
    intro x hx
    simp only [commandSteps, activateControlSteps, setRxFifoSizeSteps, setTxFifoSizeSteps, List.mem_append, List.mem_cons,
      List.not_mem_nil, or_false] at hx
    rcases hx with ((rfl | rfl | rfl) | rfl | rfl) | rfl | rfl <;> rfl
  | activateInEp e t mps =>
    intro x hx
    simp only [commandSteps, activateInSteps, setTxFifoSizeSteps, List.mem_append, List.mem_cons, List.not_mem_nil,
      or_false] at hx
    rcases hx with (rfl | rfl) | rfl | rfl <;> rfl
  | initCore =>
    intro x hx
    simp only [commandSteps, initCoreSteps, List.mem_cons, List.not_mem_nil, or_false] at hx
    rcases hx with rfl | rfl | rfl | rfl <;> rfl
  | setRxFifoSize size =>
    intro x hx
    simp only [commandSteps, setRxFifoSizeSteps, List.mem_cons, List.not_mem_nil, or_false] at hx
    rcases hx with rfl | rfl <;> rfl
  | setTxFifoSize e size =>
    intro x hx
    simp only [commandSteps, setTxFifoSizeSteps, List.mem_cons, List.not_mem_nil, or_false] at hx
    rcases hx with rfl | rfl <;> rfl
  | flushRx => intro x hx; simp [commandSteps] at hx; subst hx; rfl
  | flushTx n => intro x hx; simp [commandSteps] at hx; subst hx; rfl
  | writePacket e size ba => intro x hx; simp [commandSteps, writePacketSteps] at hx; subst hx; rfl
  | setAddress a => intro x hx; simp [commandSteps, setAddressSteps] at hx; subst hx; rfl
  | connect => intro x hx; simp [commandSteps, connectSteps] at hx; subst hx; rfl
  | disconnect => intro x hx; simp [commandSteps, disconnectSteps] at hx; subst hx; rfl

/-! ## What the moves of the other agents keep -/

/-- No move but the hardware reset touches FAULT, EVLOG or the parameters; none but the acknowledgement of a waiting
POLL touches the pending event. -/
theorem applyInput_keeps (i : Input .hardware) (s : State) (hi : i ≠ .reset) :
    (applyInput i s).dev.fault = s.dev.fault ∧ (applyInput i s).dev.evlog = s.dev.evlog ∧
    (applyInput i s).dev.cfg = s.dev.cfg ∧
    (s.seq.accepting = false → (applyInput i s).dev.evPending = s.dev.evPending) := by
  cases i with
  | link m =>
    simp only [applyInput, LinkMove.apply]
    split
    · cases m with
      | rxPush a b c d e => simp only [LinkMove.effect, Dev.rxPush]; split <;> exact ⟨rfl, rfl, rfl, fun _ => rfl⟩
      | disableDone dir e => cases dir <;> exact ⟨rfl, rfl, rfl, fun _ => rfl⟩
      | epFlag dir e b => cases dir <;> exact ⟨rfl, rfl, rfl, fun _ => rfl⟩
      | _ => exact ⟨rfl, rfl, rfl, fun _ => rfl⟩
    · exact ⟨rfl, rfl, rfl, fun _ => rfl⟩
  | flush m =>
    cases m <;> simp only [applyInput, FlushMove.apply, Dev.flushTxDone, Dev.flushRxDone] <;> split <;>
      exact ⟨rfl, rfl, rfl, fun _ => rfl⟩
  | host m =>
    cases m with
    | command ws => exact ⟨rfl, rfl, rfl, fun _ => rfl⟩
    | ack =>
      simp only [applyInput, State.At.ackEvent]
      split
      · exact ⟨rfl, rfl, rfl, fun _ => rfl⟩
      · exact ⟨rfl, rfl, rfl, fun _ => rfl⟩
      · next h => exact ⟨rfl, rfl, rfl, fun ha => by rw [h] at ha; simp at ha⟩
      · exact ⟨rfl, rfl, rfl, fun _ => rfl⟩
    | store a bs =>
      show (s.dev.memWriteAll a bs).fault = _ ∧ (s.dev.memWriteAll a bs).evlog = _ ∧
        (s.dev.memWriteAll a bs).cfg = _ ∧ (_ → (s.dev.memWriteAll a bs).evPending = _)
      rw [Dev.memWriteAll_eq]
      exact ⟨rfl, rfl, rfl, fun _ => rfl⟩
  | harness m =>
    cases m with
    | set r f v =>
      obtain ⟨h1, h2, h3, h4, -, -⟩ := Dev.regForce_same s.dev r (f.put v (s.dev.regRead r))
      exact ⟨h2, h4, h1, fun _ => h3⟩
    | _ => exact ⟨rfl, rfl, rfl, fun _ => rfl⟩
  | core _ => exact ⟨rfl, rfl, rfl, fun _ => rfl⟩
  | reset => exact absurd rfl hi

/-- R60: a raised fault keeps the bits that were set. -/
theorem Dev.raise_keeps (f : Word) (d : Dev .hardware) (c : FaultCause) (h : f &&& d.fault = f) : f &&& (d.raise c).fault = f := by
  rw [← h, BitVec.and_assoc, Dev.raise_sticky]

end Sys2Proof.Machine
end

