-- ==== Sys2Proof/Laws/Invariant.lean ====
section
/-! SUPPORT. What keeps the invariant of the device (Safety.lean): register writes, forces, faults, events, every access
step and every move of LINK. -/

namespace Sys2Proof.Machine

/-- Clearing bits keeps a mask's bits zero. -/
theorem word_and_clear (x w m : Word) (h : x &&& m = 0#32) : x &&& ~~~w &&& m = 0#32 := by
  rw [BitVec.and_assoc, BitVec.and_comm (~~~w), ← BitVec.and_assoc, h]; simp

/-- A register write keeps the device's invariant (R22, R45, R91). -/
theorem Dev.Inv_regWrite (d : Dev .hardware) (r : Reg) (w : Word) (h : d.Inv) : (d.regWrite r w).Inv := by
  refine ⟨by simpa using h.memory, by simpa using h.fault, ?_, Dev.regWrite_control d r w h.control, by simpa using h.named, ?_, ?_,
      by simpa using h.events, by simpa using h.pending⟩
  · cases r <;> try exact h.gintsts
    exact word_and_clear _ _ _ h.gintsts
  · intro e he
    rw [Dev.regWrite_cfg]
    cases r <;> try exact h.inFlags e he
    rename_i k
    simp only [Dev.regWrite, slot_setSlot]
    split
    · next hk => rw [hk.1]; exact word_and_clear _ _ _ (h.inFlags e he)
    · exact h.inFlags e he
  · intro e he
    rw [Dev.regWrite_cfg]
    cases r <;> try exact h.outFlags e he
    rename_i k
    simp only [Dev.regWrite, slot_setSlot]
    split
    · next hk => rw [hk.1]; exact word_and_clear _ _ _ (h.outFlags e he)
    · exact h.outFlags e he

/-- So does a force by the harness (R267). -/
theorem Dev.Inv_regForce (d : Dev .hardware) (r : Reg) (w : Word) (h : d.Inv) : (d.regForce r w).Inv := by
  obtain ⟨h1, h2, h3, h4, h5, h6⟩ := Dev.regForce_same d r w
  have hz : ∀ m : Word, w &&& m &&& ~~~m = 0#32 := by intro m; rw [BitVec.and_assoc, BitVec.and_not_self]; simp
  refine ⟨by rw [h6]; exact h.memory, by rw [h2]; exact h.fault, ?_, ?_, by rw [h1]; exact h.named, ?_, ?_, by rw [h4]; exact h.events,
      by rw [h3, h4]; exact h.pending⟩
  · cases r <;> try exact h.gintsts
    show w &&& ~~~gintstsDerived &&& gintstsDerived = 0#32
    rw [BitVec.and_assoc, BitVec.and_comm (~~~_), BitVec.and_not_self]; simp
  · cases r <;> try exact h.control
    rename_i k
    simp only [Dev.regForce, slot_setSlot]
    split
    · next hk => simp [Doepctl.unpack, hk.1]
    · exact h.control
  · intro e he
    rw [h1]
    cases r <;> try exact h.inFlags e he
    simp only [Dev.regForce, slot_setSlot]
    split
    · exact hz _
    · exact h.inFlags e he
  · intro e he
    rw [h1]
    cases r <;> try exact h.outFlags e he
    simp only [Dev.regForce, slot_setSlot]
    split
    · exact hz _
    · exact h.outFlags e he

/-- Setting bits outside a mask keeps its bits zero. -/
theorem word_or_legal (x y m : Word) (h : x &&& m = 0#32) (h2 : y &&& m = 0#32) : (x ||| y) &&& m = 0#32 := by
  rw [BitVec.and_comm, BitVec.and_or_distrib_left, BitVec.and_comm, h, BitVec.and_comm, h2]; simp

/-- A bit inside a mask is outside its complement. -/
theorem word_bit_legal (b : Nat) (m : Word) (h : m.getLsbD b = true) : (1#32 <<< b) &&& ~~~m = 0#32 := by
  apply BitVec.eq_of_getLsbD_eq
  intro i hi
  simp only [BitVec.getLsbD_and, BitVec.getLsbD_shiftLeft, BitVec.getLsbD_not, BitVec.getLsbD_zero, BitVec.getLsbD_one]
  by_cases hb : i = b
  · subst hb; simp [h]
  · have : ¬ (i < b) → ¬ (i - b = 0) := by omega
    by_cases h1 : i < b <;> simp [h1]; intro; omega

/-- R42, R46: the bits of the named causes `xfrc` and `epdisd` are inside a mask that defines both. -/
theorem word_named_legal (m : Word) (h : m &&& 3#32 = 3#32) :
    m.getLsbD F.xfrc.lo = true ∧ F.xfrc.mask &&& ~~~m = 0#32 ∧ F.epdisd.mask &&& ~~~m = 0#32 := by
  have hb : ∀ i, i < 2 → m.getLsbD i = true := by
    intro i hi
    have := congrArg (fun w : Word => w.getLsbD i) h
    rcases (by omega : i = 0 ∨ i = 1) with rfl | rfl <;> simpa using this
  exact ⟨hb 0 (by decide), word_bit_legal 0 m (hb 0 (by decide)), word_bit_legal 1 m (hb 1 (by decide))⟩

/-- Raising a fault keeps it (R283). -/
theorem Dev.Inv_raise (d : Dev .hardware) (c : FaultCause) (h : d.Inv) : (d.raise c).Inv :=
  ⟨h.memory, Dev.raise_legal d c h.fault, h.gintsts, h.control, h.named, h.inFlags, h.outFlags, h.events, h.pending⟩

/-- R125, R127: every event's word is an event word. -/
theorem Event.word_legal (ev : Event) : eventWordLegal ev.word = true := by
  have key : ∀ (code ep : BitVec 4) (bc : BitVec 11), (eventWord code ep bc).extractLsb' 28 4 = code ∧
      (eventWord code ep bc).extractLsb' 24 4 = ep ∧ (eventWord code ep bc).extractLsb' 0 11 = bc ∧
      (eventWord code ep bc).extractLsb' 11 13 = 0#13 := by
    intro code ep bc
    unfold eventWord
    refine ⟨?_, ?_, ?_, ?_⟩ <;> apply BitVec.eq_of_getLsbD_eq <;> intro i hi <;>
      simp only [BitVec.getLsbD_append, BitVec.getLsbD_extractLsb', hi, decide_true, Bool.true_and]
    · rw [if_neg (by omega), if_neg (by omega), if_neg (by omega)]; congr 1; omega
    · rw [if_neg (by omega), if_neg (by omega), if_pos (by omega)]; congr 1; omega
    · rw [if_pos (by omega)]; congr 1; omega
    · rw [if_neg (by omega), if_pos (by omega)]; simp
  cases ev <;> simp only [Event.word, eventWordLegal] <;> simp [key]

/-- Every access step keeps the device's invariant. -/
theorem perform_Inv (t : AccessStep .hardware) (d : Dev .hardware) (h : d.Inv) : (perform t d).1.Inv := by
  refine perform_keeps (P :=
      Dev.Inv) t (fun d r w _ h => Dev.Inv_regWrite d r w h) (fun d c h => Dev.Inv_raise d c h) ?_ ?_ ?_ ?_ d h
  · intro d _ _ _ _ h; exact ⟨h.memory, h.fault, h.gintsts, h.control, h.named, h.inFlags, h.outFlags, h.events, h.pending⟩
  · intro d _ h; exact ⟨h.memory, h.fault, h.gintsts, h.control, h.named, h.inFlags, h.outFlags, h.events, h.pending⟩
  · intro d a b h; exact ⟨Dev.wf_memWrite _ _ _ h.memory, h.fault, h.gintsts, h.control, h.named, h.inFlags, h.outFlags,
      h.events, h.pending⟩
  · intro d ev _ h
    refine ⟨h.memory, h.fault, h.gintsts, h.control, h.named, h.inFlags, h.outFlags, ?_, ?_⟩
    · intro w hw
      rcases List.mem_append.mp hw with hw | hw
      · exact h.events w hw
      · simp at hw; subst hw; exact Event.word_legal ev
    · intro w hw; simp only [Dev.emit, Option.some.injEq] at hw; subst hw; simp [Dev.emit]

/-- Setting a defined cause flag keeps it (R258, R259). -/
theorem Dev.Inv_setEpFlag (d : Dev .hardware) (dir : Dir) (e b : Nat) (hb : causeDefined d.cfg dir b = true) (h : d.Inv) :
    (d.setEpFlag dir e b).Inv := by
  cases dir
  · refine ⟨h.memory, h.fault, h.gintsts, h.control, h.named, ?_, h.outFlags, h.events, h.pending⟩
    intro k hk; simp only [Dev.setEpFlag, slot_setSlot]; split
    · next he => rw [he.1]; exact word_or_legal _ _ _ (h.inFlags k hk) (word_bit_legal _ _ hb)
    · exact h.inFlags k hk
  · refine ⟨h.memory, h.fault, h.gintsts, h.control, h.named, h.inFlags, ?_, h.events, h.pending⟩
    intro k hk; simp only [Dev.setEpFlag, slot_setSlot]; split
    · next he => rw [he.1]; exact word_or_legal _ _ _ (h.outFlags k hk) (word_bit_legal _ _ hb)
    · exact h.outFlags k hk

/-- Every move of LINK keeps it (R250 to R260). -/
theorem LinkMove.apply_Inv (m : LinkMove) (d : Dev .hardware) (h : d.Inv) : (m.apply d).Inv := by
  unfold LinkMove.apply
  split
  · next hen =>
    have setIn : ∀ e (dc : Vector (Diepctl .hardware) N) ds, ∀ f, f &&& ~~~d.cfg.inIntAll = 0#32 → ∀ tq wt,
        ({ d with
          txq := tq, wireTx := wt, dieptsiz := ds, diepctl := dc,
          diepint := setSlot d.diepint e (slot d.diepint e ||| f) } : Dev .hardware).Inv := by
      intro e dc ds f hf tq wt
      refine ⟨h.memory, h.fault, h.gintsts, h.control, h.named, ?_, h.outFlags, h.events, h.pending⟩
      intro k hk; simp only [slot_setSlot]; split
      · next he => rw [he.1]; exact word_or_legal _ _ _ (h.inFlags k hk) hf
      · exact h.inFlags k hk
    have hin := word_named_legal _ h.named.1
    have hout := word_named_legal _ h.named.2
    cases m with
    | busReset => exact ⟨h.memory, h.fault, word_or_legal _ _ _ h.gintsts (by decide), h.control, h.named, h.inFlags,
        h.outFlags, h.events, h.pending⟩
    | enumDone => exact ⟨h.memory, h.fault, word_or_legal _ _ _ h.gintsts (by decide), h.control, h.named, h.inFlags,
        h.outFlags, h.events, h.pending⟩
    | rxPush ep bc dp ps pl =>
      have h1 : ∀ xs, (d.rxAppend xs).Inv := fun xs => ⟨h.memory, h.fault, h.gintsts, h.control, h.named, h.inFlags,
          h.outFlags, h.events, h.pending⟩
      simp only [LinkMove.effect, Dev.rxPush]
      split
      · have := h1 (RxWord.status (statusEntry ep bc dp ps) :: if pktCarriesData ps = true then List.map RxWord.data (payloadWords d.draws pl) else [])
        refine ⟨this.memory, this.fault, this.gintsts, ?_, this.named, this.inFlags, this.outFlags, this.events, this.pending⟩
        simp only [Dev.outStopped, slot_setSlot]; split
        · next he => rw [he.1]; exact this.control
        · exact this.control
      · exact h1 _
    | txSend e => exact setIn e _ _ _ hin.2.1 _ _
    | disableDone dir e =>
      cases dir with
      | inn => exact setIn e _ _ _ hin.2.2 _ _
      | out =>
        refine ⟨h.memory, h.fault, h.gintsts, ?_, h.named, h.inFlags, ?_, h.events, h.pending⟩
        · simp only [LinkMove.effect, Dev.disableDone, slot_setSlot]; split
          · next he => rw [he.1]; exact h.control
          · exact h.control
        · intro k hk; simp only [LinkMove.effect, Dev.disableDone, slot_setSlot]; split
          · next he => rw [he.1]; exact word_or_legal _ _ _ (h.outFlags k hk) hout.2.2
          · exact h.outFlags k hk
    | outXfrc e => exact Dev.Inv_setEpFlag d .out e _ hout.1 h
    | epFlag dir e b =>
      refine Dev.Inv_setEpFlag d dir e b ?_ h
      simp only [LinkMove.enabled, Bool.and_eq_true] at hen; exact hen.2
    | otherGint b =>
      refine ⟨h.memory, h.fault, word_or_legal _ _ _ h.gintsts ?_, h.control, h.named, h.inFlags, h.outFlags, h.events,
          h.pending⟩
      simp only [LinkMove.enabled, otherGintBit, Bool.and_eq_true, decide_eq_true_eq, bne_iff_ne] at hen
      have := word_bit_legal b (~~~gintstsDerived) (by
        obtain ⟨⟨⟨⟨⟨h1, h2⟩, -⟩, -⟩, h3⟩, h4⟩ := hen
        simp only [F.rxflvl, F.iepint, F.oepint] at h2 h3 h4
        rcases (by omega : b < 16 ∨ 16 ≤ b) with hb | hb
        · interval_cases b <;> first | decide | exact absurd rfl h2
        · interval_cases b <;> first | decide | exact absurd rfl h3 | exact absurd rfl h4)
      simpa using this
  · exact h

end Sys2Proof.Machine
end

