-- ==== Sys2Proof/Laws/Masks.lean ====
section
/-! SUPPORT. The enable and mask registers GAHBCFG, GINTMSK, DIEPMSK, DOEPMSK: the access steps that do not write them,
which are all of every command but INIT_CORE (spec/44_glue.md R240), and every handler of POLL. -/

namespace Sys2Proof.Machine

/-- A register that enables or masks interrupts. -/
def Reg.isMask : Reg → Bool
  | .gahbcfg => true
  | .gintmsk => true
  | .diepmsk => true
  | .doepmsk => true
  | .grstctl => false
  | .gintsts => false
  | .grxfsiz => false
  | .dieptxf0 => false
  | .dieptxf _ => false
  | .dcfg => false
  | .dctl => false
  | .daint => false
  | .daintmsk => false
  | .diepctl _ => false
  | .diepint _ => false
  | .dieptsiz _ => false
  | .doepctl _ => false
  | .doepint _ => false

/-- The access step writes none of them. -/
def AccessStep.sparesMasks (t : AccessStep .hardware) : Prop := ∀ r, t.writesReg = some r → r.isMask = false

theorem regionReg_isMask (e : Nat) : (regionReg e).isMask = false := by cases e <;> rfl
theorem deactRestSteps_sparesMasks (c : Config .hardware) (n : Nat) : ∀ x ∈ deactRestSteps c n, x.sparesMasks := by
  intro x hx
  unfold deactRestSteps at hx
  split at hx
  · simp at hx; rcases hx with rfl | rfl | rfl | rfl | rfl <;> intro r hr <;> simp [AccessStep.writesReg] at hr <;>
      (try subst hr) <;> rfl
  · simp at hx; rcases hx with rfl | rfl | rfl | rfl | rfl | rfl | rfl <;> intro r hr <;>
      simp [AccessStep.writesReg] at hr <;> (try subst hr) <;> rfl
theorem deactivateSteps_sparesMasks (n : Nat) (ev) : ∀ x ∈ deactivateSteps n ev, x.sparesMasks := by
  intro x hx; simp [deactivateSteps] at hx; rcases hx with rfl | rfl <;> intro r hr <;>
      simp [AccessStep.writesReg] at hr <;> (try subst hr) <;> rfl
theorem deactivateAllSteps_sparesMasks (c : Config .hardware) (ev) : ∀ x ∈ deactivateAllSteps c ev, x.sparesMasks := by
  intro x hx
  rcases List.mem_append.mp hx with hx | hx
  · obtain ⟨n, -, hx⟩ := List.mem_flatMap.mp hx; exact deactivateSteps_sparesMasks _ _ x hx
  · exact deactivateSteps_sparesMasks _ _ x hx
theorem activateControlSteps_sparesMasks (c : Config .hardware) (mps) : ∀ x ∈ activateControlSteps c mps, x.sparesMasks := by
  intro x hx
  simp only [activateControlSteps, setRxFifoSizeSteps, setTxFifoSizeSteps, List.mem_append, List.mem_cons,
      List.not_mem_nil, or_false] at hx
  rcases hx with ((rfl | rfl | rfl) | rfl | rfl) | rfl | rfl  <;> intro r hr <;>
      simp [AccessStep.writesReg] at hr <;> (try subst hr) <;> rfl
theorem sparesMasks_of_none (t : AccessStep .hardware) (h : t.writesReg = none) : t.sparesMasks :=
    by intro r hr; rw [h] at hr; cases hr
theorem sparesMasks_of_some (t : AccessStep .hardware) (r) (h : t.writesReg = some r) (h2 : r.isMask = false) :
    t.sparesMasks := by intro r' hr; rw [h] at hr; cases hr; exact h2

theorem hereditary_sparesMasks : Hereditary AccessStep.sparesMasks := by
  intro t d more hq h x hx
  cases t with
  | rmw r fs => simp only [perform, After.go.injEq] at h; subst h; simp at hx
  | write r v => simp only [perform, After.go.injEq] at h; subst h; simp at hx
  | clear r m => simp only [perform, After.go.injEq] at h; subst h; simp at hx
  | layoutRx => simp only [perform, Dev.layoutRxStep,
      After.go.injEq] at h; subst h; simp at hx; subst hx; exact sparesMasks_of_some _ _ rfl (regionReg_isMask _)
  | layoutStart e cur =>
    simp only [perform, Dev.layoutStartStep,
        After.go.injEq] at h; subst h; simp at hx; subst hx; exact sparesMasks_of_none _ rfl
  | layoutDepth e cur =>
    simp only [perform, Dev.layoutDepthStep, After.go.injEq] at h; subst h
    split at hx
    · simp at hx; subst hx; exact sparesMasks_of_some _ _ rfl (regionReg_isMask _)
    · simp at hx
  | deactFlags n ev =>
      simp only [perform, Dev.deactFlagsStep] at h
      split at h <;> simp only [After.go.injEq] at h <;> subst h
      · simp at hx
      · rcases List.mem_append.mp hx with hx | hx
        · exact deactRestSteps_sparesMasks _ _ x hx
        · obtain ⟨_, -, rfl⟩ := List.mem_map.mp hx; exact sparesMasks_of_none _ rfl
  | deactTest dir n =>
    cases dir <;> simp only [perform, Dev.deactTestStep, After.go.injEq] at h <;> subst h <;> split at hx <;>
      simp at hx <;> subst hx <;> exact sparesMasks_of_some _ _ rfl rfl
  | flushRx => simp only [perform, After.go.injEq] at h; subst h; simp at hx
  | flushTx n => simp only [perform, After.go.injEq] at h; subst h; simp at hx
  | popData ba size k =>
    simp only [perform, Dev.popDataStep, After.go.injEq] at h; subst h
    split at hx
    · rcases List.mem_append.mp hx with hx | hx
      · obtain ⟨a, b, rfl⟩ := storeSteps_stores _ _ _ _ x hx; exact sparesMasks_of_none _ rfl
      · split at hx
        · simp at hx; subst hx; exact sparesMasks_of_none _ rfl
        · simp at hx
    · simp at hx
  | store a b => simp only [perform, After.go.injEq] at h; subst h; simp at hx
  | checkSize e size ba =>
    simp only [perform, Dev.checkSizeStep] at h
    split at h <;> simp only [After.go.injEq] at h <;> subst h
    · simp at hx
    · split at hx <;> simp at hx
      · rcases hx with rfl | rfl <;> exact sparesMasks_of_some _ _ rfl rfl
      · rcases hx with rfl | rfl | rfl <;>
          first | exact sparesMasks_of_some _ _ rfl rfl | exact sparesMasks_of_none _ rfl
  | load e size ba i lanes =>
    simp only [perform, Dev.loadStep] at h
    split at h
    · simp only [After.go.injEq] at h; subst h; simp at hx
    · split at h <;> simp only [After.go.injEq] at h <;> subst h <;> simp at hx <;> subst hx <;>
        exact sparesMasks_of_none _ rfl
  | push e size ba i w =>
    simp only [perform, Dev.pushStep, After.go.injEq] at h; subst h
    split at hx
    · simp at hx; subst hx; exact sparesMasks_of_none _ rfl
    · simp at hx
  | snapshot =>
    simp only [perform, Dev.snapshotStep, After.go.injEq] at h; subst h
    have ht : ∀ f, ∀ x ∈ pollTail f, x.sparesMasks := by
      intro f x hx; simp [pollTail] at hx; rcases hx with rfl | rfl
      · exact sparesMasks_of_some _ _ rfl rfl
      · exact sparesMasks_of_none _ rfl
    cases hc : classify (d.regRead .gintsts) <;> rw [hc] at hx <;> simp only [causeSteps] at hx
    · rcases List.mem_append.mp hx with hx | hx
      · exact deactivateAllSteps_sparesMasks _ _ x hx
      · exact ht _ x hx
    · rcases List.mem_append.mp hx with hx | hx
      · split at hx
        · exact activateControlSteps_sparesMasks _ _ x hx
        · simp at hx
      · exact ht _ x hx
    · rcases List.mem_append.mp hx with hx | hx
      · simp at hx; subst hx; exact sparesMasks_of_none _ rfl
      · exact ht _ x hx
    · rcases List.mem_append.mp hx with hx | hx
      · simp at hx; subst hx; exact sparesMasks_of_none _ rfl
      · exact ht _ x hx
    · rcases List.mem_append.mp hx with hx | hx
      · simp at hx; subst hx; exact sparesMasks_of_none _ rfl
      · exact ht _ x hx
    · simp at hx; subst hx; exact sparesMasks_of_none _ rfl
  | popStatus =>
    simp only [perform, Dev.popStatusStep, Dev.dispatchStatus, Dev.reArmOut] at h
    split at h
    · simp only [After.go.injEq] at h
      subst h
      split at hx
      · simp at hx; subst hx; exact sparesMasks_of_none _ rfl
      · split at hx
        · split at hx
          · simp at hx
          · simp at hx; subst hx; exact sparesMasks_of_some _ _ rfl rfl
        · split at hx
          · split at hx
            · simp at hx
            · simp at hx; subst hx; exact sparesMasks_of_some _ _ rfl rfl
          · split at hx <;> simp at hx
    · simp only [After.go.injEq] at h; subst h; simp at hx
  | scan dir =>
    simp only [perform, Dev.scanStep, After.go.injEq] at h; subst h
    split at hx <;> simp at hx; subst hx; exact sparesMasks_of_none _ rfl
  | testXfrc dir e =>
    cases dir <;> simp only [perform, Dev.testXfrcStep, After.go.injEq] at h <;> subst h <;> split at hx <;>
        simp at hx <;> rcases hx with rfl | rfl <;>
        first | exact sparesMasks_of_some _ _ rfl rfl | exact sparesMasks_of_none _ rfl
  | emit ev => simp [perform] at h

/-- No command but INIT_CORE has an access step that writes one of them. -/
theorem commandSteps_sparesMasks (c : Config .hardware) (i : Instr) (hi : i ≠ .initCore) : ∀ x ∈ commandSteps c i, x.sparesMasks := by
  cases i with
  | initCore => exact absurd rfl hi
  | deactivateEp n => exact deactivateSteps_sparesMasks _ _
  | deactivateAll => exact deactivateAllSteps_sparesMasks _ _
  | activateControlEp m => exact activateControlSteps_sparesMasks c m
  | readPacket size ba =>
    intro x hx
    simp only [commandSteps, readPacketSteps] at hx
    split at hx
    · simp at hx
    · simp at hx; subst hx; exact sparesMasks_of_none _ rfl
  | activateInEp e t mps =>
    intro x hx
    simp only [commandSteps, activateInSteps, setTxFifoSizeSteps, List.mem_append, List.mem_cons, List.not_mem_nil,
      or_false] at hx
    rcases hx with (rfl | rfl) | rfl | rfl <;>
        first | exact sparesMasks_of_some _ _ rfl (regionReg_isMask _) | exact sparesMasks_of_some _ _ rfl rfl | exact sparesMasks_of_none _ rfl
  | setRxFifoSize size =>
    intro x hx
    simp only [commandSteps, setRxFifoSizeSteps, List.mem_cons, List.not_mem_nil, or_false] at hx
    rcases hx with rfl | rfl <;> first | exact sparesMasks_of_some _ _ rfl rfl | exact sparesMasks_of_none _ rfl
  | setTxFifoSize e size =>
    intro x hx
    simp only [commandSteps, setTxFifoSizeSteps, List.mem_cons, List.not_mem_nil, or_false] at hx
    rcases hx with rfl | rfl <;>
        first | exact sparesMasks_of_some _ _ rfl (regionReg_isMask _) | exact sparesMasks_of_some _ _ rfl rfl | exact sparesMasks_of_none _ rfl
  | flushRx => intro x hx; simp [commandSteps] at hx; subst hx; exact sparesMasks_of_some _ _ rfl rfl
  | flushTx n => intro x hx; simp [commandSteps] at hx; subst hx;  exact sparesMasks_of_some _ _ rfl rfl
  | writePacket e size ba => intro x hx; simp [commandSteps,
      writePacketSteps] at hx; subst hx;  exact sparesMasks_of_none _ rfl
  | setAddress a => intro x hx; simp [commandSteps,
      setAddressSteps] at hx; subst hx;  exact sparesMasks_of_some _ _ rfl rfl
  | connect => intro x hx; simp [commandSteps, connectSteps] at hx; subst hx;  exact sparesMasks_of_some _ _ rfl rfl
  | disconnect => intro x hx; simp [commandSteps,
      disconnectSteps] at hx; subst hx;  exact sparesMasks_of_some _ _ rfl rfl
  | poll => intro x hx; simp [commandSteps, pollSteps] at hx; subst hx;  exact sparesMasks_of_none _ rfl

theorem Dev.regWrite_masks (d : Dev .hardware) (r : Reg) (w : Word) (h : r.isMask = false) : (d.regWrite r w).gint = d.gint ∧
    (d.regWrite r w).gintmsk = d.gintmsk ∧ (d.regWrite r w).diepmsk = d.diepmsk ∧
    (d.regWrite r w).doepmsk = d.doepmsk := by
  cases r <;> first | exact ⟨rfl, rfl, rfl, rfl⟩ | simp [Reg.isMask] at h

end Sys2Proof.Machine
end

