-- ==== Sys2Proof/Laws/Packets.lean ====
section
/-! SUPPORT. Laws of the byte mover (spec/42_packet_transfer.md): byte lanes, the stores of READ_PACKET and the words of
WRITE_PACKET, when no other agent moves. -/

namespace Sys2Proof.Machine

/-! ## Byte lanes (R84) -/

/-- Bit `i` of a word made of bytes, whatever its width. -/
theorem getLsbD_wordOfBytes {w : Nat} (bs : List Byte) (i : Nat) :
    (wordOfBytes bs : BitVec w).getLsbD i = (decide (i < w) && (bs[i / 8]?.getD 0#8).getLsbD (i % 8)) := by
  induction bs generalizing i with
  | nil => simp [wordOfBytes]
  | cons b bs ih =>
    have hcons : (wordOfBytes (b :: bs) : BitVec w) = wordOfBytes bs <<< 8 ||| b.setWidth w := rfl
    rw [hcons, BitVec.getLsbD_or, BitVec.getLsbD_shiftLeft, BitVec.getLsbD_setWidth, ih]
    by_cases h : i < 8
    · simp [h, Nat.div_eq_of_lt h, Nat.mod_eq_of_lt h]
    · rw [b.getLsbD_of_ge i (by omega), show i / 8 = (i - 8) / 8 + 1 by omega, show i % 8 = (i - 8) % 8 by omega]
      by_cases hw : i < w
      · simp [h, hw, show i - 8 < w by omega]
      · simp [hw]

/-- Lane `j` of a word made of bytes is byte `j`. -/
theorem lane_wordOfBytes {w : Nat} (bs : List Byte) (j : Nat) (hj : 8 * j + 8 ≤ w) :
    lane (wordOfBytes bs : BitVec w) j = bs[j]?.getD 0#8 := by
  apply BitVec.eq_of_getLsbD_eq
  intro i hi
  rw [lane, BitVec.getLsbD_extractLsb', getLsbD_wordOfBytes, show (8 * j + i) / 8 = j by omega,
    show (8 * j + i) % 8 = i by omega]
  simp [hi, show 8 * j + i < w by omega]

/-- A lane below the number of bytes packed holds its byte; the lanes above are draws. -/
theorem lane_packLanes {w : Nat} (draw : Nat) (bs : List Byte) (j : Nat) (hj : j < bs.length) (hw : j < w / 8) :
    lane (packLanes draw bs : BitVec w) j = bs[j]?.getD 0#8 := by
  rw [packLanes, lane_wordOfBytes _ _ (by omega)]
  simp [hw, hj]

theorem wordBytes_length (w : Word) : (wordBytes w).length = 4 := rfl

theorem flatMap_wordBytes_length (ws : List RegWord) : (ws.flatMap wordBytes).length = 4 * ws.length := by
  induction ws with
  | nil => rfl
  | cons w ws ih => simp [List.flatMap_cons, ih, wordBytes_length]; omega

/-- Byte `k` of a sequence of words is lane `k mod 4` of word `k div 4` (R84, R191). -/
theorem flatMap_wordBytes_get (ws : List RegWord) (k : Nat) (hk : k < 4 * ws.length) :
    (ws.flatMap wordBytes)[k]?.getD 0#8 = lane (ws[k / 4]?.getD 0#32) (k % 4) := by
  induction ws generalizing k with
  | nil => simp at hk
  | cons w ws ih =>
    rw [List.flatMap_cons]
    by_cases h : k < 4
    · rw [List.getElem?_append_left (by simpa [wordBytes_length] using h), Nat.div_eq_of_lt h, Nat.mod_eq_of_lt h]
      match k, h with
      | 0, _ => rfl
      | 1, _ => rfl
      | 2, _ => rfl
      | 3, _ => rfl
    · rw [List.getElem?_append_right (by simp [wordBytes_length]; omega), wordBytes_length]
      have hk' : k - 4 < 4 * ws.length := by simp at hk; omega
      rw [ih (k - 4) hk']
      have h1 : k / 4 = (k - 4) / 4 + 1 := by omega
      have h2 : k % 4 = (k - 4) % 4 := by omega
      rw [h1, h2]
      rfl

/-! ## Stores at consecutive buffer addresses (R83) -/

/-- The stores of `bs` to buffer indices `i`, `i + 1`, ... -/
def storesOf (ba : Word) (i : Nat) : List Byte → List (AccessStep .hardware)
  | [] => []
  | b :: bs => .store (bufferAddr ba i) b :: storesOf ba (i + 1) bs

/-- The memory they leave. -/
def Memory.writeFrom (m : Memory) (ba : Word) (i : Nat) : List Byte → Memory
  | [] => m
  | b :: bs => Memory.writeFrom (Memory.write m (bufferAddr ba i).toNat b) ba (i + 1) bs

theorem storesOf_runs (ba : Word) (bs : List Byte) : ∀ (i : Nat) (d : Dev .hardware),
    Runs (storesOf ba i bs) d { d with mem := Memory.writeFrom d.mem ba i bs } := by
  induction bs with
  | nil => intro i d; exact .done d
  | cons b bs ih => intro i d; exact .one rfl (ih (i + 1) (d.memWrite (bufferAddr ba i) b))

theorem Memory.writeFrom_append (m : Memory) (ba : Word) (a b : List Byte) : ∀ (i : Nat),
    Memory.writeFrom m ba i (a ++ b) = Memory.writeFrom (Memory.writeFrom m ba i a) ba (i + a.length) b := by
  induction a generalizing m with
  | nil => intro i; rfl
  | cons x a ih =>
    intro i
    rw [List.cons_append, Memory.writeFrom, Memory.writeFrom, ih, List.length_cons]
    congr 1
    omega

theorem Memory.wf_writeFrom (m : Memory) (ba : Word) (bs : List Byte) (hw : Memory.wf m = true) : ∀ i,
    Memory.wf (Memory.writeFrom m ba i bs) = true := by
  induction bs generalizing m with
  | nil => intro i; exact hw
  | cons b bs ih => intro i; exact ih _ (Memory.wf_write m _ b (bufferAddr ba i).isLt hw) (i + 1)

theorem bufferAddr_inj (ba : Word) (i j : Nat) (hi : i < 2 ^ 32) (hj : j < 2 ^ 32)
    (h : bufferAddr ba i = bufferAddr ba j) : i = j := by
  simp only [bufferAddr, BitVec.add_right_inj] at h
  have := congrArg BitVec.toNat h
  simp only [BitVec.toNat_ofNat] at this
  rwa [Nat.mod_eq_of_lt hi, Nat.mod_eq_of_lt hj] at this

/-- Each byte stored is read back at its index; every other address reads as before. -/
theorem Memory.read_writeFrom (m : Memory) (ba : Word) (bs : List Byte) (hw : Memory.wf m = true) :
    ∀ i, i + bs.length ≤ 2 ^ 32 →
      (∀ k, k < bs.length → Memory.read (Memory.writeFrom m ba i bs) (bufferAddr ba (i + k)).toNat = bs[k]?.getD 0#8) ∧
      ∀ a : Word, (∀ k, k < bs.length → a ≠ bufferAddr ba (i + k)) →
        Memory.read (Memory.writeFrom m ba i bs) a.toNat = Memory.read m a.toNat := by
  induction bs generalizing m with
  | nil => intro i _; exact ⟨fun k hk => absurd hk (Nat.not_lt_zero k), fun _ _ => rfl⟩
  | cons b bs ih =>
    intro i hi
    simp only [List.length_cons] at hi
    have hw' := Memory.wf_write m _ b (bufferAddr ba i).isLt hw
    obtain ⟨h1, h2⟩ := ih _ hw' (i + 1) (by omega)
    constructor
    · intro k hk
      cases k with
      | zero =>
        rw [Memory.writeFrom, h2]
        · rw [Memory.read_write _ _ _ _ hw]; simp
        · intro k hk' he
          have := bufferAddr_inj ba (i + 0) (i + 1 + k) (by omega) (by omega) he
          omega
      | succ k =>
        have := h1 k (by simpa using hk)
        rw [Memory.writeFrom, show i + (k + 1) = i + 1 + k by omega, this]
        rfl
    · intro a ha
      rw [Memory.writeFrom, h2, Memory.read_write _ _ _ _ hw, if_neg]
      · intro he
        exact ha 0 (by simp) (BitVec.eq_of_toNat_eq he.symm)
      · intro k hk he
        refine ha (k + 1) (by simpa using hk) ?_
        rw [he, show i + (k + 1) = i + 1 + k by omega]

/-! ## READ_PACKET (R190, R191) -/

theorem storeSteps_eq (ba : Word) (size k : Nat) (w : RegWord) :
    storeSteps ba size k w = storesOf ba (4 * k) ((wordBytes w).take (size - 4 * k)) := by
  have h4 : List.range 4 = [0, 1, 2, 3] := rfl
  have hb : wordBytes w = [lane w 0, lane w 1, lane w 2, lane w 3] := rfl
  rw [storeSteps, Shape.hardware_wordBytes, h4, hb]
  rcases (by omega : size ≤ 4 * k ∨ size = 4 * k + 1 ∨ size = 4 * k + 2 ∨ size = 4 * k + 3 ∨ 4 * k + 4 ≤ size)
    with h | h | h | h | h
  · have e0 : ¬ 4 * k + 0 < size := by omega
    have e1 : ¬ 4 * k + 1 < size := by omega
    have e2 : ¬ 4 * k + 2 < size := by omega
    have e3 : ¬ 4 * k + 3 < size := by omega
    have hs : size - 4 * k = 0 := by omega
    simp only [List.filter, e0, e1, e2, e3, decide_false, hs]
    rfl
  · have e0 : 4 * k + 0 < size := by omega
    have e1 : ¬ 4 * k + 1 < size := by omega
    have e2 : ¬ 4 * k + 2 < size := by omega
    have e3 : ¬ 4 * k + 3 < size := by omega
    have hs : size - 4 * k = 1 := by omega
    simp only [List.filter, e0, e1, e2, e3, decide_true, decide_false, hs]
    rfl
  · have e0 : 4 * k + 0 < size := by omega
    have e1 : 4 * k + 1 < size := by omega
    have e2 : ¬ 4 * k + 2 < size := by omega
    have e3 : ¬ 4 * k + 3 < size := by omega
    have hs : size - 4 * k = 2 := by omega
    simp only [List.filter, e0, e1, e2, e3, decide_true, decide_false, hs]
    rfl
  · have e0 : 4 * k + 0 < size := by omega
    have e1 : 4 * k + 1 < size := by omega
    have e2 : 4 * k + 2 < size := by omega
    have e3 : ¬ 4 * k + 3 < size := by omega
    have hs : size - 4 * k = 3 := by omega
    simp only [List.filter, e0, e1, e2, e3, decide_true, decide_false, hs]
    rfl
  · have e0 : 4 * k + 0 < size := by omega
    have e1 : 4 * k + 1 < size := by omega
    have e2 : 4 * k + 2 < size := by omega
    have e3 : 4 * k + 3 < size := by omega
    obtain ⟨n, hs⟩ : ∃ n, size - 4 * k = n + 4 := ⟨size - 4 * k - 4, by omega⟩
    simp only [List.filter, e0, e1, e2, e3, decide_true, hs, List.take_succ_cons, List.take_nil]
    rfl

/-- From the pop of word `k` on, RXQ holding every word still to come. -/
theorem popData_runs (ba : Word) (size : Nat) (rest : List (RxWord .hardware)) (ws : List RegWord) : ∀ (k : Nat) (d : Dev .hardware),
    4 * k < size → k + ws.length = (size + 3) / 4 → d.rxq = ws.map RxWord.data ++ rest →
    Runs [.popData ba size k] d { d with
      rxq := rest, mem := Memory.writeFrom d.mem ba (4 * k) ((ws.flatMap wordBytes).take (size - 4 * k)) } := by
  induction ws with
  | nil => intro k d hk hl; simp at hl; omega
  | cons w ws ih =>
    intro k d hk hl hq
    simp only [List.length_cons] at hl
    refine .step (by simp only [perform,
        Dev.popDataStep, Shape.hardware_wordBytes]; rw [d.portPop_data w (ws.map RxWord.data ++ rest) (by simpa using hq)]) ?_
    rw [storeSteps_eq, List.append_nil]
    refine (storesOf_runs ba _ (4 * k) _).append ?_
    rw [List.flatMap_cons, List.take_append, wordBytes_length, Memory.writeFrom_append]
    by_cases hlast : 4 * (k + 1) < size
    · rw [if_pos hlast]
      have := ih (k + 1)
        ({ d with
          rxq := ws.map RxWord.data ++ rest
          mem := Memory.writeFrom d.mem ba (4 * k) ((wordBytes w).take (size - 4 * k)) } : Dev .hardware) hlast (by omega) rfl
      have hlen : ((wordBytes w).take (size - 4 * k)).length = 4 := by
        rw [List.length_take, wordBytes_length]; omega
      rw [hlen, show size - 4 * k - 4 = size - 4 * (k + 1) by omega, show 4 * k + 4 = 4 * (k + 1) by omega]
      exact this
    · rw [if_neg hlast]
      have hws : ws = [] := List.eq_nil_of_length_eq_zero (by omega)
      subst hws
      simp only [List.flatMap_nil, List.take_nil, Memory.writeFrom]
      exact .done _

/-- From the pop of word `k` on, RXQ running out, or showing a status entry, after `ws`. -/
theorem popData_faults (ba : Word) (size : Nat) (tail : List (RxWord .hardware)) (ht : tail = [] ∨ ∃ w r, tail = .status w :: r)
    (ws : List RegWord) : ∀ (k : Nat) (d : Dev .hardware), 4 * (k + ws.length) < size → d.rxq = ws.map RxWord.data ++ tail →
    ∃ n, Runs [.popData ba size k] d { d with
      rxq := tail.tail, draws := n, fault := d.fault ||| (if tail = [] then 0x8#32 else 0x10#32)
      mem := Memory.writeFrom d.mem ba (4 * k) (ws.flatMap wordBytes) } := by
  induction ws with
  | nil =>
    intro k d hk hq
    rcases ht with rfl | ⟨w, r, rfl⟩
    · refine ⟨d.draws + 1, .step (more := []) ?_ (.done _)⟩
      have hq' : d.rxq = [] := hq
      simp only [perform, Dev.popDataStep, Dev.portPop, hq', Dev.popEmpty, Dev.raise]
      simp [hq', FaultCause.code, Memory.writeFrom]
    · refine ⟨d.draws + 1, .step (more := []) ?_ (.done _)⟩
      have hq' : d.rxq = .status w :: r := hq
      simp only [perform, Dev.popDataStep, Dev.portPop, hq', Dev.popDesync, Dev.raise]
      simp [FaultCause.code, Memory.writeFrom]
  | cons w ws ih =>
    intro k d hk hq
    simp only [List.length_cons] at hk
    obtain ⟨n, hr⟩ := ih (k + 1)
      ({ d with
        rxq := ws.map RxWord.data ++ tail
        mem := Memory.writeFrom d.mem ba (4 * k) (wordBytes w) } : Dev .hardware) (by omega) rfl
    refine ⟨n, .step (by simp only [perform,
        Dev.popDataStep, Shape.hardware_wordBytes]; rw [d.portPop_data w (ws.map RxWord.data ++ tail) (by simpa using hq)]) ?_⟩
    rw [storeSteps_eq, List.append_nil, List.take_of_length_le (by rw [wordBytes_length]; omega),
      if_pos (by omega : 4 * (k + 1) < size)]
    refine (storesOf_runs ba _ (4 * k) _).append ?_
    rw [List.flatMap_cons, Memory.writeFrom_append, wordBytes_length, show 4 * k + 4 = 4 * (k + 1) by omega]
    simpa using hr

/-! ## WRITE_PACKET (R192, R193) -/

/-- The source bytes of word `k`. -/
def Dev.sourceBytes (d : Dev .hardware) (ba : Word) (size k : Nat) : List Byte :=
  (List.range (min 4 (size - 4 * k))).map fun j => d.memRead (bufferAddr ba (4 * k + j))

theorem Dev.loadStep_more (d : Dev .hardware) (e size : Nat) (ba : Word) (i : Nat) (lanes : List Byte) (h1 : (i + 1) % 4 ≠ 0)
    (h2 : i + 1 < size) : perform (.load e size ba i lanes) d =
      (d, .go [.load e size ba (i + 1) (lanes ++ [d.memRead (bufferAddr ba i)])]) := by
  simp only [perform, Dev.loadStep, Shape.hardware_wordBytes]
  rw [if_neg (by omega), if_neg (by omega)]

theorem Dev.loadStep_done (d : Dev .hardware) (e size : Nat) (ba : Word) (i : Nat) (lanes : List Byte)
    (h : (i + 1) % 4 = 0 ∨ i + 1 = size) (h2 : i < size) : perform (.load e size ba i lanes) d =
      ({ d with draws := d.draws + 1 },
        .go [.push e size ba (i + 1) (packLanes d.draws (lanes ++ [d.memRead (bufferAddr ba i)]))]) := by
  simp only [perform, Dev.loadStep, Shape.hardware_wordBytes]
  rw [if_neg (by omega), if_pos h]

/-- The reads of one word end in its push. -/
theorem loadWord_runs (e size : Nat) (ba : Word) (k : Nat) (d d' : Dev .hardware) (rest : List (AccessStep .hardware)) (hk : 4 * k < size)
    (hr : Runs (.push e size ba (4 * k + min 4 (size - 4 * k)) (packLanes d.draws (d.sourceBytes ba size k)) :: rest)
      { d with draws := d.draws + 1 } d') :
    Runs (.load e size ba (4 * k) [] :: rest) d d' := by
  unfold Dev.sourceBytes at hr
  rcases (by omega : size = 4 * k + 1 ∨ size = 4 * k + 2 ∨ size = 4 * k + 3 ∨ 4 * k + 4 ≤ size) with h | h | h | h
  · rw [show min 4 (size - 4 * k) = 1 by omega] at hr
    exact .step (Dev.loadStep_done _ _ _ _ _ _ (by omega) (by omega)) hr
  · rw [show min 4 (size - 4 * k) = 2 by omega] at hr
    refine .step (Dev.loadStep_more _ _ _ _ _ _ (by omega) (by omega)) ?_
    exact .step (Dev.loadStep_done _ _ _ _ _ _ (by omega) (by omega)) hr
  · rw [show min 4 (size - 4 * k) = 3 by omega] at hr
    refine .step (Dev.loadStep_more _ _ _ _ _ _ (by omega) (by omega)) ?_
    refine .step (Dev.loadStep_more _ _ _ _ _ _ (by omega) (by omega)) ?_
    exact .step (Dev.loadStep_done _ _ _ _ _ _ (by omega) (by omega)) hr
  · rw [show min 4 (size - 4 * k) = 4 by omega] at hr
    refine .step (Dev.loadStep_more _ _ _ _ _ _ (by omega) (by omega)) ?_
    refine .step (Dev.loadStep_more _ _ _ _ _ _ (by omega) (by omega)) ?_
    refine .step (Dev.loadStep_more _ _ _ _ _ _ (by omega) (by omega)) ?_
    exact .step (Dev.loadStep_done _ _ _ _ _ _ (by omega) (by omega)) hr

/-- Lane `j` of word `k` of a packet holds source byte `4 * k + j`. -/
theorem lane_sourceBytes (d : Dev .hardware) (draw size : Nat) (ba : Word) (k j : Nat) (hj : j < 4) (hk : 4 * k + j < size) :
    lane (packLanes draw (d.sourceBytes ba size k) : RegWord) j = d.memRead (bufferAddr ba (4 * k + j)) := by
  have hl : (d.sourceBytes ba size k).length = min 4 (size - 4 * k) := by simp [Dev.sourceBytes]
  rw [lane_packLanes _ _ _ (by omega) (by simpa using hj)]
  have : j < min 4 (size - 4 * k) := by omega
  simp [Dev.sourceBytes, this]

/-- From the first read of word `k` on, with `n` words to go and room for `r`: as many words as fit are queued, and
`tx_overflow` is set where one does not fit. The words' contents hold while LayoutFits has held (R144). -/
theorem load_runs (e size : Nat) (ba : Word) (he : e < N) (n : Nat) : ∀ (k : Nat) (d : Dev .hardware),
    k + n = (size + 3) / 4 → 0 < n →
    ∃ (ws : List RegWord) (m : Nat),
      Runs [.load e size ba (4 * k) []] d { d with
        txq := setSlot d.txq e (slot d.txq e ++ ws), draws := m
        fault := if n ≤ (d.txDepth e).toNat - (slot d.txq e).length then d.fault else d.fault ||| 0x20#32 } ∧
      ws.length = min n ((d.txDepth e).toNat - (slot d.txq e).length) ∧
      (d.overlap = false → ∀ i j, i < ws.length → j < 4 → 4 * (k + i) + j < size →
        lane (ws[i]?.getD 0#32) j = d.memRead (bufferAddr ba (4 * (k + i) + j))) := by
  induction n with
  | zero => intro k d _ h; omega
  | succ n ih =>
    intro k d hkn _
    have hk : 4 * k < size := by omega
    by_cases hroom : (slot d.txq e).length < (d.txDepth e).toNat
    · have hr : ({ d with draws := d.draws + 1 } : Dev .hardware).txHasRoom e = true := decide_eq_true hroom
      -- the word that is queued, unspecified once LayoutFits has been false
      obtain ⟨w, hw, hwv⟩ : ∃ w, blurTx d.overlap (d.draws + 1) e (slot d.txq e).length
          [packLanes d.draws (d.sourceBytes ba size k)] = [w] ∧
          (d.overlap = false → w = packLanes d.draws (d.sourceBytes ba size k)) :=
        ⟨_, rfl, fun h => by simp [h]⟩
      have hpush : ({ d with draws := d.draws + 1 } : Dev .hardware).portPush e (packLanes d.draws (d.sourceBytes ba size k)) =
          { d with txq := setSlot d.txq e (slot d.txq e ++ [w]), draws := d.draws + 2 } := by
        simp only [Dev.portPush, hr, if_true, Dev.txAppend, hw]
      by_cases hlast : n = 0
      · subst hlast
        refine ⟨[w], d.draws + 2, ?_, by simp; omega, ?_⟩
        · refine loadWord_runs e size ba k d _ [] hk ?_
          refine .step (more := []) ?_ (.done _)
          have h1 : 0 + 1 ≤ (d.txDepth e).toNat - (slot d.txq e).length := by omega
          have h2 : ¬ 4 * k + min 4 (size - 4 * k) < size := by omega
          simp [perform, Dev.pushStep, hr, hpush, h1, h2]
        · intro ho i j hi hj hs
          have hi0 : i = 0 := by simpa using hi
          subst hi0
          rw [Nat.add_zero] at hs ⊢
          simp only [List.getElem?_cons_zero, Option.getD_some, hwv ho]
          exact lane_sourceBytes d _ size ba k j hj hs
      · obtain ⟨ws, m, hruns, hlen, hval⟩ := ih (k + 1)
          ({ d with txq := setSlot d.txq e (slot d.txq e ++ [w]), draws := d.draws + 2 } : Dev .hardware) (by omega) (by omega)
        have hs' : slot (setSlot d.txq e (slot d.txq e ++ [w])) e = slot d.txq e ++ [w] := by simp [he]
        simp only [hs', List.length_append, List.length_singleton] at hruns hlen
        refine ⟨w :: ws, m, ?_, ?_, ?_⟩
        · refine loadWord_runs e size ba k d _ [] hk ?_
          refine .step (more := [.load e size ba (4 * (k + 1)) []]) (by
            simp only [perform, Dev.pushStep, hr, hpush]
            rw [if_pos (by simp; omega), show 4 * k + min 4 (size - 4 * k) = 4 * (k + 1) by omega]) ?_
          refine cast ?_ hruns
          congr 1
          have hd : (({ d with txq := setSlot d.txq e (slot d.txq e ++ [w]), draws := d.draws + 2 } : Dev .hardware).txDepth
            e) = d.txDepth e := rfl
          rw [setSlot_setSlot, List.append_assoc, hd]
          by_cases hf : n + 1 ≤ (d.txDepth e).toNat - (slot d.txq e).length
          · rw [if_pos hf, if_pos (by omega)]; rfl
          · rw [if_neg hf, if_neg (by omega)]; rfl
        · rw [List.length_cons, hlen]
          show min n ((d.txDepth e).toNat - _) + 1 = _
          omega
        · intro ho i j hi hj hs
          cases i with
          | zero =>
            rw [Nat.add_zero] at hs ⊢
            simp only [List.getElem?_cons_zero, Option.getD_some, hwv ho]
            exact lane_sourceBytes d _ size ba k j hj hs
          | succ i =>
            have := hval ho i j (by simpa using hi) hj (by omega)
            rw [show k + (i + 1) = k + 1 + i by omega]
            exact this
    · have hr : ({ d with draws := d.draws + 1 } : Dev .hardware).txHasRoom e = false := decide_eq_false hroom
      refine ⟨[], d.draws + 1, ?_, by simp; omega, fun _ i j hi => by simp at hi⟩
      refine loadWord_runs e size ba k d _ [] hk ?_
      refine .step (more := []) ?_ (.done _)
      have h1 : ¬ n + 1 ≤ (d.txDepth e).toNat - (slot d.txq e).length := by omega
      simp [perform, Dev.pushStep, hr, h1, Dev.portPush, Dev.raise, FaultCause.code]

/-- WRITE_PACKET within the endpoint's maximum packet size: the two registers are programmed, then the words move. -/
theorem writePacket_runs (e size : Nat) (ba : Word) (d d' : Dev .hardware) (hm : size ≤ (slot d.diepctl e).mpsiz.toNat)
    (hr : Runs (if size = 0 then [] else [.load e size ba 0 []])
      { d with
        dieptsiz := setSlot d.dieptsiz e { xfrsiz := BitVec.ofNat 19 size, pktcnt := 1#10 }
        diepctl := setSlot d.diepctl e { slot d.diepctl e with stall := false, naksts := false, epena := true } } d') :
    Runs (writePacketSteps e size ba) d d' := by
  have hchk : ¬ F.mpsiz.get (d.regRead (.diepctl e)) < size := by
    have : F.mpsiz.get (d.regRead (.diepctl e)) = (slot d.diepctl e).mpsiz.toNat := Diepctl.pack_mpsiz _
    omega
  refine .step (by simp only [perform, Dev.checkSizeStep]; rw [if_neg hchk]) ?_
  refine .one (by simp only [perform]; rw [Dev.rmw_transferSize]) ?_
  refine .one (by simp only [perform]; rw [Dev.rmw_transmit]) ?_
  show Runs ((if size = 0 then [] else [.load e size ba 0 []]) ++ []) _ _
  rw [List.append_nil]
  exact hr

/-- WRITE_PACKET above it: `oversize` is set, and nothing else happens. -/
theorem writePacket_oversize (e size : Nat) (ba : Word) (d : Dev .hardware) (hm : (slot d.diepctl e).mpsiz.toNat < size) :
    Runs (writePacketSteps e size ba) d (d.raise .oversize) := by
  have hchk : F.mpsiz.get (d.regRead (.diepctl e)) < size := by
    have : F.mpsiz.get (d.regRead (.diepctl e)) = (slot d.diepctl e).mpsiz.toNat := Diepctl.pack_mpsiz _
    omega
  exact .one (by simp only [perform, Dev.checkSizeStep]; rw [if_pos hchk]) (.done _)

/-! ## Received packets (R253) -/

/-- R253: the data words of a payload: as many as hold it, each byte in its lane. -/
theorem payloadWords_spec (dr : Nat) (pl : List Byte) : (payloadWords dr pl : List Word).length = (pl.length + 3) / 4 ∧
    ∀ k, k < pl.length → lane ((payloadWords dr pl : List Word)[k / 4]?.getD 0#32) (k % 4) = pl[k]?.getD 0#8 := by
  have hl : ceilDiv pl.length (32 / 8) = (pl.length + 3) / 4 := rfl
  refine ⟨by simp [payloadWords, hl], fun k hk => ?_⟩
  have hk4 : k / 4 < (pl.length + 3) / 4 := by omega
  have hw : (payloadWords dr pl : List Word)[k / 4]?.getD 0#32 = packLanes dr ((pl.drop (4 * (k / 4))).take 4) := by
    rw [payloadWords, hl, List.getElem?_map, List.getElem?_range hk4]; rfl
  have hlen : k % 4 < ((pl.drop (4 * (k / 4))).take 4).length := by
    rw [List.length_take, List.length_drop]; omega
  rw [hw, lane_packLanes _ _ _ hlen (by omega), List.getElem?_take_of_lt (by omega), List.getElem?_drop,
    show 4 * (k / 4) + k % 4 = k by omega]

/-- R128, R253: the fields of a status entry. -/
theorem statusEntry_fields (e b : Nat) (dp : BitVec 2) (ps : BitVec 4) :
    (statusEntry e b dp ps : Word).extractLsb' 0 4 = BitVec.ofNat 4 e ∧
    (statusEntry e b dp ps : Word).extractLsb' 4 11 = BitVec.ofNat 11 b ∧
    (statusEntry e b dp ps : Word).extractLsb' 15 2 = dp ∧ (statusEntry e b dp ps : Word).extractLsb' 17 4 = ps ∧
    (statusEntry e b dp ps : Word).extractLsb' 21 11 = 0#11 := by
  refine ⟨?_, ?_, ?_, ?_, ?_⟩ <;> simp [statusEntry, packFields, putFields, extract_put_same, extract_put_other]

end Sys2Proof.Machine
end

