-- ==== Sys2Proof/Laws/PerInstr.lean ====
section
/-! SUPPORT. Per command: the words it is encoded to match its own row of the opcode map (spec/30_encoding.md R111 to
R116), opcode, must-be-zero bits and length. -/

namespace Sys2Proof.Laws.EncodeMatches

/-- The first word of a well-formed command has its row's opcode and no must-be-zero bit set, and the command has the
number of words its row says. -/
def Statement (i : Instr) : Prop :=
  i.wf = true → ∃ r, rowOf r.opcode = some r ∧ ∃ cw more, encode i = cw :: more ∧ opcodeOf cw = r.opcode ∧
    cw &&& r.mask = r.pattern ∧ more.length = if r.twoWords then 1 else 0

/-- What each command needs: its row, and its first word field by field. -/
theorem of_row {i : Instr} {r : OpcodeRow} (op ep imm : Nat) (t : BitVec 2) (more : List Word) (a a' : BitVec 8)
    (b b' : BitVec 4) (c c' d d' : BitVec 2) (e e' : BitVec 16) (hr : rowOf op = some r)
    (hop : op = r.opcode) (he : encode i = commandWord op ep t imm :: more)
    (hl : more.length = if r.twoWords then 1 else 0) (hm : r.mask = a ++ b ++ c ++ d ++ e)
    (hp : r.pattern = a' ++ b' ++ c' ++ d' ++ e') (ho : op < 256) (hep : ep < 16) (hi : imm < 65536)
    (h1 : BitVec.ofNat 8 op &&& a = a') (h2 : BitVec.ofNat 4 ep &&& b = b') (h3 : t &&& c = c')
    (h4 : 0#2 &&& d = d') (h5 : BitVec.ofNat 16 imm &&& e = e') :
    ∃ r, rowOf r.opcode = some r ∧ ∃ cw more, encode i = cw :: more ∧ opcodeOf cw = r.opcode ∧
      cw &&& r.mask = r.pattern ∧ more.length = if r.twoWords then 1 else 0 := by
  refine ⟨r, by rw [← hop]; exact hr, _, _, he, ?_, ?_, hl⟩
  · rw [(commandWord_fields op ep t imm ho hep hi).1, hop]
  · rw [hm, hp, commandWord, and_fields, h1, h2, h3, h4, h5]

theorem setRxFifoSize (size : Nat) : Statement (.setRxFifoSize size) := by
  intro h
  simp only [Instr.wf, decide_eq_true_eq] at h
  exact of_row 0x01 0 size 0 []
    (0xFF#8) (0x01#8)
    (0xF#4) (0#4) (3#2) (0#2) (3#2) (0#2) (0x0#16) (0#16) rfl rfl rfl rfl rfl rfl (by decide) (by decide) h
    rfl rfl rfl rfl BitVec.and_zero

theorem setTxFifoSize (ep : Nat) (size : Nat) : Statement (.setTxFifoSize ep size) := by
  intro h
  simp only [Instr.wf, Bool.and_eq_true, decide_eq_true_eq] at h
  exact of_row 0x02 ep size 0 []
    (0xFF#8) (0x02#8)
    (0x0#4) (0#4) (3#2) (0#2) (3#2) (0#2) (0x0#16) (0#16) rfl rfl rfl rfl rfl rfl (by decide) h.1 h.2
    rfl BitVec.and_zero rfl rfl BitVec.and_zero

theorem activateControlEp (mps : Nat) : Statement (.activateControlEp mps) := by
  intro h
  simp only [Instr.wf, decide_eq_true_eq] at h
  exact of_row 0x10 0 mps 0 []
    (0xFF#8) (0x10#8)
    (0xF#4) (0#4) (3#2) (0#2) (3#2) (0#2) (0x0#16) (0#16) rfl rfl rfl rfl rfl rfl (by decide) (by decide) h
    rfl rfl rfl rfl BitVec.and_zero

theorem activateInEp (ep : Nat) (t : EpType) (mps : Nat) : Statement (.activateInEp ep t mps) := by
  intro h
  simp only [Instr.wf, Bool.and_eq_true, decide_eq_true_eq] at h
  exact of_row 0x11 ep mps (codeOfEpType t) []
    (0xFF#8) (0x11#8)
    (0x0#4) (0#4) (0#2) (0#2) (3#2) (0#2) (0x0#16) (0#16) rfl rfl rfl rfl rfl rfl (by decide) h.1 h.2
    rfl BitVec.and_zero BitVec.and_zero rfl BitVec.and_zero

theorem deactivateEp (ep : Nat) : Statement (.deactivateEp ep) := by
  intro h
  simp only [Instr.wf, decide_eq_true_eq] at h
  exact of_row 0x12 ep 0 0 []
    (0xFF#8) (0x12#8)
    (0x0#4) (0#4) (3#2) (0#2) (3#2) (0#2) (0xFFFF#16) (0#16) rfl rfl rfl rfl rfl rfl (by decide) h (by decide)
    rfl BitVec.and_zero rfl rfl rfl

theorem deactivateAll : Statement (.deactivateAll) := by
  intro _
  exact of_row 0x13 0 0 0 []
    (0xFF#8) (0x13#8)
    (0xF#4) (0#4) (3#2) (0#2) (3#2) (0#2) (0xFFFF#16) (0#16) rfl rfl rfl rfl rfl rfl (by decide) (by decide) (by decide)
    rfl rfl rfl rfl rfl

theorem flushRx : Statement (.flushRx) := by
  intro _
  exact of_row 0x14 0 0 0 []
    (0xFF#8) (0x14#8)
    (0xF#4) (0#4) (3#2) (0#2) (3#2) (0#2) (0xFFFF#16) (0#16) rfl rfl rfl rfl rfl rfl (by decide) (by decide) (by decide)
    rfl rfl rfl rfl rfl

theorem flushTx (ep : Nat) : Statement (.flushTx ep) := by
  intro h
  simp only [Instr.wf, decide_eq_true_eq] at h
  exact of_row 0x15 ep 0 0 []
    (0xFF#8) (0x15#8)
    (0x0#4) (0#4) (3#2) (0#2) (3#2) (0#2) (0xFFFF#16) (0#16) rfl rfl rfl rfl rfl rfl (by decide) h (by decide)
    rfl BitVec.and_zero rfl rfl rfl

theorem readPacket (size : Nat) (ba : Word) : Statement (.readPacket size ba) := by
  intro h
  simp only [Instr.wf, decide_eq_true_eq] at h
  exact of_row 0x20 0 size 0 [ba]
    (0xFF#8) (0x20#8)
    (0xF#4) (0#4) (3#2) (0#2) (3#2) (0#2) (0x0#16) (0#16) rfl rfl rfl rfl rfl rfl (by decide) (by decide) h
    rfl rfl rfl rfl BitVec.and_zero

theorem writePacket (ep : Nat) (size : Nat) (ba : Word) : Statement (.writePacket ep size ba) := by
  intro h
  simp only [Instr.wf, Bool.and_eq_true, decide_eq_true_eq] at h
  exact of_row 0x21 ep size 0 [ba]
    (0xFF#8) (0x21#8)
    (0x0#4) (0#4) (3#2) (0#2) (3#2) (0#2) (0x0#16) (0#16) rfl rfl rfl rfl rfl rfl (by decide) h.1 h.2
    rfl BitVec.and_zero rfl rfl BitVec.and_zero

theorem poll : Statement (.poll) := by
  intro _
  exact of_row 0x30 0 0 0 []
    (0xFF#8) (0x30#8)
    (0xF#4) (0#4) (3#2) (0#2) (3#2) (0#2) (0xFFFF#16) (0#16) rfl rfl rfl rfl rfl rfl (by decide) (by decide) (by decide)
    rfl rfl rfl rfl rfl

theorem initCore : Statement (.initCore) := by
  intro _
  exact of_row 0x40 0 0 0 []
    (0xFF#8) (0x40#8)
    (0xF#4) (0#4) (3#2) (0#2) (3#2) (0#2) (0xFFFF#16) (0#16) rfl rfl rfl rfl rfl rfl (by decide) (by decide) (by decide)
    rfl rfl rfl rfl rfl

theorem setAddress (addr : Nat) : Statement (.setAddress addr) := by
  intro h
  simp only [Instr.wf, decide_eq_true_eq] at h
  exact of_row 0x41 0 addr 0 []
    (0xFF#8) (0x41#8)
    (0xF#4) (0#4) (3#2) (0#2) (3#2) (0#2) (0xFF80#16) (0#16) rfl rfl rfl rfl rfl rfl (by decide) (by decide) (by omega)
    rfl rfl rfl rfl ((addr_mask _).mpr (by rw [BitVec.toNat_ofNat]; omega))

theorem connect : Statement (.connect) := by
  intro _
  exact of_row 0x42 0 0 0 []
    (0xFF#8) (0x42#8)
    (0xF#4) (0#4) (3#2) (0#2) (3#2) (0#2) (0xFFFF#16) (0#16) rfl rfl rfl rfl rfl rfl (by decide) (by decide) (by decide)
    rfl rfl rfl rfl rfl

theorem disconnect : Statement (.disconnect) := by
  intro _
  exact of_row 0x43 0 0 0 []
    (0xFF#8) (0x43#8)
    (0xF#4) (0#4) (3#2) (0#2) (3#2) (0#2) (0xFFFF#16) (0#16) rfl rfl rfl rfl rfl rfl (by decide) (by decide) (by decide)
    rfl rfl rfl rfl rfl

end Sys2Proof.Laws.EncodeMatches
end

