-- ==== Sys2Proof/Laws/Relayout.lean ====
section
/-! SUPPORT. The layout law (spec/40_fifo_allocator.md R143) under interleaving: which access steps spare the region
registers, and what holds of the device and of the access steps left at every point of a re-layout (R142). -/

namespace Sys2Proof.Machine

/-! ## What spares the region registers -/

/-- The region registers are as before. -/
def Dev.SameRegions (d d' : Dev .hardware) : Prop := d'.rxfd = d.rxfd ∧ d'.txf = d.txf

theorem Dev.SameRegions.law {d d' : Dev .hardware} (h : d.SameRegions d') (hl : d.LayoutLaw) : d'.LayoutLaw := by
  intro e he
  have := hl e he
  simp only [Dev.txStart, Dev.regionStart, Dev.txDepth] at this ⊢
  rw [h.1, h.2]
  exact this

theorem Dev.regWrite_sameRegions (d : Dev .hardware) (r : Reg) (w : Word) (h : r.isRegion = false) :
    d.SameRegions (d.regWrite r w) := by
  cases r <;> first | exact ⟨rfl, rfl⟩ | simp [Reg.isRegion] at h

theorem intReg_isRegion (dir : Dir) (e : Nat) : (intReg dir e).isRegion = false := by cases dir <;> rfl

theorem AccessStep.writesReg_of_spares (t : AccessStep .hardware) (h : t.sparesRegions = true) (r : Reg)
    (hr : t.writesReg = some r) : r.isRegion = false := by
  cases t <;> simp [AccessStep.writesReg] at hr <;> subst hr <;> first | rfl | simpa [AccessStep.sparesRegions] using h

/-- An access step that writes no region register leaves the regions. -/
theorem perform_sameRegions (t : AccessStep .hardware) (d : Dev .hardware) (h : ∀ r, t.writesReg = some r → r.isRegion = false) :
    d.SameRegions (perform t d).1 := by
  refine perform_keeps (P := fun x => d.SameRegions x) t ?_ ?_ ?_ ?_ ?_ ?_ d ⟨rfl, rfl⟩
  · intro x r w hr hx
    have := x.regWrite_sameRegions r w (h r hr)
    exact ⟨this.1.trans hx.1, this.2.trans hx.2⟩
  all_goals intros; assumption

theorem deactRestSteps_sparesRegions (c : Config .hardware) (n : Nat) : ∀ x ∈ deactRestSteps c n, x.sparesRegions = true := by
  intro x hx
  unfold deactRestSteps at hx
  split at hx
  · simp at hx; rcases hx with rfl | rfl | rfl | rfl | rfl <;> rfl
  · simp at hx; rcases hx with rfl | rfl | rfl | rfl | rfl | rfl | rfl <;> rfl

/-- What an access step that spares the regions puts before the rest spares them too. -/
theorem hereditary_sparesRegions : Hereditary fun t => t.sparesRegions = true := by
  intro t d more hq h x hx
  cases t with
  | rmw r fs => simp only [perform, After.go.injEq] at h; subst h; simp at hx
  | write r v => simp only [perform, After.go.injEq] at h; subst h; simp at hx
  | clear r m => simp only [perform, After.go.injEq] at h; subst h; simp at hx
  | layoutRx => simp [AccessStep.sparesRegions] at hq
  | layoutStart e cur => simp [AccessStep.sparesRegions] at hq
  | layoutDepth e cur => simp [AccessStep.sparesRegions] at hq
  | snapshot => simp [AccessStep.sparesRegions] at hq
  | deactFlags n ev =>
    simp only [perform, Dev.deactFlagsStep] at h
    split at h <;> simp only [After.go.injEq] at h <;> subst h
    · simp at hx
    · rcases List.mem_append.mp hx with hx | hx
      · exact deactRestSteps_sparesRegions _ _ x hx
      · obtain ⟨_, -, rfl⟩ := List.mem_map.mp hx; rfl
  | deactTest dir n =>
    cases dir <;> simp only [perform, Dev.deactTestStep, After.go.injEq] at h <;> subst h <;> split at hx <;>
      simp at hx <;> subst hx <;> rfl
  | flushRx => simp only [perform, After.go.injEq] at h; subst h; simp at hx
  | flushTx n => simp only [perform, After.go.injEq] at h; subst h; simp at hx
  | popData ba size k =>
    simp only [perform, Dev.popDataStep, After.go.injEq] at h; subst h
    split at hx
    · rcases List.mem_append.mp hx with hx | hx
      · obtain ⟨a, b, rfl⟩ := storeSteps_stores _ _ _ _ x hx; rfl
      · split at hx
        · simp at hx; subst hx; rfl
        · simp at hx
    · simp at hx
  | store a b => simp only [perform, After.go.injEq] at h; subst h; simp at hx
  | checkSize e size ba =>
    simp only [perform, Dev.checkSizeStep] at h
    split at h <;> simp only [After.go.injEq] at h <;> subst h
    · simp at hx
    · split at hx <;> simp at hx
      · rcases hx with rfl | rfl <;> rfl
      · rcases hx with rfl | rfl | rfl <;> rfl
  | load e size ba i lanes =>
    simp only [perform, Dev.loadStep] at h
    split at h
    · simp only [After.go.injEq] at h; subst h; simp at hx
    · split at h <;> simp only [After.go.injEq] at h <;> subst h <;> simp at hx <;> subst hx <;> rfl
  | push e size ba i w =>
    simp only [perform, Dev.pushStep, After.go.injEq] at h; subst h
    split at hx
    · simp at hx; subst hx; rfl
    · simp at hx
  | popStatus =>
    simp only [perform, Dev.popStatusStep, Dev.dispatchStatus, Dev.reArmOut] at h
    split at h
    · simp only [After.go.injEq] at h
      subst h
      split at hx
      · simp at hx; subst hx; rfl
      · split at hx
        · split at hx
          · simp at hx
          · simp at hx; subst hx; rfl
        · split at hx
          · split at hx
            · simp at hx
            · simp at hx; subst hx; rfl
          · split at hx <;> simp at hx
    · simp only [After.go.injEq] at h; subst h; simp at hx
  | scan dir =>
    simp only [perform, Dev.scanStep, After.go.injEq] at h; subst h
    split at hx <;> simp at hx; subst hx; rfl
  | testXfrc dir e =>
    cases dir <;> simp only [perform, Dev.testXfrcStep, After.go.injEq] at h <;> subst h <;> split at hx <;>
      simp at hx <;> rcases hx with rfl | rfl <;> rfl
  | emit ev => simp [perform] at h

/-- No move of LINK, the flush controller or HOST writes a region register. -/
theorem applyInput_sameRegions (i : Input .hardware) (s : State) (hi : i.fromAgents = true) :
    s.dev.SameRegions (applyInput i s).dev := by
  cases i with
  | link m =>
    simp only [applyInput, LinkMove.apply]
    split
    · cases m with
      | rxPush a b c d e => simp only [LinkMove.effect, Dev.rxPush]; split <;> exact ⟨rfl, rfl⟩
      | disableDone dir e => cases dir <;> exact ⟨rfl, rfl⟩
      | epFlag dir e b => cases dir <;> exact ⟨rfl, rfl⟩
      | _ => exact ⟨rfl, rfl⟩
    · exact ⟨rfl, rfl⟩
  | flush m =>
    cases m <;> simp only [applyInput, FlushMove.apply, Dev.flushTxDone, Dev.flushRxDone] <;> split <;> exact ⟨rfl, rfl⟩
  | host m =>
    cases m with
    | command ws => exact ⟨rfl, rfl⟩
    | ack => simp only [applyInput, State.At.ackEvent]; split <;> exact ⟨rfl, rfl⟩
    | store a bs =>
      show (s.dev.memWriteAll a bs).rxfd = _ ∧ (s.dev.memWriteAll a bs).txf = _
      rw [Dev.memWriteAll_eq]
      exact ⟨rfl, rfl⟩
  | harness m => simp [Input.fromAgents] at hi
  | core _ => exact ⟨rfl, rfl⟩
  | reset => simp [Input.fromAgents] at hi

/-! ## The points of a re-layout -/

/-- The access steps left end in a re-layout still to begin, and after it spare the regions. -/
def endsInLayout (todo : List (AccessStep .hardware)) : Prop :=
  ∃ pre post, todo = pre ++ .layoutRx :: post ∧ (∀ x ∈ pre, x.pollOnly = false) ∧ ∀ x ∈ post, x.sparesRegions = true

/-- The regions before `e` start where they should. -/
def Dev.laidOut (d : Dev .hardware) (e : Nat) : Prop := ∀ k, k < e → d.txStart k = d.regionStart k

/-- What holds at every point of a command that leaves the layout law: the law holds and nothing left writes a region
register; or a re-layout is still to begin; or one is in progress, the regions before its cursor laid out; or POLL is
about to read its snapshot. -/
inductive Dev.Laying (d : Dev .hardware) : List (AccessStep .hardware) → Prop
  | settled (todo) : d.LayoutLaw → (∀ x ∈ todo, x.sparesRegions = true) → d.Laying todo
  | ahead (todo) : endsInLayout todo → d.Laying todo
  | start (e cur post) : e < N → d.laidOut e → cur = d.regionStart e → (∀ x ∈ post, x.sparesRegions = true) →
      d.Laying (.layoutStart e cur :: post)
  | depth (e cur post) : e < N → d.laidOut (e + 1) → cur = d.regionStart e → (∀ x ∈ post, x.sparesRegions = true) →
      d.Laying (.layoutDepth e cur :: post)
  | poll : d.LayoutLaw → d.Laying [.snapshot]

theorem Dev.Laying.of_sameRegions {d d' : Dev .hardware} {todo : List (AccessStep .hardware)} (h : d.SameRegions d') (hl : d.Laying todo) :
    d'.Laying todo := by
  have hr : ∀ e, d'.regionStart e = d.regionStart e := by
    intro e; simp only [Dev.regionStart, Dev.txDepth, h.1, h.2]
  have hs : ∀ e, d.laidOut e → d'.laidOut e := by
    intro e hk k hke; rw [hr, ← hk k hke, Dev.txStart, Dev.txStart, h.2]
  cases hl with
  | settled _ a b => exact .settled _ (h.law a) b
  | ahead _ a => exact .ahead _ a
  | start e cur post a b c f => exact .start e cur post a (hs _ b) (c.trans (hr e).symm) f
  | depth e cur post a b c f => exact .depth e cur post a (hs _ b) (c.trans (hr e).symm) f
  | poll a => exact .poll (h.law a)

theorem Dev.regionStart_succ (d : Dev .hardware) (e : Nat) : d.regionStart (e + 1) = d.regionStart e + d.txDepth e := by
  simp only [Dev.regionStart, List.range_succ, List.map_append, List.sum_append, List.map_cons, List.map_nil,
    List.sum_cons, List.sum_nil, Nat.add_zero]
  rw [← Nat.add_assoc, BitVec.ofNat_add]
  simp

theorem endsInLayout_activateControl (c : Config .hardware) (mps : Nat) (post : List (AccessStep .hardware))
    (h : ∀ x ∈ post, x.sparesRegions = true) : endsInLayout (activateControlSteps c mps ++ post) := by
  refine ⟨[ .rmw .daintmsk [(F.iepm 0, 1), (F.oepm 0, 1)],
    .rmw (.diepctl 0) [(F.mpsiz, mps), (F.usbaep, 1), (F.snak, 1)],
    .rmw (.doepctl 0) [(F.epena, 1), (F.cnak, 1)], .rmw .grxfsiz [(F.rxfd, rxDepthFor c c.ctrlRxBytes)], .layoutRx,
    .rmw (regionReg 0) [(F.txDepth, txDepthFor mps)] ], post, rfl, ?_, h⟩
  intro x hx
  simp at hx
  rcases hx with rfl | rfl | rfl | rfl | rfl | rfl <;> rfl

theorem pollTail_sparesRegions (f : Field) : ∀ x ∈ pollTail f, x.sparesRegions = true := by
  intro x hx; simp [pollTail] at hx; rcases hx with rfl | rfl <;> rfl

theorem deactivateSteps_sparesRegions (n : Nat) (ev : Option Event) :
    ∀ x ∈ deactivateSteps n ev, x.sparesRegions = true := by
  intro x hx; simp [deactivateSteps] at hx; rcases hx with rfl | rfl <;> rfl

theorem deactivateAllSteps_sparesRegions (c : Config .hardware) (ev : Option Event) :
    ∀ x ∈ deactivateAllSteps c ev, x.sparesRegions = true := by
  intro x hx
  rcases List.mem_append.mp hx with hx | hx
  · obtain ⟨n, -, hx⟩ := List.mem_flatMap.mp hx; exact deactivateSteps_sparesRegions _ _ x hx
  · exact deactivateSteps_sparesRegions _ _ x hx

/-- R214: what follows POLL's snapshot leaves the layout law, the re-layout at enumeration done included. -/
theorem Dev.Laying.causeSteps {d : Dev .hardware} (h : d.LayoutLaw) (c : Cause) : d.Laying (Machine.causeSteps d.cfg c) := by
  have two : ∀ (a : List (AccessStep .hardware)) f, (∀ x ∈ a, x.sparesRegions = true) → d.Laying (a ++ pollTail f) := by
    intro a f ha
    refine .settled _ h fun x hx => ?_
    rcases List.mem_append.mp hx with hx | hx
    · exact ha x hx
    · exact pollTail_sparesRegions f x hx
  cases c with
  | usbrst => exact two _ _ (deactivateAllSteps_sparesRegions _ _)
  | enumdne =>
    simp only [Machine.causeSteps]
    split
    · exact .ahead _ (endsInLayout_activateControl _ _ _ (pollTail_sparesRegions _))
    · exact two _ _ (by simp)
  | rxflvl => exact two _ _ (by simp [AccessStep.sparesRegions])
  | iepint => exact two _ _ (by simp [AccessStep.sparesRegions])
  | oepint => exact two _ _ (by simp [AccessStep.sparesRegions])
  | none => exact .settled _ h (by simp [Machine.causeSteps, AccessStep.sparesRegions])

/-- An access step takes such a point to another one. -/
theorem Dev.Laying.perform {d : Dev .hardware} {t : AccessStep .hardware} {rest : List (AccessStep .hardware)} (h : d.Laying (t :: rest)) :
    (∀ more, (Machine.perform t d).2 = .go more → (Machine.perform t d).1.Laying (more ++ rest)) ∧
    ((Machine.perform t d).2 = .wait →
      (Machine.perform t d).1.LayoutLaw ∧ ∀ x ∈ rest, x.sparesRegions = true) := by
  cases h with
  | settled _ hl hs =>
    have hp := (perform_sameRegions t d (t.writesReg_of_spares (hs t (.head _)))).law hl
    refine ⟨fun more hm => .settled _ hp fun x hx => ?_, fun _ => ⟨hp, fun x hx => hs x (.tail _ hx)⟩⟩
    rcases List.mem_append.mp hx with hx | hx
    · exact hereditary_sparesRegions t d more (hs t (.head _)) hm x hx
    · exact hs x (.tail _ hx)
  | ahead _ ha =>
    obtain ⟨pre, post, he, hq, hs⟩ := ha
    cases pre with
    | nil =>
      injection he with h1 h2
      subst h1; subst h2
      refine ⟨fun more hm => ?_, fun hm => by simp [Machine.perform, Dev.layoutRxStep] at hm⟩
      simp only [Machine.perform, Dev.layoutRxStep, After.go.injEq] at hm ⊢
      subst hm
      refine .start 0 _ _ (by decide) (fun k hk => by omega) ?_ hs
      simp [Dev.regionStart, Dev.regRead]
    | cons p pre =>
      injection he with h1 h2
      subst h1; subst h2
      refine ⟨fun more hm => .ahead _ ⟨more ++ pre, post, by simp, fun x hx => ?_, hs⟩, fun hm => ?_⟩
      · rcases List.mem_append.mp hx with hx | hx
        · exact hereditary_emitsNothing t d more (hq t (.head _)) hm x hx
        · exact hq x (.tail _ hx)
      · obtain ⟨ev, rfl⟩ := perform_wait t d hm
        have := hq _ (.head _)
        simp [AccessStep.pollOnly] at this
  | start e cur post he hk hc hs =>
    refine ⟨fun more hm => ?_, fun hm => by simp [Machine.perform, Dev.layoutStartStep] at hm⟩
    simp only [Machine.perform, Dev.layoutStartStep, After.go.injEq, Dev.rmw_txStart] at hm ⊢
    subst hm
    have hdep := fun k => Dev.txDepth_setTxRegion_start d e k cur he
    have hr : ∀ k, (d.setTxRegion e { slot d.txf e with start := cur }).regionStart k = d.regionStart k := by
      intro k; simp only [Dev.regionStart, hdep, Dev.setTxRegion_rxfd]
    refine .depth e cur _ he (fun k hke => ?_) (hc.trans (hr e).symm) hs
    rw [hr, Dev.txStart, Dev.setTxRegion_txf, slot_setSlot]
    by_cases hek : k = e
    · subst hek; rw [if_pos ⟨rfl, he⟩]; exact hc
    · rw [if_neg fun h => hek h.1.symm]; exact hk k (by omega)
  | depth e cur post he hk hc hs =>
    refine ⟨fun more hm => ?_, fun hm => by simp [Machine.perform, Dev.layoutDepthStep] at hm⟩
    simp only [Machine.perform, Dev.layoutDepthStep, After.go.injEq, Dev.regionReg_read, Shape.hardware_depthBits,
      txRegionPack_depth] at hm ⊢
    subst hm
    split
    · next h1 =>
      exact .start (e + 1) _ _ h1 hk (by rw [hc, Dev.regionStart_succ]; rfl) hs
    · next h1 =>
      refine .settled _ (fun k hkN => hk k (by have := N_eq; omega)) (by simpa using hs)
  | poll hl =>
    refine ⟨fun more hm => ?_, fun hm => by simp [Machine.perform, Dev.snapshotStep] at hm⟩
    have hp := perform_sameRegions .snapshot d (by intro r hr; simp [AccessStep.writesReg] at hr)
    simp only [Machine.perform, Dev.snapshotStep, After.go.injEq] at hm
    subst hm
    rw [List.append_nil]
    exact (Dev.Laying.causeSteps hl _).of_sameRegions hp

theorem Dev.Laying.law {d : Dev .hardware} (h : d.Laying []) : d.LayoutLaw := by
  cases h with
  | settled _ hl _ => exact hl
  | ahead _ ha => obtain ⟨pre, post, he, -⟩ := ha; cases pre <;> cases he

/-! ## The whole command -/

/-- Such a point of the sequencer. With `outer`, a POLL that waits for an acknowledgement has no region register left to
write. -/
def Seq.Laying (outer : Bool) (d : Dev .hardware) : Seq .hardware → Prop
  | .idle => d.LayoutLaw
  | .run _ todo => d.Laying todo
  | .waitAck _ todo => d.LayoutLaw ∧ (outer = true → ∀ x ∈ todo, x.sparesRegions = true)
  | .nested _ outerTodo _ todo => d.Laying todo ∧ (outer = true → ∀ x ∈ outerTodo, x.sparesRegions = true)

theorem Seq.Laying.running {b : Bool} {d : Dev .hardware} {cmd : Instr} {todo : List (AccessStep .hardware)} (h : d.Laying todo) :
    (Seq.running cmd todo).Laying b d := by
  cases todo with
  | nil => exact h.law
  | cons t rest => exact h

theorem Seq.Laying.nesting {b : Bool} {d : Dev .hardware} {cmd o : Instr} {ot todo : List (AccessStep .hardware)} (h : d.Laying todo)
    (ho : b = true → ∀ x ∈ ot, x.sparesRegions = true) : (Seq.nesting o ot cmd todo).Laying b d := by
  cases todo with
  | nil => exact ⟨h.law, ho⟩
  | cons t rest => exact ⟨h, ho⟩

/-- The turns of a command keep to such points, whatever LINK, the flush controller and HOST do meanwhile. -/
theorem drive_laying (b : Bool) (n : Nat) (s : State) (hok : ∀ x ∈ s.inputs, x.fromAgents = true)
    (h : s.seq.Laying b s.dev) : (drive n s).seq.Laying b (drive n s).dev := by
  refine drive_induct (ok := (·.fromAgents = true)) (P := fun s => s.seq.Laying b s.dev) (fun _ _ h => h) ?_ ?_ n s
    hok h
  · rintro ⟨d, seq, port, inputs⟩ ha h
    cases seq with
    | idle => simp at ha
    | waitAck _ _ => simp at ha
    | run cmd todo =>
      cases todo with
      | nil => exact Dev.Laying.law h
      | cons t rest =>
        have hp := Dev.Laying.perform (show d.Laying (t :: rest) from h)
        simp only [coreStep]
        cases hm : (perform t d).2 with
        | go more => exact .running (hp.1 more hm)
        | wait => exact ⟨(hp.2 hm).1, fun _ => (hp.2 hm).2⟩
    | nested o ot cmd todo =>
      obtain ⟨h, ho⟩ := h
      cases todo with
      | nil => exact ⟨h.law, ho⟩
      | cons t rest =>
        have hp := h.perform
        simp only [coreStep]
        cases hm : (perform t d).2 with
        | go more => exact .nesting (hp.1 more hm) ho
        | wait => exact .nesting (.settled _ (hp.2 hm).1 (hp.2 hm).2) ho
  · intro i s hi ha h
    have hr := applyInput_sameRegions i s hi
    have hs : (applyInput i s).seq = s.seq := by
      cases i with
      | host m =>
        cases m with
        | ack =>
          simp only [applyInput, State.At.ackEvent]
          split <;> (try rfl)
          next h => rw [h] at ha; simp at ha
        | _ => rfl
      | reset => simp [Input.fromAgents] at hi
      | _ => rfl
    rw [hs]
    obtain ⟨d, seq, port, inputs⟩ := s
    cases seq with
    | idle => simp at ha
    | waitAck _ _ => simp at ha
    | run cmd todo => exact Dev.Laying.of_sameRegions hr h
    | nested o ot cmd todo => exact ⟨Dev.Laying.of_sameRegions hr h.1, h.2⟩

/-- Every command starts at such a point where the layout law holds, and one that re-lays the buffer out anywhere. -/
theorem commandSteps_laying (d : Dev .hardware) (c : Config .hardware) (i : Instr) (h : d.LayoutLaw ∨ laysOut i = true) :
    d.Laying (commandSteps c i) := by
  have ends : ∀ pre : List (AccessStep .hardware), (∀ x ∈ pre, x.pollOnly = false) → d.Laying (pre ++ [.layoutRx]) :=
    fun pre hp => .ahead _ ⟨pre, [], rfl, hp, by simp⟩
  cases i with
  | setRxFifoSize size => exact ends [_] (by simp [AccessStep.pollOnly])
  | setTxFifoSize ep size => exact ends [_] (by simp [AccessStep.pollOnly])
  | activateControlEp mps =>
    have := endsInLayout_activateControl c mps [] (by simp)
    rw [List.append_nil] at this
    exact .ahead _ this
  | activateInEp ep t mps => exact ends [_, _, _] (by simp [AccessStep.pollOnly])
  | poll => exact .poll (by simpa [laysOut] using h)
  | deactivateEp n => exact .settled _ (by simpa [laysOut] using h) (deactivateSteps_sparesRegions _ _)
  | deactivateAll => exact .settled _ (by simpa [laysOut] using h) (deactivateAllSteps_sparesRegions _ _)
  | readPacket size ba =>
    refine .settled _ (by simpa [laysOut] using h) fun x hx => ?_
    simp only [commandSteps, readPacketSteps] at hx
    split at hx
    · simp at hx
    · simp at hx; subst hx; rfl
  | _ =>
    exact .settled _ (by simpa [laysOut] using h) (by
      simp [commandSteps, writePacketSteps, initCoreSteps, setAddressSteps, connectSteps, disconnectSteps,
        AccessStep.sparesRegions, Reg.isRegion])

end Sys2Proof.Machine
end

