-- ==== Sys2Proof/Tests/Slice0.lean ====
section
/-! SUPPORT. The model's own tests. Expected values are those of the worked examples and vectors of
spec/95_test_vectors.md (its row names S1 to S9, E1 to E20, T1 to T9, I1 to I13, GL1 to GL7 stand in the comments) or
are worked out by hand from the rule named. Each test is one step on a small state; the witnesses at the end show, for
every obligation with hypotheses, a concrete state and operands that meet them. -/

namespace Sys2Proof.Tests

open Sys2Proof Sys2Proof.Machine

-- One proof after another: each kernel evaluation waits for all proofs before it, and a waiting thread holds a stack.
set_option Elab.async false

/-! ## Small states -/

/-- The parameters of spec/95, with room in the packet buffer. -/
def cfg : Config .hardware := { Config.hardware with fifoRamWords := 1000 }

/-- *From reset* of spec/95. -/
def s0 : State := { State.reset with dev := Dev.afterReset cfg [] 0 }

/-- Registers forced to packed values (TB_SET, R267). -/
def forced (rs : List (Reg × Word)) (d : Dev .hardware) : Dev .hardware := rs.foldl (fun d rw => d.regForce rw.1 rw.2) d

/-- The packed registers *after E6*: the control endpoint and IN endpoint 1 active. -/
def e6 : Dev .hardware := forced
  [(.daintmsk, 0x00010003#32), (.diepctl 0, 0x00028008#32), (.doepctl 0, 0x80008000#32), (.diepctl 1, 0x004A8040#32),
    (.grxfsiz, 0x2A#32), (.dieptxf0, 0x0002002A#32), (.dieptxf 0, 0x0010002C#32), (.dieptxf 1, 0x3C#32),
    (.dieptxf 2, 0x3C#32), (.dieptxf 3, 0x3C#32), (.dieptxf 4, 0x3C#32)] s0.dev

/-- The same after `init_core`. -/
def e6i : Dev .hardware := forced [(.gintmsk, 0x000C3010#32), (.diepmsk, 1#32), (.doepmsk, 1#32), (.gahbcfg, 1#32)] e6

/-- E6 with bytes 1, 2, 3, 4, 5 at 0x20000100 and words queued. -/
def e6mem : Dev .hardware := { e6 with mem := (e6.memWriteAll 0x20000100#32 [1#8, 2#8, 3#8, 4#8, 5#8]).mem }

/-- CORE idle with a device. -/
def at' (d : Dev .hardware) : State := { s0 with dev := d }

/-- The device a command leaves. -/
def after (i : Instr) (d : Dev .hardware) : Dev .hardware :=
  match exec i (at' d) with
  | .next t => t.dev
  | .fault _ => d
  | .refused _ => d

/-- The sequencer a command leaves. -/
def seqAfter (i : Instr) (d : Dev .hardware) : Seq .hardware :=
  match exec i (at' d) with
  | .next t => t.seq
  | .fault _ => .idle
  | .refused _ => .idle

/-- A step answered a next state with this property. -/
def nextIs (o : Host.Outcome State Fault Refusal) (p : State → Bool) : Bool :=
  match o with
  | .next t => p t
  | .fault _ => false
  | .refused _ => false

/-! ## Well-formedness: a term each check refuses -/

theorem test_wf_refuses_wide_endpoint :
    (Instr.setTxFifoSize 16 0).wf = false ∧ (Instr.activateInEp 16 .bulk 8).wf = false ∧
    (Instr.deactivateEp 16).wf = false ∧ (Instr.flushTx 16).wf = false ∧ (Instr.writePacket 16 0 0#32).wf = false := by
  decide

theorem test_wf_refuses_wide_immediate :
    (Instr.setRxFifoSize 65536).wf = false ∧ (Instr.setTxFifoSize 0 65536).wf = false ∧
    (Instr.activateControlEp 65536).wf = false ∧ (Instr.activateInEp 1 .bulk 65536).wf = false ∧
    (Instr.readPacket 65536 0#32).wf = false ∧ (Instr.writePacket 0 65536 0#32).wf = false := by decide

theorem test_wf_refuses_wide_address : (Instr.setAddress 128).wf = false := by decide

/-- R118: an operand out of the command's range but inside its field is well formed. -/
theorem test_wf_takes_out_of_range_operand :
    (Instr.setTxFifoSize 15 65535).wf = true ∧ (Instr.activateInEp 0 .control 0).wf = true ∧
    (Instr.setAddress 127).wf = true := by decide

/-! ## Decoding: the words of spec/95 §2.1, from R111 to R115 -/

theorem test_decode_setRxFifoSize : decode [0x01000040#32] = .command (.setRxFifoSize 64) [] := by decide
theorem test_decode_setTxFifoSize : decode [0x02F00008#32] = .command (.setTxFifoSize 15 8) [] := by decide
theorem test_decode_activateControlEp : decode [0x10000008#32] = .command (.activateControlEp 8) [] := by decide
theorem test_decode_activateInEp_bulk : decode [0x11180040#32] = .command (.activateInEp 1 .bulk 64) [] := by decide
theorem test_decode_activateInEp_interrupt :
    decode [0x113C000A#32] = .command (.activateInEp 3 .interrupt 10) [] := by decide
/-- E8: isochronous is type 1, bit 18. -/
theorem test_decode_activateInEp_iso : decode [0x11540001#32] = .command (.activateInEp 5 .isochronous 1) [] := by decide
theorem test_decode_deactivateEp : decode [0x12100000#32] = .command (.deactivateEp 1) [] := by decide
theorem test_decode_deactivateAll : decode [0x13000000#32] = .command .deactivateAll [] := by decide
theorem test_decode_flushRx : decode [0x14000000#32] = .command .flushRx [] := by decide
theorem test_decode_flushTx : decode [0x15200000#32] = .command (.flushTx 2) [] := by decide
theorem test_decode_readPacket :
    decode [0x20000007#32, 0x20000000#32, 1#32] = .command (.readPacket 7 0x20000000#32) [1#32] := by decide
theorem test_decode_writePacket :
    decode [0x21100005#32, 0x20000100#32] = .command (.writePacket 1 5 0x20000100#32) [] := by decide
theorem test_decode_poll : decode [0x30000000#32] = .command .poll [] := by decide
theorem test_decode_initCore : decode [0x40000000#32] = .command .initCore [] := by decide
theorem test_decode_setAddress : decode [0x4100007F#32] = .command (.setAddress 127) [] := by decide
theorem test_decode_connect : decode [0x42000000#32] = .command .connect [] := by decide
theorem test_decode_disconnect : decode [0x43000000#32] = .command .disconnect [] := by decide

/-- R117: opcodes without a row. -/
theorem test_decode_unknown_opcode :
    ([0x00000000#32, 0xFFFFFFFF#32, 0x03000000#32, 0x16000000#32, 0x22000000#32, 0x31000000#32, 0x44000000#32].all fun w =>
      decode [w, 1#32] == .reserved .unknownOpcode [1#32]) = true := by decide

/-- R116: must-be-zero bits. -/
theorem test_decode_must_be_zero :
    ([0x01010040#32, 0x01100040#32, 0x10040008#32, 0x12100001#32, 0x13000001#32, 0x30000001#32, 0x42100000#32,
      0x41000080#32].all fun w => decode [w, 1#32] == .reserved .mustBeZero [1#32]) = true := by decide

/-- R116: a reserved two-word opcode takes both words; R114: the first word alone is not a command yet. -/
theorem test_decode_two_words :
    decode [0x20100004#32, 0x20000000#32, 1#32] = .reserved .mustBeZero [1#32] ∧
    decode [0x20000004#32] = .incomplete := by decide

/-- R111: `eptyp` = 2 is bit 19, `ep` = 1 is bit 20. -/
theorem test_encode_activateInEp : encode (.activateInEp 1 .bulk 64) = [0x11180040#32] := by decide

theorem test_encode_writePacket : encode (.writePacket 1 5 0x20000100#32) = [0x21100005#32, 0x20000100#32] := by decide

/-- R120. -/
theorem test_text : (Instr.activateInEp 1 .bulk 64).text = "activate_in_ep ep=1, type=bulk, mps=64" := by decide

/-- The rows of the opcode map name different opcodes, so decoding is unambiguous. -/
theorem test_opcodes_differ : (opcodeMap.map OpcodeRow.opcode).Pairwise (· ≠ ·) := by decide

/-! ## FIFO Allocator -/

/-- S1 row 5: the cascade of a change of the RX depth. -/
theorem test_setRxFifoSize_cascade :
    let d := after (.setRxFifoSize 128) (forced [(.dieptxf0, 0x0002002A#32), (.dieptxf 0, 0x0010002C#32),
      (.dieptxf 2, 0x0003003C#32)] s0.dev)
    d.regRead .grxfsiz = 0x4A#32 ∧ d.regRead (.dieptxf 0) = 0x0010004C#32 ∧ d.regRead (.dieptxf 2) = 0x0003005C#32 ∧
    d.regRead (.dieptxf 4) = 0x5F#32 := by decide +kernel

/-- S1 row 4. -/
theorem test_setTxFifoSize_moves_later_regions :
    let d := after (.setTxFifoSize 3 10) e6
    d.regRead (.dieptxf 2) = 0x0003003C#32 ∧ d.regRead (.dieptxf 3) = 0x3F#32 := by decide +kernel

/-- Vectors 2.2: `ep_range`, layout unchanged; and the cursor wraps (R142). -/
theorem test_setTxFifoSize_wraps :
    (after (.setTxFifoSize 6 8) e6) = { e6 with fault := 1#32 } ∧
    (after (.setTxFifoSize 1 65535) (forced [(.grxfsiz, 0x800A#32), (.dieptxf0, 0x40000000#32)] s0.dev)).regRead
      (.dieptxf 1) = 0xA#32 := by decide +kernel

/-! ## Endpoint Manager -/

/-- E1. -/
theorem test_activateControlEp :
    let d := after (.activateControlEp 8) s0.dev
    d.regRead .daintmsk = 0x00010001#32 ∧ d.regRead (.diepctl 0) = 0x00028008#32 ∧
    d.regRead (.doepctl 0) = 0x80008000#32 ∧ d.regRead .dieptxf0 = 0x0002002A#32 := by decide +kernel

/-- E4, E5: the largest legal size, and one more. -/
theorem test_activateControlEp_sizes :
    (after (.activateControlEp 2048) s0.dev) = { s0.dev with fault := 2#32 } ∧
    (after (.activateControlEp 2047) s0.dev).regRead (.diepctl 0) = 0x000287FF#32 := by decide +kernel

/-- E7, on E6. -/
theorem test_activateInEp :
    let d := after (.activateInEp 3 .interrupt 10) e6
    d.regRead .daintmsk = 0x0001000B#32 ∧ d.regRead (.diepctl 3) = 0x00CE800A#32 ∧
    d.regRead (.dieptxf 2) = 0x0003003C#32 := by decide +kernel

/-- E11: the data packet identifier is forced to DATA0. -/
theorem test_activateInEp_resets_toggle :
    (after (.activateInEp 1 .bulk 64) (e6.regForce (.diepctl 1) 0x004B8040#32)).regRead (.diepctl 1) = 0x004A8040#32 := by
  decide +kernel

/-- S2 row 2: the control OUT endpoint stays armed, IN endpoint 0 becomes inactive. -/
theorem test_deactivateEp_zero :
    let d := after (.deactivateEp 0) e6
    d.regRead (.diepctl 0) = 0x00020008#32 ∧ d.regRead (.doepctl 0) = 0x80008000#32 ∧
    d.regRead .grstctl = 0x30#32 := by decide +kernel

/-- E13, E20: disable requests on both sides. -/
theorem test_deactivateEp_requests_disable :
    (after (.deactivateEp 1) (e6.regForce (.diepctl 1) 0x80488040#32)).regRead (.diepctl 1) = 0xC0480040#32 ∧
    (after (.deactivateEp 2) (e6.regForce (.doepctl 2) 0x80008000#32)).regRead (.doepctl 2) = 0xC0000000#32 := by
  decide +kernel

/-- S3. -/
theorem test_deactivateAll :
    let d := after .deactivateAll
      (forced [(.diepint 1, 9#32), (.doepint 0, 9#32), (.diepint 4, 1#32)] e6i)
    d.regRead .daint = 0#32 ∧ d.regRead .daintmsk = 0#32 ∧ d.regRead (.diepctl 1) = 0x004A0040#32 ∧
    d.regRead .grstctl = 0x1B0#32 ∧ d.fault = 0#32 := by decide +kernel

/-- S3 with OOR_POLICY = fault. -/
theorem test_deactivateAll_pad_fault :
    let d := after .deactivateAll { e6i with cfg := { cfg with oorPolicy := .fault } }
    d.regRead .grstctl = 0x170#32 ∧ d.fault = 0x200#32 := by decide +kernel

/-- E15, and with FLUSH_SYNC (R175). -/
theorem test_flushRx :
    (after .flushRx s0.dev).regRead .grstctl = 0x10#32 ∧
    (after .flushRx { s0.dev with cfg := { cfg with flushSync := true }, rxq := [.data 1#32] }).rxq = [] := by
  decide +kernel

/-- E17: a second request before the first completes renames the FIFO. -/
theorem test_flushTx :
    (after (.flushTx 4) (s0.dev.regForce .grstctl 0xA0#32)).regRead .grstctl = 0x120#32 := by decide +kernel

/-- R163, U10: with DEACT_ALL_LAST = 0 the other endpoints keep their registers and mask bits. -/
theorem test_deactivateAll_last_zero :
    let d := after .deactivateAll { e6i with cfg := { cfg with deactAllLast := 0 } }
    d.regRead .daintmsk = 2#32 ∧ d.regRead (.diepctl 0) = 0x00020008#32 ∧
    d.regRead (.diepctl 1) = e6i.regRead (.diepctl 1) ∧ d.regRead .grstctl = 0x30#32 := by decide +kernel

/-- R140 by hand with other parameters: 12 + 3 * ceil(64 / 4) = 60. -/
theorem test_setRxFifoSize_parameters :
    (after (.setRxFifoSize 64) { e6 with cfg := { cfg with rxOverheadWords := 12, rxWordsPerChunk := 3 } }).rxfd = 60#16 := by
  decide +kernel

/-- R168: the states of the endpoints after E6, and of a disabling OUT endpoint; OUT endpoint 0 armed and not. -/
theorem test_endpoint_phases :
    e6.inPhase 1 = .activeIdle ∧ e6.inPhase 2 = .inactive ∧ e6.outPhase 0 = .armed ∧ s0.dev.outPhase 0 = .unarmed ∧
    e6.outPhase 2 = .inactive ∧ (e6.regForce (.doepctl 2) 0xC0000000#32).outPhase 2 = .disabling ∧
    (e6.regForce (.doepctl 2) 0xC0008000#32).outPhase 2 = .reactivatedDisabling := by decide +kernel

/-! ## Packet Transfer Engine -/

/-- S5, size 7: the last byte of the second word is dropped. -/
theorem test_readPacket :
    let d := after (.readPacket 7 0x20000000#32)
      { s0.dev with rxq := [.data 0x44332211#32, .data 0x88776655#32], mem := [(0x20000007, 0xFF#8)] }
    d.mem = [(0x20000000, 0x11#8), (0x20000001, 0x22#8), (0x20000002, 0x33#8), (0x20000003, 0x44#8),
      (0x20000004, 0x55#8), (0x20000005, 0x66#8), (0x20000006, 0x77#8), (0x20000007, 0xFF#8)] ∧ d.rxq = [] := by
  decide +kernel

/-- T7: a pop that finds RXQ empty after one word. -/
theorem test_readPacket_underflow :
    let d := after (.readPacket 7 0x500#32) { s0.dev with rxq := [.data 0x44332211#32] }
    d.mem = [(0x500, 0x11#8), (0x501, 0x22#8), (0x502, 0x33#8), (0x503, 0x44#8)] ∧ d.fault = 8#32 := by decide +kernel

/-- S4, size 5. -/
theorem test_writePacket :
    let d := after (.writePacket 1 5 0x20000100#32) e6mem
    d.regRead (.dieptsiz 1) = 0x00080005#32 ∧ d.regRead (.diepctl 1) = 0x80488040#32 ∧
    (slot d.txq 1).length = 2 ∧ (slot d.txq 1).head? = some 0x04030201#32 := by decide +kernel

/-- T3: the second push does not fit; T5: oversize. -/
theorem test_writePacket_faults :
    (after (.writePacket 1 8 0x400#32) (e6.regForce (.dieptxf 0) 0x0001002C#32)).fault = 0x20#32 ∧
    (after (.writePacket 2 1 0#32) s0.dev) = { s0.dev with fault := 4#32 } := by decide +kernel

/-! ## Interrupt Dispatcher -/

/-- S6: the first event of a bus reset, its acknowledgement awaited. -/
theorem test_poll_busReset :
    let d := { e6i with gintsts := 0x1000#32 }
    (after .poll d).evlog = [0x10000000#32] ∧
    seqAfter .poll d = .waitAck .poll [.clear .gintsts 0x1000#32, .emit .polled] := by decide +kernel

/-- S8: SETUP received. -/
theorem test_poll_setupReceived :
    let d := after .poll { e6i with rxq := [.status 0x000C0080#32] }
    d.evPending = some 0x20000008#32 ∧ d.rxq = [] ∧ d.regRead (.doepctl 0) = 0x80008000#32 := by decide +kernel

/-- The classification table of vectors 2.5. -/
theorem test_classify :
    ([0#32, 0x1000#32, 0x2000#32, 0x10#32, 0x40000#32, 0x80000#32, 0xFFF30FEF#32, 0x000C3010#32, 0x000C2010#32,
      0x000C0010#32, 0x000C0000#32, 0x800#32, 0x3000#32].map classify) =
    [.none, .usbrst, .enumdne, .rxflvl, .iepint, .oepint, .none, .usbrst, .enumdne, .rxflvl, .iepint, .none,
      .usbrst] := by decide

/-- R160, R214, R296: a parameter above the legal sizes is a fault in the handler; POLL still ends at POLLED. -/
theorem test_poll_enumDone_badSize :
    let d := { e6i with cfg := { cfg with enumCtrlMps := 2048 }, gintsts := 0x2000#32 }
    (after .poll d).fault = 2#32 ∧ (after .poll d).evlog = [0x60000000#32] ∧ (after .poll d).gintsts = 0#32 := by
  decide +kernel

/-! ## Glue -/

/-- GL1. -/
theorem test_initCore :
    let d := after .initCore s0.dev
    d.gintmsk = 0x000C3010#32 ∧ d.diepmsk = 1#32 ∧ d.doepmsk = 1#32 ∧ d.regRead .gahbcfg = 1#32 ∧ d.irq = false := by
  decide +kernel

/-- GL2, GL4. -/
theorem test_setAddress :
    (after (.setAddress 5) s0.dev).dcfg = 0x50#32 ∧
    (after (.setAddress 127) { s0.dev with dcfg := 0xFFFFF80F#32 }).dcfg = 0xFFFFFFFF#32 := by decide +kernel

/-- GL5, GL6. -/
theorem test_connect : (after .connect s0.dev).pullup = true := by decide +kernel
theorem test_disconnect : (after .disconnect { s0.dev with dctl := 0#32 }).pullup = false := by decide +kernel

/-! ## LINK, the flush controller, reset -/

/-- Vectors 2.7: the guard of a received packet, RXFD = 42; and the entry of an OUT packet of 64 bytes. -/
theorem test_link_rxPush :
    let push := fun (d : Dev .hardware) => LinkMove.apply (.rxPush 1 64 0#2 2#4 (List.replicate 64 0#8)) d
    (push e6).rxq.length = 17 ∧ (push e6).rxq.head? = some (.status 0x00040401#32) ∧
    (push { e6 with rxq := List.replicate 26 (.data 0#32) }).rxq.length = 26 := by decide +kernel

/-- Vectors 2.7: the packet of S4 row 5 goes out. -/
theorem test_link_txSend :
    let d := LinkMove.apply (.txSend 1) (forced [(.dieptsiz 1, 0x00080005#32), (.diepctl 1, 0x80488040#32)]
      { e6 with txq := setSlot e6.txq 1 [0x04030201#32, 0xAABBCC05#32] })
    d.wireTx = [{ ep := 1, dpid := false, bytes := [1#8, 2#8, 3#8, 4#8, 5#8] }] ∧
    d.regRead (.diepctl 1) = 0x00498040#32 ∧ d.regRead (.diepint 1) = 1#32 ∧ d.regRead (.dieptsiz 1) = 0#32 := by
  decide +kernel

/-- E16 and its completion: `txfnum` stays. -/
theorem test_flush_completion :
    (FlushMove.apply .txDone (s0.dev.regForce .grstctl 0xA0#32)).regRead .grstctl = 0x80#32 := by decide +kernel

/-- R68: what reset leaves in the registers that do not read 0. -/
theorem test_reset_values :
    let d := (applyInput .reset (at' e6i)).dev
    d.regRead (.doepctl 0) = 0x8000#32 ∧ d.regRead (.doepctl 1) = 0#32 ∧ d.regRead (.diepctl 1) = 0#32 ∧
    d.regRead .dctl = 2#32 ∧ d.regRead .gintsts = 0#32 ∧ d.pullup = false := by decide +kernel

/-! ## The parameters of R7 that fix the shape: a machine of another shape -/

/-- Three endpoints, words of eight bytes, and every field of another width. -/
abbrev other : Shape where
  endpoints  := 3
  txRegions  := 3
  wordBits   := 64
  mpsBits    := 7
  depthBits  := 12
  xfrsizBits := 9
  pktcntBits := 5

/-- The other parameters, as R7 gives them. -/
def otherCfg : Config other where
  rxOverheadWords := 10
  rxWordsPerChunk := 2
  ctrlRxBytes     := 64
  enumCtrlMps     := 8
  deactAllLast    := Fin.last 3
  oorPolicy       := .fault
  flushSync       := true
  inIntAll        := 0x29FF#64
  outIntAll       := 0x715F#64
  fifoRamWords    := 4095
  resetFifo       := { rxfd := 0, tx := Vector.replicate 3 { start := 0, depth := 0 } }

/-- A command on the port of that machine after reset, run by its step. -/
def stepOther (cfg : Config other) (ws : List Word) (p : Dev other → Bool) : Bool :=
  match stepAt { State.resetWith cfg with port := ws } with
  | .next t => p t.dev
  | .fault _ => false
  | .refused _ => false

/-- The packed fields stand where the widths put them; endpoint 3 does not exist, slot 3 is the pad slot. -/
theorem test_shape_fields :
    other.hasRoom = true ∧ (F.pktcnt other).lo = 9 ∧ (F.txDepth other).lo = 12 ∧
    txRegionPack ({ start := 1, depth := 2 } : TxRegion other) = 0x2001#64 ∧
    stepOther otherCfg [0x12300000#32] (fun d => d.fault == 1#32) = true ∧
    stepOther otherCfg [0x13000000#32] (fun d => d.fault == 0x200#32) = true := by decide +kernel

/-- Depths count words of eight bytes, the cursor passes three regions, a depth of 12 bits and a size of 7 bits end
where they end. -/
theorem test_shape_layout :
    stepOther otherCfg [0x02100014#32] (fun d => (d.txf.map fun r => (r.start.toNat, r.depth.toNat)).toList ==
      [(0, 0), (0, 3), (3, 0)] && !d.overlap) = true ∧
    stepOther otherCfg [0x01001FF0#32] (fun d => d.rxfd == 0x002#12 && d.overlap) = true ∧
    stepOther otherCfg [0x10000080#32] (fun d => d.fault == 2#32) = true ∧
    stepOther otherCfg [0x1000007F#32] (fun d => d.fault == 0#32 && (slot d.diepctl 0).mpsiz == 127#7) = true := by
  decide +kernel

/-! ## Stepping a word as the first command after reset -/

/-- R240: step fetches and runs INIT_CORE. -/
theorem test_step_initCore :
    nextIs (step (State.reset.withFetchWord 32 0x40000000)) (fun t => t.dev.gintmsk == 0x000C3010#32 && t.port.isEmpty) =
      true := by decide +kernel

/-- R192: a two-word command with a second word of zeros. -/
theorem test_step_writePacket :
    nextIs (step (State.reset.withFetchWord 32 0x21000000)) (fun t =>
      t.dev.regRead (.dieptsiz 0) == 0x80000#32 && t.port.isEmpty) = true := by decide +kernel

/-- R117: a reserved word on the port. -/
theorem test_step_reserved :
    nextIs (step (State.reset.withFetchWord 32 0)) (fun t => t.dev.fault == 0x40#32 && t.seq == .idle) = true := by
  decide +kernel

/-! ## Witnesses: states and operands that meet the hypotheses of each obligation, clause by clause -/

/-- Undisturbed, as the result statements ask. -/
theorem test_witness_undisturbed (d : Dev .hardware) : (at' d).Undisturbed := ⟨rfl, rfl⟩

/-- The invariant holds of a device whose flags, FAULT and memory are in order and that has logged nothing. -/
theorem test_witness_inv (d : Dev .hardware) (h1 : Memory.wf d.mem = true) (h2 : d.fault &&& ~~~faultAll = 0#32)
    (h3 : d.gintsts &&& gintstsDerived = 0#32) (h4 : (slot d.doepctl 0).usbaep = true)
    (h5 : ∀ e, e < N → slot d.diepint e &&& ~~~d.cfg.inIntAll = 0#32)
    (h6 : ∀ e, e < N → slot d.doepint e &&& ~~~d.cfg.outIntAll = 0#32) (h7 : d.evlog = []) (h8 : d.evPending = none)
    (h9 : d.cfg.inIntAll &&& 3#32 = 3#32 ∧ d.cfg.outIntAll &&& 3#32 = 3#32) : d.Inv :=
  ⟨h1, h2, h3, h4, h9, h5, h6, (by rw [h7]; intro w hw; cases hw), (by rw [h8]; intro w hw; cases hw)⟩

theorem test_witness_DecodeInvertsEncode : (Instr.writePacket 15 65535 0xFFFFFFFF#32).wf = true := by decide

theorem test_witness_EncodeInvertsDecode :
    decode [0x41000005#32, 7#32] = .command (.setAddress 5) [7#32] := by decide

theorem test_witness_ReservedOpcodeSetsReservedCmd :
    let s := { s0 with port := [0x44000000#32, 7#32] }
    s.seq.accepting = true ∧ s.port = 0x44000000#32 :: [7#32] ∧
    opcodeOf 0x44000000#32 ∉ [0x01, 0x02, 0x10, 0x11, 0x12, 0x13, 0x14, 0x15, 0x20, 0x21, 0x30, 0x40, 0x41, 0x42, 0x43] := by
  decide

theorem test_witness_MustBeZeroBitSetsReservedCmd :
    ∃ r ∈ opcodeMap, ∃ r' ∈ opcodeMap, r.twoWords = false ∧ opcodeOf 0x41000080#32 = r.opcode ∧
      0x41000080#32 &&& r.mask ≠ r.pattern ∧ r'.twoWords = true ∧ opcodeOf 0x20100004#32 = r'.opcode ∧
      0x20100004#32 &&& r'.mask ≠ r'.pattern ∧ s0.seq.accepting = true :=
  ⟨_, .tail _ (.tail _ (.tail _ (.tail _ (.tail _ (.tail _ (.tail _ (.tail _ (.tail _ (.tail _ (.tail _ (.tail _
    (.head _)))))))))))), _, .tail _ (.tail _ (.tail _ (.tail _ (.tail _ (.tail _ (.tail _ (.tail _ (.head _)))))))),
    rfl, by decide, by decide, rfl, by decide, by decide, rfl⟩

theorem test_witness_StepRunsDecodedCommand :
    let s := { s0 with port := [0x30000000#32, 7#32] }
    s.seq.accepting = true ∧ decode s.port = .command .poll [7#32] := by decide

/-- A command in progress: BusyPortAcceptsNothing, the second clause of CommandsComeToAnEnd, ResetAbandonsTheCommand. -/
theorem test_witness_command_in_progress :
    let s := { s0 with seq := .run .flushRx [.flushRx], inputs := [.reset] }
    s.seq.accepting = false ∧ s.inputs = .reset :: [] ∧
    ({ s with inputs := [.core .one] } : State).inputs.all Input.goesOn = true := by decide

theorem test_witness_CommandsComeToAnEnd :
    let s := { s0 with inputs := [.link .busReset, .core .one, .host (.command [0x30000000#32])] }
    s.seq.accepting = true ∧ ∀ x ∈ s.inputs, x.goesOn = true := by decide

theorem test_witness_StepKeepsTheInvariant : ({ s0 with inputs := [.link .busReset] } : State).Inv :=
  ⟨test_witness_inv _ rfl (by decide +kernel) (by decide +kernel) (by decide +kernel) (by decide +kernel)
    (by decide +kernel) rfl rfl (by decide), rfl, rfl⟩

theorem test_witness_FailingPreconditionOnlySetsFault :
    s0.seq.accepting = true ∧ N ≤ 6 ∧ ((0 : Nat) = 0 ∨ 2047 < 0) ∧ ((2048 : Nat) = 0 ∨ 2047 < 2048) ∧
    ((0 : Nat) = 0 ∨ N ≤ 0) ∧ ((6 : Nat) = 0 ∨ N ≤ 6) ∧ 1 ≤ 1 ∧ 5 < N := by decide

/-- NestedPollIsTurnedDown and AcknowledgementResumes, with and without access steps left. -/
theorem test_witness_waiting_poll :
    let s := { s0 with seq := .waitAck .poll [.emit .polled], inputs := [.host .ack] }
    s.seq = .waitAck .poll [.emit .polled] ∧ decode s.port = .incomplete ∧ s.inputs = .host .ack :: [] ∧
    ({ s with seq := .waitAck .poll [] } : State).seq = .waitAck .poll [] := by decide

/-- FaultBitsAreSticky, EventLogIsAppendOnly: a step of a state whose script has no reset. -/
theorem test_witness_no_reset :
    let s := { s0 with port := [0x30000000#32], inputs := [.link .busReset] }
    Input.reset ∉ s.inputs ∧ nextIs (step s) (fun _ => true) = true := by decide +kernel

/-- OnlyPollEmits, OnlyInitCoreWritesTheMasks, EndpointZeroStaysControl. -/
theorem test_witness_agents_only :
    let s := { s0 with inputs := [.link .busReset, .core .pause, .flush .rxDone] }
    Instr.deactivateAll ≠ .poll ∧ Instr.deactivateAll ≠ .initCore ∧ Input.reset ∉ s.inputs ∧
    (∀ x ∈ s.inputs, x.fromAgents = true) ∧ nextIs (exec .deactivateAll s) (fun _ => true) = true ∧
    (slot s.dev.diepctl 0).eptyp = .control ∧ (slot s.dev.doepctl 0).eptyp = .control := by decide +kernel

theorem test_witness_WriteBackChangesNoRegister :
    Reg.diepctl 6 ≠ .gintsts ∧ Reg.diepctl 6 ≠ .diepint 6 ∧ Reg.diepctl 6 ≠ .doepint 6 ∧ Reg.dcfg ≠ .gintsts := by decide

/-- IntClearClearsTheNamedFlags: a derived bit, the bit 31, the first and the last endpoint. -/
theorem test_witness_IntClearClearsTheNamedFlags :
    ((19 : Nat) = 4 ∨ (19 : Nat) = 18 ∨ (19 : Nat) = 19) ∧ (31 < 32 ∧ 31 ≠ 4 ∧ 31 ≠ 18 ∧ 31 ≠ 19) ∧ 5 < N ∧ 0 < N := by
  decide

theorem test_witness_DerivedStatusBits : 0 < N ∧ 5 < N := by decide

/-- PopsFollowTheTag: each kind of head. -/
theorem test_witness_PopsFollowTheTag :
    ({ s0.dev with rxq := [.status 1#32] } : Dev .hardware).rxq = .status 1#32 :: [] ∧
    ({ s0.dev with rxq := [.data 1#32] } : Dev .hardware).rxq = .data 1#32 :: [] ∧ s0.dev.rxq = [] := by decide

/-- MemoryReadAfterWrite, and the packets at addresses that wrap. -/
theorem test_witness_MemoryReadAfterWrite : Memory.wf e6mem.mem = true ∧ 0#32 ≠ 0xFFFFFFFF#32 := by decide +kernel

/-- SetRxFifoSizeResult, SetTxFifoSizeResult at their largest operands, with the parameters of R7. -/
theorem test_witness_SetFifoSizeResult : s0.Undisturbed ∧ 65535 < 65536 ∧ 5 < N ∧ s0.dev.cfg.TakesR7 :=
  ⟨⟨rfl, rfl⟩, by decide, by decide, ⟨rfl, rfl, rfl, rfl, rfl, rfl, rfl⟩⟩

/-- FitsAfter, FifosKept (R144, R326, U28): the last total that fits and the first that does not, in RAM, before the
cursor wraps, and before a depth is truncated. The depths are `10 + 2 * ceil(size / 4)` and the depth of region 1. -/
theorem test_witness_FifosKept_bounds :
    let at1 (ram : Nat) (depth : Word) : Dev .hardware :=
      (Dev.afterReset { cfg with fifoRamWords := ram } [] 0).regForce (.dieptxf 0) (depth <<< 16)
    let of1 (perChunk : Nat) : Dev .hardware :=
      Dev.afterReset { cfg with fifoRamWords := 100000, rxOverheadWords := 0, rxWordsPerChunk := perChunk } [] 0
    let left (d : Dev .hardware) (size : Nat) := ((after (.setRxFifoSize size) d).rxfd.toNat,
      (after (.setRxFifoSize size) d).overlap)
    left (at1 42 0#32) 64 = (42, false) ∧ left (at1 41 0#32) 64 = (42, true) ∧
    left (at1 100000 32757#32) 65535 = (32778, false) ∧ left (at1 100000 32758#32) 65535 = (32778, true) ∧
    left (of1 65535) 4 = (65535, false) ∧ left (of1 65536) 4 = (0, true) := by decide +kernel

theorem test_witness_LayoutHoldsUnderInterleaving :
    let s := { s0 with inputs := [.link .busReset, .core .one, .flush .txDone] }
    laysOut (.setTxFifoSize 5 64) = true ∧ s.seq.accepting = true ∧ s.agentsGoOn = true ∧
    nextIs (exec (.setTxFifoSize 5 64) s) (fun t => decide (t.dev.depthSum < 65536)) = true := by decide +kernel

/-- The second and third clause: POLL at enumeration done, from a state in which the law holds, LINK and the flush
controller moving meanwhile; and its step with the command on the port. -/
theorem test_witness_LayoutHoldsUnderInterleaving_poll :
    let s := { at' { e6i with gintsts := 0x2000#32 } with inputs := [.link .busReset, .core .one, .flush .txDone] }
    s.seq.accepting = true ∧ s.agentsGoOn = true ∧ s.dev.LayoutLaw ∧ nextIs (exec .poll s) (fun _ => true) = true ∧
    s.seq.layoutDone = true ∧ nextIs (step { s with port := [0x30000000#32] }) (fun _ => true) = true := by
  unfold Dev.LayoutLaw
  decide +kernel

/-- The third clause in mid-command, with a step left that writes no region register. -/
theorem test_witness_LayoutHoldsUnderInterleaving_step :
    let s := { at' e6 with seq := .run .flushRx [.flushRx] }
    s.dev.LayoutLaw ∧ s.seq.layoutDone = true ∧ s.agentsGoOn = true ∧ nextIs (step s) (fun _ => true) = true := by
  unfold Dev.LayoutLaw
  decide +kernel

/-- ActivateControlResult, ActivateInResult at the ends of their ranges. -/
theorem test_witness_ActivateResults :
    s0.Undisturbed ∧ (1 ≤ 1 ∧ 1 ≤ 2047) ∧ (1 ≤ 2047 ∧ 2047 ≤ 2047) ∧ (1 ≤ 1 ∧ 1 < N) ∧ 1 ≤ 5 ∧ 5 < N :=
  ⟨⟨rfl, rfl⟩, by decide⟩

/-- The clauses of ControlActivated: the parameters of R7; and E6 again, where every region has already what it gets. -/
theorem test_witness_ControlActivated :
    (at' e6).Undisturbed ∧ e6.cfg.TakesR7 ∧
    e6.rxfd.toNat = rxDepthFor e6.cfg e6.cfg.ctrlRxBytes ∧ (e6.txDepth 0).toNat = (8 + 3) / 4 ∧
    e6.LayoutLaw ∧ e6.FitsAfter (rxDepthFor e6.cfg e6.cfg.ctrlRxBytes) ∧
    ¬ (after (.activateControlEp 8) { e6 with cfg := { cfg with fifoRamWords := 59 } }).FitsAfter 42 := by
  refine ⟨⟨rfl, rfl⟩, ⟨rfl, rfl, rfl, rfl, rfl, rfl, rfl⟩, ?_⟩
  unfold Dev.LayoutLaw Dev.FitsAfter
  decide +kernel

/-- The clauses of AllDeactivated: an endpoint visited and one not, every endpoint visited, both settings of
FLUSH_SYNC and of `padFaults`. -/
theorem test_witness_AllDeactivated :
    let some := { cfg with deactAllLast := 2 }
    (2 < N ∧ (2 : Nat) ≤ some.deactAllLast) ∧ (3 < N ∧ (some.deactAllLast : Nat) < 3) ∧
    N ≤ (cfg.deactAllLast : Nat) + 1 ∧ cfg.flushSync = false ∧ some.padFaults = false ∧
    ({ cfg with oorPolicy := .fault } : Config .hardware).padFaults = true ∧
    ({ some with oorPolicy := .fault } : Config .hardware).padFaults = false ∧
    ({ cfg with flushSync := true } : Config .hardware).flushSync = true := by decide +kernel

/-- DeactivateEpResult, DeactivateAllResult, FlushRequestsResult, for both values of FLUSH_SYNC. -/
theorem test_witness_DeactivateAndFlush :
    (at' e6).Undisturbed ∧ 5 < N ∧ (at' e6).dev.cfg.flushSync = false ∧
    (at' { e6 with cfg := { cfg with flushSync := true } }).dev.cfg.flushSync = true :=
  ⟨⟨rfl, rfl⟩, by decide, rfl, rfl⟩

theorem test_witness_FlushCompletionEmptiesTheFifo :
    (s0.dev.regForce .grstctl 0xA0#32).grstctl.txfflsh = true ∧ (s0.dev.regForce .grstctl 0x10#32).grstctl.rxfflsh = true ∧
    s0.dev.grstctl.txfflsh = false ∧ s0.dev.grstctl.rxfflsh = false := by decide +kernel

/-- ReadPacketDelivers: a partial last word, a word left over; and a read of nothing. -/
theorem test_witness_ReadPacketDelivers :
    let d := { e6mem with rxq := [.data 1#32, .data 2#32, .data 3#32] }
    (at' d).Undisturbed ∧ Memory.wf d.mem = true ∧ 7 < 65536 ∧ [1#32, 2#32].length = (7 + 3) / 4 ∧
    d.rxq = ([1#32, 2#32] : List RegWord).map RxWord.data ++ [.data 3#32] ∧ ([] : List RegWord).length = (0 + 3) / 4 ∧
    d.rxq = ([] : List RegWord).map RxWord.data ++ d.rxq :=
  ⟨⟨rfl, rfl⟩, by decide +kernel, by decide, rfl, rfl, rfl, rfl⟩

/-- ReadPacketEndsAtAFaultingPop: RXQ runs out, or a status entry stands in the way. -/
theorem test_witness_ReadPacketEndsAtAFaultingPop :
    let d := { s0.dev with rxq := [.data 1#32] }
    let d' := { s0.dev with rxq := [.data 1#32, .status 2#32] }
    (at' d).Undisturbed ∧ Memory.wf d.mem = true ∧ 4 * [1#32].length < 7 ∧ d.rxq = ([1#32] : List RegWord).map RxWord.data ++ [] ∧
    d'.rxq = ([1#32] : List RegWord).map RxWord.data ++ [.status 2#32] ∧
    (([.status 2#32] : List (RxWord .hardware)) = [] ∨ ∃ w r, ([.status 2#32] : List (RxWord .hardware)) = .status w :: r) :=
  ⟨⟨rfl, rfl⟩, rfl, by decide, rfl, rfl, .inr ⟨_, _, rfl⟩⟩

/-- WritePacketQueues and WriteThenReadRoundTrip at the largest size that fits; and an empty packet. -/
theorem test_witness_WritePacketQueues :
    (at' e6).Undisturbed ∧ 1 < N ∧ 64 ≤ (slot e6.diepctl 1).mpsiz.toNat ∧
    (slot e6.txq 1).length + (64 + 3) / 4 ≤ (e6.txDepth 1).toNat ∧ Memory.wf e6.mem = true ∧ slot e6.txq 1 = [] ∧
    e6.rxq = [] ∧ e6.overlap = false ∧ (0 : Nat) ≤ (slot e6.diepctl 5).mpsiz.toNat :=
  ⟨⟨rfl, rfl⟩, by decide +kernel⟩

theorem test_witness_WritePacketRefusesOversize : (slot e6.diepctl 1).mpsiz.toNat < 65 ∧ (slot e6.diepctl 5).mpsiz.toNat < 1 := by
  decide +kernel

/-- WritePacketEndsAtAFullFifo: room for one word of two. -/
theorem test_witness_WritePacketEndsAtAFullFifo :
    let d := e6.regForce (.dieptxf 0) 0x0001002C#32
    0 < 8 ∧ 8 ≤ (slot d.diepctl 1).mpsiz.toNat ∧ (d.txDepth 1).toNat < (slot d.txq 1).length + (8 + 3) / 4 ∧
    d.overlap = false := by decide +kernel

/-- The causes of POLL, one state each. -/
theorem test_witness_poll_causes :
    classify (e6i.regRead .gintsts) = .none ∧
    classify (({ e6i with gintsts := 0x1000#32 } : Dev .hardware).regRead .gintsts) = .usbrst ∧
    classify (({ e6i with gintsts := 0x2000#32 } : Dev .hardware).regRead .gintsts) = .enumdne ∧
    classify (({ e6i with rxq := [.status 0#32] } : Dev .hardware).regRead .gintsts) = .rxflvl ∧
    classify (({ e6i with rxq := [.data 0#32] } : Dev .hardware).regRead .gintsts) = .rxflvl ∧
    classify ((e6i.regForce (.diepint 1) 1#32).regRead .gintsts) = .iepint ∧
    classify ((e6i.regForce (.doepint 0) 1#32).regRead .gintsts) = .oepint := by decide +kernel

/-- Both clauses of PollHandlesBusReset, their premises met together. -/
theorem test_witness_PollHandlesBusReset :
    let d := { e6i with gintsts := 0x1000#32 }
    let d' := { d with cfg := { cfg with oorPolicy := .fault } }
    d.cfg.padFaults = false ∧ classify (d.regRead .gintsts) = .usbrst ∧ d'.cfg.padFaults = true ∧
    classify (d'.regRead .gintsts) = .usbrst := by decide +kernel

/-- PollHandlesEnumerationDone: sizes at both ends of the range, R7's, and one on each side of it. -/
theorem test_witness_PollHandlesEnumerationDone :
    let d := { e6i with gintsts := 0x2000#32 }
    let size := fun m => { d with cfg := { cfg with enumCtrlMps := m } }
    classify (d.regRead .gintsts) = .enumdne ∧ d.cfg.enumCtrlMps = 8 ∧
    ([0, 1, 2047, 2048].all fun m => classify ((size m).regRead .gintsts) == .enumdne && (size m).cfg.enumCtrlMps == m) =
      true := by decide +kernel

/-- PollFindsRxqEmptied: POLL after its snapshot, RXQ emptied by a flush. -/
theorem test_witness_PollFindsRxqEmptied :
    let s := { at' e6i with seq := .run .poll [.popStatus, .clear .gintsts 0x10#32, .emit .polled] }
    s.seq = .run .poll [.popStatus, .clear .gintsts 0x10#32, .emit .polled] ∧ s.inputs = [] ∧ s.dev.rxq = [] ∧
    nextIs (step s) (fun t => t.dev.fault == 8#32) = true := by decide +kernel

/-- That state is where POLL stands when LINK's entry is flushed away between its snapshot and its pop. -/
theorem test_poll_before_pop :
    let d := { e6i with rxq := [.status 0x000C0080#32], grstctl := { rxfflsh := true, txfflsh := false, txfnum := 0 } }
    nextIs (exec .poll { at' d with inputs := [.core .one, .flush .rxDone, .core .pause] }) (fun t =>
      t.seq == .run .poll [.popStatus, .clear .gintsts 0x10#32, .emit .polled] && t.dev.rxq.isEmpty) = true := by
  decide +kernel

/-- PollHandlesReceiveLevel, PollDropsAnUnreadDataWord and PollHandlesEndpoints: the invariant in those states. -/
theorem test_witness_poll_inv :
    ({ e6i with rxq := [.status 0x000C0080#32] } : Dev .hardware).Inv ∧ ({ e6i with rxq := [.data 7#32] } : Dev .hardware).Inv ∧
    (e6i.regForce (.diepint 1) 9#32).Inv ∧ (e6i.regForce (.doepint 0) 1#32).Inv := by
  refine ⟨?_, ?_, ?_, ?_⟩ <;>
    exact test_witness_inv _ rfl (by decide +kernel) (by decide +kernel) (by decide +kernel) (by decide +kernel)
      (by decide +kernel) rfl rfl (by decide +kernel)

/-- PollHandlesReceiveLevel: a status word for each of its clauses, endpoints 5 and 6 at the bound. -/
theorem test_witness_PollHandlesReceiveLevel :
    (0x000C0080#32).extractLsb' 17 4 = 6#4 ∧
    ((0x00080005#32).extractLsb' 17 4 = 4#4 ∧ ((0x00080005#32).extractLsb' 0 4).toNat < N) ∧
    ((0x00060006#32).extractLsb' 17 4 = 3#4 ∧ N ≤ ((0x00060006#32).extractLsb' 0 4).toNat) ∧
    ((0x00040051#32).extractLsb' 17 4 = 2#4 ∧ (0x00040051#32).extractLsb' 4 11 ≠ 0#11) ∧
    ((0x00040001#32).extractLsb' 17 4 = 2#4 ∧ (0x00040001#32).extractLsb' 4 11 = 0#11) ∧
    (0x00020000#32).extractLsb' 17 4 = 1#4 := by decide

/-- PollHandlesEndpoints: an aggregate bit with `xfrc`, and one without it (I11), the lower endpoints quiet. -/
theorem test_witness_PollHandlesEndpoints :
    let d := e6i.regForce (.diepint 1) 1#32
    let d' := (e6i.regForce (.diepint 1) 8#32).regForce .diepmsk 9#32
    (d.regRead .daint).getLsbD 1 = true ∧ (∀ k, k < 1 → (d.regRead .daint).getLsbD k = false) ∧
    (d.regRead (.diepint 1)).getLsbD 0 = true ∧ classify (d'.regRead .gintsts) = .iepint ∧
    (d'.regRead .daint).getLsbD 1 = true ∧ (d'.regRead (.diepint 1)).getLsbD 0 = false ∧
    ((e6i.regForce (.doepint 0) 1#32).regRead .daint).getLsbD (16 + 0) = true := by decide +kernel

theorem test_witness_PollClearsAfterHandling :
    ({ s0 with seq := .run .poll [.clear (.diepint 5) 1#32, .clear .gintsts 0x40000#32, .emit .polled] } : State).seq =
      .run .poll [.clear (.diepint 5) 1#32, .clear .gintsts 0x40000#32, .emit .polled] ∧ 5 < N ∧ s0.inputs = [] :=
  ⟨rfl, by decide, rfl⟩

/-- BusResetServiceEmitsTwoEvents: the state of S6, the two acknowledgements planned. -/
theorem test_witness_BusResetServiceEmitsTwoEvents :
    let s := { at' { e6i with gintsts := 0x1000#32 } with port := [0x30000000#32], inputs := [.host .ack, .host .ack] }
    s.seq = .idle ∧ s.port = [0x30000000#32] ∧ s.inputs = [.host .ack, .host .ack] ∧ s.dev.cfg.padFaults = false ∧
    (s.dev.regRead .gintsts).getLsbD 12 = true := by decide +kernel

theorem test_witness_SetAddressResult : s0.Undisturbed ∧ 127 < 128 := ⟨⟨rfl, rfl⟩, by decide⟩

/-- LinkNeverTouchesTheRest: for each of its moves an enabled case and one whose guard fails. -/
theorem test_witness_LinkNeverTouchesTheRest :
    5 < N ∧ N ≤ 6 ∧ s0.dev.cfg.inIntAll.getLsbD 8 = true ∧ s0.dev.cfg.inIntAll.getLsbD 9 = false ∧
    s0.dev.cfg.outIntAll.getLsbD 14 = true ∧ s0.dev.cfg.outIntAll.getLsbD 15 = false ∧
    (31 < 32 ∧ (31 : Nat) ∉ [4, 12, 13, 18, 19]) ∧ (19 : Nat) ∈ [4, 12, 13, 18, 19] := by decide +kernel

/-- LinkPushesAReceivedPacket: a packet that just fits (17 words of 42 on 25), one that just does not, and one without
data. -/
theorem test_witness_LinkPushesAReceivedPacket :
    let d := { e6 with rxq := List.replicate 25 (.data 0#32) }
    d.overlap = false ∧ 5 < N ∧ 64 ≤ 2047 ∧ (List.replicate 64 (0#8)).length = 64 ∧
    d.rxq.length + 1 + (64 + 3) / 4 ≤ d.rxfd.toNat ∧
    ({ e6 with rxq := List.replicate 26 (.data 0#32) } : Dev .hardware).rxfd.toNat < 26 + 1 + (64 + 3) / 4 := by decide +kernel

theorem test_witness_LinkSendsThePacket :
    let d := forced [(.dieptsiz 1, 0x00080005#32), (.diepctl 1, 0x80488040#32)]
      { e6 with txq := setSlot e6.txq 1 [0x04030201#32, 0xAABBCC05#32] }
    let ctl := slot d.diepctl 1
    ctl.usbaep = true ∧ ctl.epena = true ∧ ctl.naksts = false ∧ ctl.stall = false ∧
    1 ≤ (slot d.dieptsiz 1).pktcnt.toNat ∧
    ((slot d.dieptsiz 1).xfrsiz.toNat + 3) / 4 ≤ (slot d.txq 1).length ∧ (slot e6.diepctl 1).epena = false := by
  decide +kernel

theorem test_witness_LinkCompletesADisable :
    (slot (e6.regForce (.diepctl 1) 0xC0480040#32).diepctl 1).epdis = true ∧
    (slot (e6.regForce (.doepctl 2) 0xC0000000#32).doepctl 2).epdis = true ∧ (slot e6.diepctl 1).epdis = false ∧
    (slot e6.doepctl 2).epdis = false := by decide +kernel

end Sys2Proof.Tests
end

section
/-! PROOFS. Every command ends: each turn of a command in progress takes an entry from the script or lowers the bound on
the access steps left (spec/45_link_environment.md R265). -/

namespace Sys2Proof.Machine

/-- An access step of CORE takes nothing from the script. -/
theorem coreStep_inputs (s : State) : (coreStep s).inputs = s.inputs := by
  unfold coreStep
  split <;> rfl

/-- An access step of CORE brings it to where it accepts a command, or lowers the bound on the access steps left. -/
theorem coreStep_progress (s : State) :
    (coreStep s).seq.accepting = true ∨ costOf (coreStep s).seq.todo < costOf s.seq.todo := by
  obtain ⟨d, seq, port, inputs⟩ := s
  have hlower : ∀ t rest more, (perform t d).2 = .go more →
      costOf (more ++ rest) < costOf (t :: rest) := by
    intro t rest more h
    have := perform_cost t d more h
    simp only [costOf_append, costOf_cons]
    omega
  match seq with
  | .idle => exact .inl rfl
  | .waitAck _ _ => exact .inl rfl
  | .run _ [] => exact .inl rfl
  | .nested _ _ _ [] => exact .inl rfl
  | .run cmd (t :: rest) =>
    simp only [coreStep]
    cases h : (perform t d).2 with
    | go more => right; rw [Seq.todo_running]; exact hlower t rest more h
    | wait => exact .inl rfl
  | .nested outer outerTodo cmd (t :: rest) =>
    right
    simp only [coreStep]
    cases h : (perform t d).2 with
    | go more => rw [Seq.todo_nesting]; exact hlower t rest more h
    | wait =>
      have := t.cost_pos
      rw [Seq.todo_nesting]
      show costOf rest < costOf (t :: rest)
      rw [costOf_cons]
      omega

/-- Only an acknowledgement and the hardware reset move the sequencer (R126, R320). -/
theorem applyInput_seq (i : Input .hardware) (s : State) (hr : i ≠ .reset) (ha : i ≠ .host .ack) :
    (applyInput i s).seq = s.seq := by
  cases i with
  | reset => exact absurd rfl hr
  | host m => cases m with
    | ack => exact absurd rfl ha
    | command _ => rfl
    | store _ _ => rfl
  | _ => rfl

/-- No move puts anything into the script. -/
theorem applyInput_inputs (i : Input .hardware) (s : State) : (applyInput i s).inputs = s.inputs := by
  cases i with
  | host m => cases m with
    | ack => simp only [applyInput, State.At.ackEvent]; split <;> rfl
    | command _ => rfl
    | store _ _ => rfl
  | _ => rfl

/-- Every turn but a hardware reset brings CORE to where it accepts a command, or lowers the bound on the turns left;
and it leaves a part of the script. -/
theorem turn_progress (s : State) (ha : s.seq.accepting = false) (hr : .reset ∉ s.inputs) :
    ((turn s).seq.accepting = true ∨ (turn s).turnsLeft < s.turnsLeft) ∧ (turn s).inputs ⊆ s.inputs := by
  simp only [State.At.turnsLeft]
  rcases turn_cases s ha with ht | ⟨rest, hi, ht⟩ | ⟨i, rest, hi, hack, -, ht⟩ | ⟨rest, hi, ht⟩ <;> rw [ht]
  · rw [coreStep_inputs]
    exact ⟨(coreStep_progress s).imp_right (by omega), fun _ h => h⟩
  · rw [coreStep_inputs, hi]
    refine ⟨(coreStep_progress { s with inputs := rest }).imp_right fun h => ?_, List.subset_cons_self _ _⟩
    simp only [List.length_cons] at h ⊢
    omega
  · have hne : i ≠ .reset := fun h => hr (by rw [hi, h]; exact .head _)
    rw [applyInput_inputs, applyInput_seq i _ hne hack, hi]
    exact ⟨.inr (by simp), List.subset_cons_self _ _⟩
  · rw [hi]
    exact ⟨.inr (by simp), List.subset_cons_self _ _⟩

/-- With enough turns left, and neither `pause` nor a reset in the script, a command runs to where CORE accepts one. -/
theorem drive_ends (n : Nat) : ∀ s : State, (∀ x ∈ s.inputs, x.goesOn = true) → s.turnsLeft ≤ n →
    (drive n s).seq.accepting = true := by
  induction n with
  | zero => intro s _ hn; simp [State.At.turnsLeft] at hn
  | succ n ih =>
    intro s hok hn
    cases ha : s.seq.accepting with
    | true => rw [drive_accepting _ _ ha, ha]
    | false =>
      have hr : .reset ∉ s.inputs := fun h => absurd (hok _ h) Bool.false_ne_true
      obtain ⟨hp, hsub⟩ := turn_progress s ha hr
      have hd : drive (n + 1) s = drive n (turn s) := by
        rw [drive, if_neg (by simp [ha])]
        split
        · next rest h => exact absurd (hok (.core .pause) (by rw [h]; exact .head _)) Bool.false_ne_true
        · rfl
      rw [hd]
      rcases hp with hp | hp
      · rw [drive_accepting _ _ hp, hp]
      · exact ih _ (fun x hx => hok x (hsub hx)) (by omega)

/-- The same of the turns a step of the machine grants. -/
theorem proceed_ends (s : State) (hok : ∀ x ∈ s.inputs, x.goesOn = true) : s.proceed.seq.accepting = true :=
  drive_ends _ s hok (Nat.le_refl _)

/-- R110: a command accepted is run to its end. -/
theorem issue_ends (cmd : Instr) (todo : List (AccessStep .hardware)) (s : State) (ha : s.seq.accepting = true)
    (hok : ∀ x ∈ s.inputs, x.goesOn = true) : ∃ t, issue cmd todo s = .next t ∧ t.seq.accepting = true := by
  cases hs : s.seq with
  | idle => exact ⟨_, by simp only [issue, hs], proceed_ends { s with seq := .running cmd todo } hok⟩
  | waitAck outer outerTodo =>
    exact ⟨_, by simp only [issue, hs], proceed_ends { s with seq := .nesting outer outerTodo cmd todo } hok⟩
  | run _ _ => simp [hs] at ha
  | nested _ _ _ _ => simp [hs] at ha

/-- Settles O10: every turn lowers the bound on the turns left, so the turns a step grants reach the end. -/
theorem commandsComeToAnEnd : Obligations.CommandsComeToAnEnd := by
  refine ⟨fun i s ha hok => ?_, fun s ha hok => ?_⟩
  · rcases exec_cases i s with ⟨c, h⟩ | h
    · exact ⟨_, h.trans (takeFault_accepting c s ha), ha⟩
    · rw [h]; exact issue_ends _ _ s ha hok
  · exact ⟨s.proceed, by simp [step, stepWith, ha], proceed_ends s hok⟩

end Sys2Proof.Machine
end

section
/-! PROOFS. The invariant (Safety.lean): the state after reset meets it, and every step keeps it. A command is run
turn by turn, so it is shown of an access step of CORE and of a move of another agent, and `drive_induct` does the rest. -/

namespace Sys2Proof.Machine

/-! ## The hardware reset -/

/-- R320: the registers after a hardware reset meet the invariant, with HOST's memory canonical and the parameters
naming `xfrc` and `epdisd`. -/
theorem Dev.Inv_afterReset (cfg : Config .hardware) (mem : Memory) (draws : Nat) (hm : Memory.wf mem = true)
    (hn : cfg.inIntAll &&& 3#32 = 3#32 ∧ cfg.outIntAll &&& 3#32 = 3#32) : (Dev.afterReset cfg mem draws).Inv where
  memory := hm
  fault := by simp [Dev.afterReset]
  gintsts := by simp [Dev.afterReset]
  control := rfl
  named := hn
  inFlags e he := by simp [Dev.afterReset, show e < 6 from he]
  outFlags e he := by simp [Dev.afterReset, show e < 6 from he]
  events w hw := nomatch hw
  pending w hw := nomatch hw

/-- With RESET_FIFO = 0 (log entry 4) every region starts and ends at 0 (R143). -/
theorem reset_layoutLaw : State.reset.dev.LayoutLaw := by
  unfold Dev.LayoutLaw
  decide

/-- Settles O13. -/
theorem resetMeetsTheInvariant : Obligations.ResetMeetsTheInvariant :=
  ⟨⟨Dev.Inv_afterReset _ _ _ rfl (by decide), rfl, rfl⟩, ⟨reset_layoutLaw, rfl⟩⟩

/-! ## The device under a move of another agent -/

/-- The invariant says nothing of FIFO contents, flush requests, draws and the overlap mark. -/
theorem Dev.Inv.queues {d : Dev .hardware} (h : d.Inv) (rq : List (RxWord .hardware)) (tq : Vector (List RegWord) N)
    (g : Grstctl) (n : Nat) (o : Bool) :
    ({ d with rxq := rq, txq := tq, grstctl := g, draws := n, overlap := o } : Dev .hardware).Inv :=
  ⟨h.memory, h.fault, h.gintsts, h.control, h.named, h.inFlags, h.outFlags, h.events, h.pending⟩

/-- The flush controller keeps the device's invariant (R173, R174). -/
theorem FlushMove.apply_Inv (m : FlushMove) (d : Dev .hardware) (h : d.Inv) : (m.apply d).Inv := by
  cases m with
  | txDone =>
    simp only [FlushMove.apply, Dev.flushTxDone]
    split
    · exact h.queues d.rxq _ _ d.draws d.overlap
    · exact h
  | rxDone =>
    simp only [FlushMove.apply, Dev.flushRxDone]
    split
    · exact h.queues [] d.txq _ d.draws d.overlap
    · exact h

/-- So does the test harness (R267). -/
theorem HarnessMove.apply_Inv (m : HarnessMove .hardware) (d : Dev .hardware) (h : d.Inv) : (m.apply d).Inv := by
  cases m with
  | set r f v => exact Dev.Inv_regForce d r _ h
  | rxFeed ws => exact h.queues _ d.txq d.grstctl _ d.overlap
  | rxStatus sts => exact h.queues _ d.txq d.grstctl _ d.overlap
  | loopback e => exact h.queues _ _ d.grstctl _ d.overlap

/-- So does the acknowledgement of an event (R126). -/
theorem Dev.Inv_acknowledge (d : Dev .hardware) (h : d.Inv) : d.acknowledge.Inv :=
  ⟨h.memory, h.fault, h.gintsts, h.control, h.named, h.inFlags, h.outFlags, h.events, fun _ hw => nomatch hw⟩

/-- So does HOST where it writes its memory (R83). -/
theorem Dev.Inv_memWriteAll (d : Dev .hardware) (a : Word) (bs : List Byte) (h : d.Inv) : (d.memWriteAll a bs).Inv := by
  have hm := Dev.wf_memWriteAll d a bs h.memory
  rw [Dev.memWriteAll_eq]
  exact ⟨hm, h.fault, h.gintsts, h.control, h.named, h.inFlags, h.outFlags, h.events, h.pending⟩

/-- No move but HOST's acknowledgement and the hardware reset touches the pending event, whatever CORE is doing. -/
theorem applyInput_evPending (i : Input .hardware) (s : State) (hr : i ≠ .reset) (ha : i ≠ .host .ack) :
    (applyInput i s).dev.evPending = s.dev.evPending := by
  have hseq : (applyInput i s).dev = (applyInput i { s with seq := .run .poll [] }).dev := by
    cases i with
    | host m => cases m with
      | ack => exact absurd rfl ha
      | command _ => rfl
      | store _ _ => rfl
    | _ => rfl
  rw [hseq]
  exact (applyInput_keeps i { s with seq := .run .poll [] } hr).2.2.2 rfl

/-- Every move of another agent keeps the device's invariant. -/
theorem applyInput_devInv (i : Input .hardware) (s : State) (h : s.dev.Inv) : (applyInput i s).dev.Inv := by
  cases i with
  | link m => exact m.apply_Inv s.dev h
  | flush m => exact m.apply_Inv s.dev h
  | harness m => exact m.apply_Inv s.dev h
  | core _ => exact h
  | reset => exact Dev.Inv_afterReset _ _ _ h.memory h.named
  | host m => cases m with
    | command _ => exact h
    | store a bs => exact Dev.Inv_memWriteAll s.dev a bs h
    | ack =>
      simp only [applyInput, State.At.ackEvent]
      split
      · exact h
      · exact h
      · exact Dev.Inv_acknowledge s.dev h
      · exact h

/-! ## The sequencer -/

theorem emitsNothing_iff (todo : List (AccessStep .hardware)) :
    emitsNothing todo = true ↔ ∀ x ∈ todo, x.pollOnly = false := by simp [emitsNothing]

theorem Seq.wf_running (cmd : Instr) (todo : List (AccessStep .hardware))
    (h : cmd = .poll ∨ emitsNothing todo = true) : (Seq.running cmd todo).wf = true := by
  cases todo with
  | nil => rfl
  | cons t ts => simpa [Seq.running, Seq.wf] using h

@[simp] theorem Seq.waits_running (cmd : Instr) (todo : List (AccessStep .hardware)) :
    (Seq.running cmd todo).waits = false := by cases todo <;> rfl

theorem Seq.wf_nesting (outerTodo : List (AccessStep .hardware)) (cmd : Instr) (todo : List (AccessStep .hardware))
    (hc : cmd ≠ .poll) (h : emitsNothing todo = true) : (Seq.nesting .poll outerTodo cmd todo).wf = true := by
  cases todo with
  | nil => rfl
  | cons t ts => simp [Seq.nesting, Seq.wf, hc, h]

@[simp] theorem Seq.waits_nesting (outer cmd : Instr) (outerTodo todo : List (AccessStep .hardware)) :
    (Seq.nesting outer outerTodo cmd todo).waits = true := by cases todo <;> rfl

/-- What an access step that may be performed leaves to do may be performed. -/
theorem emitsNothing_perform {t : AccessStep .hardware} {rest more : List (AccessStep .hardware)} {d : Dev .hardware}
    (h : emitsNothing (t :: rest) = true) (hm : (perform t d).2 = .go more) : emitsNothing (more ++ rest) = true := by
  rw [emitsNothing_iff] at h ⊢
  intro x hx
  rcases List.mem_append.mp hx with hx | hx
  · exact hereditary_emitsNothing t d more (h t (.head _)) hm x hx
  · exact h x (.tail _ hx)

/-- R126: an access step that does not wait leaves the pending event. -/
theorem perform_evPending (t : AccessStep .hardware) (d : Dev .hardware) {more : List (AccessStep .hardware)}
    (h : (perform t d).2 = .go more) : (perform t d).1.evPending = d.evPending :=
  perform_keeps (P := fun x => x.evPending = d.evPending) t
    (fun x r w _ hx => (Dev.regWrite_evPending x r w).trans hx) (fun _ _ hx => hx) (fun _ _ _ _ _ hx => hx)
    (fun _ _ hx => hx) (fun _ _ _ hx => hx) (fun _ ev ht _ => by subst ht; cases h) d rfl

/-- An access step of CORE keeps the invariant. -/
theorem coreStep_Inv (s : State) (h : s.Inv) : (coreStep s).Inv := by
  obtain ⟨hdev, hseq, hack⟩ := h
  obtain ⟨d, seq, port, inputs⟩ := s
  match seq with
  | .idle => exact ⟨hdev, hseq, hack⟩
  | .waitAck _ _ => exact ⟨hdev, hseq, hack⟩
  | .run _ [] => exact ⟨hdev, rfl, hack⟩
  | .nested _ _ _ [] => simp [Seq.wf] at hseq
  | .run cmd (t :: rest) =>
    have hd := perform_Inv t d hdev
    have hc : cmd = .poll ∨ emitsNothing (t :: rest) = true := by simpa [Seq.wf] using hseq
    cases hm : (perform t d).2 with
    | go more =>
      have hp := perform_evPending t d hm
      refine ⟨hd, ?_, ?_⟩ <;> simp only [coreStep, hm]
      · exact Seq.wf_running _ _ (hc.imp_right fun he => emitsNothing_perform he hm)
      · rw [hp, Seq.waits_running]; exact hack
    | wait =>
      obtain ⟨ev, rfl⟩ := perform_wait t d hm
      refine ⟨hd, ?_, rfl⟩
      rcases hc with rfl | he
      · rfl
      · simp [emitsNothing, AccessStep.pollOnly] at he
  | .nested outer outerTodo cmd (t :: rest) =>
    have hd := perform_Inv t d hdev
    obtain ⟨⟨rfl, hc⟩, he⟩ : (outer = .poll ∧ cmd ≠ .poll) ∧ emitsNothing (t :: rest) = true := by
      simpa [Seq.wf] using hseq
    cases hm : (perform t d).2 with
    | go more =>
      have hp := perform_evPending t d hm
      refine ⟨hd, ?_, ?_⟩ <;> simp only [coreStep, hm]
      · exact Seq.wf_nesting _ _ _ hc (emitsNothing_perform he hm)
      · rw [hp, Seq.waits_nesting]; exact hack
    | wait =>
      obtain ⟨ev, rfl⟩ := perform_wait t d hm
      simp [emitsNothing, AccessStep.pollOnly] at he

/-- A move of another agent keeps the invariant, whatever CORE is doing. -/
theorem applyInput_Inv (i : Input .hardware) (s : State) (h : s.Inv) : (applyInput i s).Inv := by
  have hd := applyInput_devInv i s h.dev
  by_cases hr : i = .reset
  · subst hr; exact ⟨hd, rfl, rfl⟩
  by_cases ha : i = .host .ack
  · subst ha
    refine ⟨hd, ?_, ?_⟩ <;> simp only [applyInput, State.At.ackEvent] <;> split
    · exact h.seq
    · exact h.seq
    · next cmd todo hs =>
      have hw := h.seq
      rw [hs] at hw
      exact Seq.wf_running cmd todo (.inl (by simpa [Seq.wf] using hw))
    · exact h.seq
    · exact h.ack
    · exact h.ack
    · simp
    · exact h.ack
  · exact ⟨hd, by rw [applyInput_seq i s hr ha]; exact h.seq,
      by rw [applyInput_evPending i s hr ha, applyInput_seq i s hr ha]; exact h.ack⟩

/-! ## Commands and steps -/

/-- Running the command in progress keeps the invariant. -/
theorem proceed_Inv (s : State) (h : s.Inv) : s.proceed.Inv :=
  drive_induct (ok := fun _ => True) (fun _ _ h => ⟨h.dev, h.seq, h.ack⟩) (fun s _ h => coreStep_Inv s h)
    (fun i s _ _ h => applyInput_Inv i s h) _ s (fun _ _ => trivial) h

theorem takeFault_Inv {c : FaultCause} {s t : State} (h : s.Inv) (ht : takeFault c s = .next t) : t.Inv := by
  unfold takeFault at ht
  split at ht
  · injection ht with ht; subst ht; exact ⟨Dev.Inv_raise s.dev c h.dev, h.seq, h.ack⟩
  · cases ht

/-- A command keeps the invariant (R126: a POLL is never nested, and no other command emits). -/
theorem exec_Inv {i : Instr} {s t : State} (h : s.Inv) (ht : exec i s = .next t) : t.Inv := by
  rcases exec_cases i s with ⟨c, hc⟩ | hc
  · exact takeFault_Inv h (hc ▸ ht)
  · have hp : i = .poll ∨ emitsNothing (commandSteps s.dev.cfg i) = true :=
      or_iff_not_imp_left.mpr fun hi => (emitsNothing_iff _).mpr (commandSteps_emitsNothing _ i hi)
    cases hs : s.seq with
    | idle =>
      simp only [hc, issue, hs, Host.Outcome.next.injEq] at ht
      subst ht
      refine proceed_Inv _ ⟨h.dev, Seq.wf_running _ _ hp, ?_⟩
      rw [h.ack, hs, Seq.waits_running]; rfl
    | waitAck outer outerTodo =>
      by_cases hi : i = .poll
      · subst hi
        exact takeFault_Inv h (c := .reentrantPoll) (by simpa only [exec, execPoll, hs] using ht)
      have ho : outer = .poll := by simpa [hs, Seq.wf] using h.seq
      simp only [hc, issue, hs, Host.Outcome.next.injEq] at ht
      subst ht ho
      refine proceed_Inv _ ⟨h.dev, Seq.wf_nesting _ _ _ hi (hp.resolve_left hi), ?_⟩
      rw [h.ack, hs, Seq.waits_nesting]; rfl
    | run _ _ => simp [hc, issue, hs] at ht
    | nested _ _ _ _ => simp [hc, issue, hs] at ht

/-- Settles O14. -/
theorem stepKeepsTheInvariant : Obligations.StepKeepsTheInvariant := by
  intro s t h ht
  unfold step stepWith at ht
  split at ht
  · unfold acceptStep at ht
    split at ht
    · next i rest _ => exact exec_Inv (s := { s with port := rest }) ⟨h.dev, h.seq, h.ack⟩ ht
    · next why rest _ => exact takeFault_Inv (s := { s with port := rest }) ⟨h.dev, h.seq, h.ack⟩ ht
    · split at ht <;> injection ht with ht <;> subst ht
      · exact h
      · exact applyInput_Inv _ _ ⟨h.dev, h.seq, h.ack⟩
  · injection ht with ht; subst ht; exact proceed_Inv s h

/-! ## What only the hardware reset takes back -/

/-- Settles O17: an access step at most sets a bit of FAULT, and no other agent's move touches it (R60). -/
theorem faultBitsAreSticky : Obligations.FaultBitsAreSticky := by
  intro s t hr ht
  have hraise := Dev.raise_keeps s.dev.fault
  refine step_dev (ok := fun i => i ≠ .reset) (P := fun d => s.dev.fault &&& d.fault = s.dev.fault) ?_ ?_
    (fun c d => hraise d c) (fun x hx hn => hr (hn ▸ hx)) ht BitVec.and_self
  · intro a d h
    exact perform_keeps (P := fun d => s.dev.fault &&& d.fault = s.dev.fault) a
      (fun d r w _ h => by rw [Dev.regWrite_fault]; exact h) hraise (fun _ _ _ _ _ h => h) (fun _ _ h => h)
      (fun _ _ _ h => h) (fun _ _ _ h => h) d h
  · intro i s' hi h
    rw [(applyInput_keeps i s' hi).1]; exact h

/-- Settles O18: an access step at most appends an event, and no other agent's move touches EVLOG (R61). -/
theorem eventLogIsAppendOnly : Obligations.EventLogIsAppendOnly := by
  intro s t hr ht
  refine step_dev (ok := fun i => i ≠ .reset) (P := fun d => s.dev.evlog <+: d.evlog) ?_ ?_
    (fun _ _ h => h) (fun x hx hn => hr (hn ▸ hx)) ht (List.prefix_refl _)
  · intro a d h
    exact perform_keeps (P := fun d => s.dev.evlog <+: d.evlog) a
      (fun d r w _ h => by rw [Dev.regWrite_evlog]; exact h) (fun _ _ h => h) (fun _ _ _ _ _ h => h) (fun _ _ h => h)
      (fun _ _ _ h => h) (fun _ _ _ h => h.trans (List.prefix_append _ _)) d h
  · intro i s' hi h
    rw [(applyInput_keeps i s' hi).2.1]; exact h

end Sys2Proof.Machine
end

section
/-! PROOFS. The register file as read: the derived status bits and the interrupt line (spec/10_state.md R54, R62),
writing back what was read (R22, R90), IntClear (R91), and the values after a hardware reset (R68). -/

namespace Sys2Proof.Machine

/-! ## Derived bits (R54, R62) -/

/-- Bit `i` of a bit map. -/
theorem getLsbD_bitMap {w : Nat} (f : Nat → Bool) (n i : Nat) :
    (bitMap f n : BitVec w).getLsbD i = (decide (i < n) && decide (i < w) && f i) := by
  induction n with
  | zero => simp [bitMap]
  | succ n ih =>
    rw [bitMap, BitVec.getLsbD_or, ih]
    by_cases hin : i = n
    · subst hin
      by_cases hw : i < w
      · cases f i <;> simp [hw]
      · rw [BitVec.getLsbD_of_ge _ i (by omega)]; simp [hw]
    · have hbit : (if f n then 1#w <<< n else 0#w).getLsbD i = false := by
        split
        · simp only [BitVec.getLsbD_shiftLeft, BitVec.getLsbD_one]
          by_cases hlt : i < n
          · simp [hlt]
          · simp [show ¬ i - n = 0 by omega]
        · exact BitVec.getLsbD_zero
      rw [hbit, Bool.or_false, show decide (i < n + 1) = decide (i < n) from decide_eq_decide.mpr (by omega)]

/-- Two words share a bit iff their conjunction is not 0. -/
theorem and_ne_zero_iff {w : Nat} (x y : BitVec w) :
    x &&& y ≠ 0#w ↔ ∃ i, i < w ∧ x.getLsbD i = true ∧ y.getLsbD i = true := by
  constructor
  · intro h
    by_contra hn
    refine h (BitVec.eq_of_getLsbD_eq fun i hi => ?_)
    rw [BitVec.getLsbD_and, BitVec.getLsbD_zero, Bool.and_eq_false_iff, ← Bool.not_eq_true, ← Bool.not_eq_true]
    exact not_and_or.mp fun hxy => hn ⟨i, hi, hxy⟩
  · rintro ⟨i, -, hx, hy⟩ h
    have := congrArg (fun z => z.getLsbD i) h
    simp [hx, hy] at this

/-- R38: the IN half of DAINT. -/
theorem Dev.daint_in (d : Dev .hardware) (e : Nat) (he : e < 6) : d.daint.getLsbD e = d.inPending e := by
  rw [Dev.daint, BitVec.getLsbD_or, BitVec.getLsbD_shiftLeft, getLsbD_bitMap]
  simp [he, show e < 32 by omega, show e < 16 by omega]

/-- R38: the OUT half of DAINT. -/
theorem Dev.daint_out (d : Dev .hardware) (e : Nat) (he : e < 6) : d.daint.getLsbD (16 + e) = d.outPending e := by
  rw [Dev.daint, BitVec.getLsbD_or, BitVec.getLsbD_shiftLeft, getLsbD_bitMap, getLsbD_bitMap]
  simp [he, show 16 + e < 32 by omega, show e < 32 by omega, show ¬ 16 + e < 6 by omega]

/-- R54: an aggregate bit whose enable bit in a half of DAINTMSK is set. -/
theorem bitMap_and_ne_zero (f : Nat → Bool) (m : BitVec 6) :
    ((bitMap f 6 &&& m.setWidth 32 != 0#32) = true) ↔ ∃ e, e < 6 ∧ f e = true ∧ m.getLsbD e = true := by
  rw [bne_iff_ne, and_ne_zero_iff]
  simp only [getLsbD_bitMap, BitVec.getLsbD_setWidth, Bool.and_eq_true, decide_eq_true_eq]
  constructor
  · rintro ⟨e, -, ⟨⟨he, -⟩, hf⟩, -, hm⟩; exact ⟨e, he, hf, hm⟩
  · rintro ⟨e, he, hf, hm⟩; exact ⟨e, by omega, ⟨⟨he, by omega⟩, hf⟩, by omega, hm⟩

/-- R24, R54: each bit of GINTSTS as read. -/
theorem Dev.getLsbD_gintstsRead (d : Dev .hardware) (b : Nat) :
    d.gintstsRead.getLsbD b =
      if b = 19 then d.oepint else if b = 18 then d.iepint else if b = 4 then d.rxflvl else d.gintsts.getLsbD b := by
  simp only [Dev.gintstsRead, putFields, List.foldl, Field.getLsbD_put, F.rxflvl, F.iepint, F.oepint, flagNat_testBit]
  by_cases h19 : b = 19
  · simp [h19]
  by_cases h18 : b = 18
  · simp [h18]
  by_cases h4 : b = 4
  · simp [h4]
  rw [if_neg (by omega), if_neg (by omega), if_neg (by omega), if_neg h19, if_neg h18, if_neg h4]

/-- Settles O22. -/
theorem derivedStatusBits : Obligations.DerivedStatusBits := by
  intro d
  simp only [Dev.regRead, Dev.getLsbD_gintstsRead]
  refine ⟨fun e he => ⟨?_, ?_⟩, ?_, ?_, ?_⟩
  · rw [Dev.daint_in d e he]; exact bne_iff_ne
  · rw [Dev.daint_out d e he]; exact bne_iff_ne
  · refine (bitMap_and_ne_zero _ _).trans (exists_congr fun e => and_congr_right fun he => ?_)
    rw [Dev.daint_in d e he, Daintmsk.pack_in _ e he]
  · refine (bitMap_and_ne_zero _ _).trans (exists_congr fun e => and_congr_right fun he => ?_)
    rw [Dev.daint_out d e he, Daintmsk.pack_out _ e he]
  · simp [Dev.rxflvl]

/-- Settles O23. -/
theorem interruptLineIsALevel : Obligations.InterruptLineIsALevel := by
  intro d
  rw [Dev.irq, Bool.and_eq_true, bne_iff_ne, and_ne_zero_iff]
  rfl

/-! ## Writing back what was read (R22, R90) -/

/-- What registers read as depends on the FIFOs only by whether RXQ is empty. -/
theorem Dev.regRead_queues (d : Dev .hardware) (rq : List (RxWord .hardware)) (tq : Vector (List RegWord) N) (n : Nat)
    (o : Bool) (h : rq.length = d.rxq.length) (r : Reg) :
    ({ d with rxq := rq, txq := tq, draws := n, overlap := o } : Dev .hardware).regRead r = d.regRead r := by
  cases r with
  | gintsts =>
    have he : rq.isEmpty = d.rxq.isEmpty := by
      rw [Bool.eq_iff_iff, List.isEmpty_iff_length_eq_zero, List.isEmpty_iff_length_eq_zero, h]
    simp only [Dev.regRead, Dev.gintstsRead, Dev.rxflvl, he]
    rfl
  | _ => rfl

/-- R40: writing back an IN control register as read keeps it. -/
theorem Diepctl.write_pack (r : Diepctl .hardware) : r.write r.pack = r := by
  cases r
  simp [Diepctl.write, Diepctl.pack, nakAfterWrite, packFields, putFields, Field.bit_put,
    extract_put_same, extract_put_other, F.mpsiz, Shape.hardware, F.usbaep, F.dpid, F.naksts, F.eptyp, F.stall, F.txfnum, F.cnak, F.snak, F.sd0pid,
    F.epdis, F.epena]

/-- R44: writing back an OUT control register as read stores the active bit as it reads (R45), and nothing else. -/
theorem Doepctl.write_pack (r : Doepctl .hardware) (e : Nat) :
    r.write e (r.pack e) = { r with usbaep := r.active e } := by
  cases r
  simp [Doepctl.write, Doepctl.pack, Doepctl.active, nakAfterWrite, packFields, putFields, Field.bit_put,
    extract_put_same, extract_put_other, F.mpsiz, Shape.hardware, F.usbaep, F.dpid, F.naksts, F.eptyp, F.stall, F.cnak, F.snak, F.sd0pid,
    F.epdis, F.epena]
  by_cases he : e = 0 <;> simp [he]

/-- R23: writing back GRSTCTL as read keeps it. -/
theorem Grstctl.write_pack (r : Grstctl) : r.write (r.pack : RegWord) = r := by
  cases r
  simp [Grstctl.write, Grstctl.pack, packFields, putFields, Field.bit_put, extract_put_same, F.rxfflsh,
    F.txfflsh, F.grsttxfnum]

/-- R45: a stored active bit that equals the one read makes no difference to a read. -/
theorem Doepctl.pack_active (r : Doepctl .hardware) (e : Nat) :
    ({ r with usbaep := r.active e } : Doepctl .hardware).pack e = r.pack e := by
  have ha : ({ r with usbaep := r.active e } : Doepctl .hardware).active e = r.active e := by simp [Doepctl.active]
  simp only [Doepctl.pack, ha]

/-- Storing the active bit of an OUT endpoint as it reads changes no register. -/
theorem Dev.regRead_active (d : Dev .hardware) (e : Nat) (r : Reg) :
    ({ d with doepctl := setSlot d.doepctl e { slot d.doepctl e with usbaep := (slot d.doepctl e).active e } } :
      Dev .hardware).regRead r = d.regRead r := by
  cases r with
  | doepctl k =>
    simp only [Dev.regRead, slot_setSlot]
    split
    · next h => rw [← h.1, Doepctl.pack_active]
    · rfl
  | _ => rfl

/-- R31, R32: writing back a region register changes no register. -/
theorem Dev.regRead_setTxRegion_same (d : Dev .hardware) (e : Nat) (r : Reg) :
    (d.setTxRegion e (txRegionUnpack (txRegionPack (slot d.txf e)))).regRead r = d.regRead r := by
  rw [txRegionUnpack_pack, Dev.setTxRegion_eq, setSlot_slot]
  exact Dev.regRead_queues d _ _ _ _ (Dev.setTxRegion_counts d e _).1 r

/-- Settles O24: only the FIFO contents, which no register shows, and the stored active bit of endpoint 0 can differ. -/
theorem writeBackChangesNoRegister : Obligations.WriteBackChangesNoRegister := by
  intro d r hg hi ho r'
  have hrmw : d.regRMW r [] = d.regWrite r (d.regRead r) := by simp [Dev.regRMW, putFields]
  rw [hrmw]
  cases r with
  | gahbcfg => simp [Dev.regWrite, Dev.regRead, packFields, putFields, Field.bit_put, F.gint]
  | grstctl => rw [Dev.regWrite, Dev.regRead, Grstctl.write_pack]
  | gintsts => exact absurd rfl hg
  | grxfsiz =>
    have hw : d.regWrite .grxfsiz (d.regRead .grxfsiz) = d.setRxDepth d.rxfd :=
      congrArg d.setRxDepth (rxfdPack_extract _)
    rw [hw, Dev.setRxDepth_eq]
    exact Dev.regRead_queues d _ _ _ _ (Dev.setRxDepth_counts d _).1 r'
  | dieptxf0 => exact Dev.regRead_setTxRegion_same d 0 r'
  | dieptxf k => exact Dev.regRead_setTxRegion_same d (k + 1) r'
  | daintmsk => rw [Dev.regWrite, Dev.regRead, Daintmsk.unpack_pack]
  | diepctl e => rw [Dev.regWrite, Dev.regRead, Diepctl.write_pack, setSlot_slot]
  | dieptsiz e => rw [Dev.regWrite, Dev.regRead, Dieptsiz.unpack_pack, setSlot_slot]
  | doepctl e => rw [Dev.regWrite, Dev.regRead, Doepctl.write_pack, Dev.regRead_active]
  | diepint e => exact absurd rfl (hi e)
  | doepint e => exact absurd rfl (ho e)
  | gintmsk | dcfg | dctl | diepmsk | doepmsk | daint => rfl

/-! ## IntClear (R91) -/

/-- Clearing flags and hiding reserved bits commute. -/
theorem and_not_and_comm {w : Nat} (x m c : BitVec w) : x &&& ~~~m &&& c = x &&& c &&& ~~~m := by
  rw [BitVec.and_assoc, BitVec.and_comm (~~~m), ← BitVec.and_assoc]

/-- Settles O25. -/
theorem intClearClearsTheNamedFlags : Obligations.IntClearClearsTheNamedFlags := by
  intro d m
  refine ⟨rfl, fun b hb => ?_, fun b hb h4 h18 h19 => ?_, fun e he => ⟨rfl, rfl, ?_, ?_⟩⟩
  · simp only [Dev.regRead, Dev.getLsbD_gintstsRead]
    rcases hb with rfl | rfl | rfl <;> rfl
  · simp only [Dev.regRead, Dev.getLsbD_gintstsRead, if_neg h4, if_neg h18, if_neg h19]
    simp [Dev.intClear, Dev.regWrite, hb]
  · simp only [Dev.regRead, Dev.intClear, Dev.regWrite, slot_setSlot]
    rw [if_pos ⟨trivial, he⟩]
    exact and_not_and_comm _ _ _
  · simp only [Dev.regRead, Dev.intClear, Dev.regWrite, slot_setSlot]
    rw [if_pos ⟨trivial, he⟩]
    exact and_not_and_comm _ _ _

/-! ## After a hardware reset (R68) -/

/-- R68: what the registers of an endpoint read as after a hardware reset. -/
theorem Dev.afterReset_endpoint (cfg : Config .hardware) (mem : Memory) (draws e : Nat) (he : e < N) :
    let d := Dev.afterReset cfg mem draws
    d.regRead (.diepctl e) = 0#32 ∧ d.regRead (.diepint e) = 0#32 ∧ d.regRead (.dieptsiz e) = 0#32 ∧
      d.regRead (.doepint e) = 0#32 ∧ d.regRead (.doepctl e) = if e = 0 then 0x8000#32 else 0#32 := by
  have he' : e < 6 := he
  have hin : (default : Diepctl .hardware).pack = 0#32 := by decide
  have hsiz : (default : Dieptsiz .hardware).pack = 0#32 := by decide
  have hout : (slot (Dev.afterReset cfg mem draws).doepctl e).pack e = if e = 0 then 0x8000#32 else 0#32 := by
    have hall : ∀ e, e < 6 →
        (slot (setSlot (Vector.replicate 6 default) 0 doepctl0Reset) e : Doepctl .hardware).pack e =
        if e = 0 then 0x8000#32 else 0#32 := by decide
    exact hall e he'
  simp only [Dev.regRead]
  refine ⟨?_, ?_, ?_, ?_, hout⟩ <;> simp [Dev.afterReset, he', hin, hsiz]

/-- Settles O11. -/
theorem hardwareResetValues : Obligations.HardwareResetValues := by
  intro s
  have haddr : F.dad.get 0#32 = 0 := by decide
  have hdis : F.sdis.bit 2#32 = true := by decide
  refine ⟨rfl, rfl, rfl, rfl, ?_, rfl, ?_, rfl, rfl, haddr, hdis,
    Dev.afterReset_endpoint s.dev.cfg s.dev.mem s.dev.draws, rfl, fun e he => ?_, rfl, rfl, rfl, rfl, rfl, rfl,
    congrArg (!·) hdis⟩
  · show (Daintmsk.mk 0 0 : Daintmsk .hardware).pack = 0#32
    decide
  · show (Grstctl.mk false false 0).pack = 0#32
    decide
  · show slot (Vector.replicate 6 ([] : List RegWord)) e = []
    simp [show e < 6 from he]
/-! ## The soft-disconnect bit (R242, R243, R64) -/

/-- R35: setting the soft-disconnect bit writes DCTL alone. -/
theorem Dev.sdis_runs (d : Dev .hardware) (b : Bool) :
    Runs [.rmw .dctl [(F.sdis, flagNat b)]] d { d with dctl := putFields [(F.sdis, flagNat b)] d.dctl } :=
  .one (by simp only [perform]; rw [Dev.regRMW_eq _ _ rfl]; rfl) (.done _)

/-- R64: what setting the soft-disconnect bit to `b` leaves of DCTL, and the pull-up. -/
theorem Dev.sdis_result (d : Dev .hardware) (b : Bool) :
    let w := putFields [(F.sdis, flagNat b)] d.dctl
    ({ d with dctl := w } : Dev .hardware).pullup = !b ∧ w.getLsbD 1 = b ∧
      ∀ i, i ≠ 1 → w.getLsbD i = d.dctl.getLsbD i := by
  have h1 := (dctl_rmw d.dctl b 1).trans (if_pos rfl)
  exact ⟨congrArg (!·) h1, h1, fun i hi => (dctl_rmw d.dctl b i).trans (if_neg hi)⟩

/-- Settles O55. -/
theorem connectAndDisconnectResult : Obligations.ConnectAndDisconnectResult := by
  rintro s ⟨ha, hi⟩
  exact ⟨⟨_, issue_of_runs .connect ha hi (s.dev.sdis_runs false), s.dev.sdis_result false⟩,
    ⟨_, issue_of_runs .disconnect ha hi (s.dev.sdis_runs true), s.dev.sdis_result true⟩⟩

end Sys2Proof.Machine
end

section
/-! PROOFS. Deactivation (spec/41_endpoint_manager.md R162, R163), alone and as POLL's answer to a bus reset
(spec/43_interrupt_dispatcher.md R213). -/

namespace Sys2Proof.Machine

/-- R54: no cause of endpoint `n` is left in the aggregate register once its flags are torn down. -/
theorem Dev.deactivated_pending (d : Dev .hardware) (n : Nat) (hn : n < N) :
    (d.deactivated n).inPending n = false ∧ (d.deactivated n).outPending n = false := by
  have hclear : ∀ x c m : Word, (x &&& ~~~c &&& c &&& m != 0#32) = false := by
    intro x c m
    rw [BitVec.and_assoc x, BitVec.and_comm (~~~c), BitVec.and_not_self]
    simp
  have hi : slot (d.deactivated n).diepint n = slot d.diepint n &&& ~~~d.cfg.inIntAll :=
    (slot_setSlot ..).trans (if_pos ⟨rfl, hn⟩)
  have ho : slot (d.deactivated n).doepint n = slot d.doepint n &&& ~~~d.cfg.outIntAll :=
    (slot_setSlot ..).trans (if_pos ⟨rfl, hn⟩)
  rw [Dev.inPending, Dev.outPending, hi, ho]
  exact ⟨hclear .., hclear ..⟩

/-- Settles O33. -/
theorem deactivateEpResult : Obligations.DeactivateEpResult := by
  rintro n s ⟨ha, hi⟩ hn
  have hr := s.dev.deactivate_runs n (Nat.le_of_lt hn) (fun h => Nat.not_le_of_lt hn h.1)
  obtain ⟨hin, hout⟩ := s.dev.deactivated_pending n hn
  refine ⟨s.dev.deactivated n, ?_, rfl, hin, hout, fun _ => rfl⟩
  rw [exec, execDeactivateEp, if_pos hn]
  exact issue_of_runs _ ha hi hr

/-- R163 leaves HOST's memory. -/
theorem Dev.AllDeactivated.memRead {d d' : Dev .hardware} (h : d.AllDeactivated d') (a : Word) :
    d'.memRead a = d.memRead a := by
  rw [h.fields]; rfl

/-- Settles O34. -/
theorem deactivateAllResult : Obligations.DeactivateAllResult := by
  rintro s ⟨ha, hi⟩
  obtain ⟨d', hr, hd⟩ := s.dev.deactivateAll_runs
  exact ⟨d', issue_of_runs .deactivateAll ha hi hr, hd, hd.memRead⟩

/-! ## The bus reset handler of POLL -/

/-- R210, R213: what a bus reset snapshot puts before the rest is performed next. -/
theorem poll_busReset_waits {d d' : Dev .hardware} {left : List (AccessStep .hardware)}
    (hc : classify (d.regRead .gintsts) = .usbrst)
    (h : RunsToWait (deactivateAllSteps d.cfg (some .resetReceived) ++ pollTail F.usbrst) d d' left) :
    RunsToWait pollSteps d d' left :=
  .step (d.snapshotStep_eq .usbrst hc nofun) (by rw [List.append_nil]; exact h)

/-- R213, where no access to the pad slot faults: all slots are deactivated and RESET_RECEIVED is emitted. -/
theorem Dev.busReset_waits (d : Dev .hardware) (hp : d.cfg.padFaults = false) (rest : List (AccessStep .hardware)) :
    RunsToWait (deactivateAllSteps d.cfg (some .resetReceived) ++ rest) d
      ((d.deactivatedTo (d.cfg.deactAllLast + 1)).emit .resetReceived) rest := by
  have hL : (d.cfg.deactAllLast : Nat) ≤ N := Nat.le_of_lt_succ d.cfg.deactAllLast.isLt
  rw [deactivateAllSteps, List.append_assoc]
  refine .prepend (d.deactivatedTo_runs d.cfg.deactAllLast hL) (Dev.deactivate_waits _ _ _ rest hL ?_)
  rw [d.deactivatedTo_cfg]
  rintro ⟨hN, hpol⟩
  exact Bool.false_ne_true (hp.symm.trans (padFaults_iff.mpr ⟨Nat.le_antisymm hL hN, hpol⟩))

/-- R213, R296, where the pad slot's first access faults: the handler ends there, and what follows it goes on. -/
theorem Dev.busReset_padFault (d : Dev .hardware) (hp : d.cfg.padFaults = true) :
    Runs (deactivateAllSteps d.cfg (some .resetReceived)) d (((d.deactivatedTo N).masked N).raise .padAccess) := by
  obtain ⟨hlast, hpol⟩ := padFaults_iff.mp hp
  rw [deactivateAllSteps, hlast]
  exact (d.deactivatedTo_runs N (Nat.le_refl N)).append
    (Dev.deactivate_pad _ _ (by rw [d.deactivatedTo_cfg, hpol]))

/-- R210, R221: the end of POLL, the clear of the handled flag and the polled event. -/
theorem Dev.pollTail_waits (d : Dev .hardware) (f : Field) :
    RunsToWait (pollTail f) d ((d.intClear .gintsts f.mask).emit .polled) [] :=
  .step (more := []) rfl (.wait rfl)

/-- R163 touches neither the event log nor the stored flags of GINTSTS. -/
theorem Dev.AllDeactivated.evlog_gintsts {d d' : Dev .hardware} (h : d.AllDeactivated d') :
    d'.evlog = d.evlog ∧ d'.gintsts = d.gintsts := by
  rw [h.fields]; exact ⟨rfl, rfl⟩

/-- Settles O46. -/
theorem pollHandlesBusReset : Obligations.PollHandlesBusReset := by
  intro s hs hi hc
  have hpoll : exec .poll s = issue .poll pollSteps s := by simp only [exec, execPoll, hs]
  rw [hpoll]
  cases hp : s.dev.cfg.padFaults with
  | false =>
    have hd := s.dev.allDeactivated_harmless hp
    refine ⟨_, hd, fun _ => ?_, nofun⟩
    rw [issue_of_wait .poll hs hi (poll_busReset_waits hc (s.dev.busReset_waits hp _)), ← hd.evlog_gintsts.1]
    rfl
  | true =>
    have hd := s.dev.allDeactivated_fault hp (padFaults_iff.mp hp).1
    refine ⟨_, hd, nofun, fun _ => ?_⟩
    rw [issue_of_wait .poll hs hi
      (poll_busReset_waits hc (.prepend (s.dev.busReset_padFault hp) (Dev.pollTail_waits _ _))),
      ← hd.evlog_gintsts.1, ← hd.evlog_gintsts.2]
    rfl

end Sys2Proof.Machine
end

section
/-! PROOFS. The layout law under interleaving (spec/40_fifo_allocator.md R142, R143): `drive_laying` follows the points of
a re-layout through the turns of a command, and `drive_ends` says that the command ends; where it has ended, such a point
is one at which the law holds. -/

namespace Sys2Proof.Machine

/-! ## The script -/

/-- A script of `agentsGoOn` neither stops a step nor resets, and every move in it is one of R12's agents. -/
theorem State.At.agentsGoOn_iff (s : State) :
    s.agentsGoOn = true ↔ ∀ x ∈ s.inputs, x.goesOn = true ∧ x.fromAgents = true := by
  simp [State.At.agentsGoOn]

/-! ## Points at which a command has ended -/

theorem Seq.layoutDone_waitAck (cmd : Instr) (todo : List (AccessStep .hardware)) :
    (Seq.waitAck cmd todo).layoutDone = true ↔ ∀ x ∈ todo, x.sparesRegions = true := List.all_eq_true

/-- R143: where CORE accepts a command, no re-layout is in progress. -/
theorem Seq.Laying.law {b : Bool} {d : Dev .hardware} {q : Seq .hardware} (h : q.Laying b d)
    (ha : q.accepting = true) : d.LayoutLaw := by
  cases q with
  | idle => exact h
  | waitAck _ _ => exact h.1
  | run _ _ => simp at ha
  | nested _ _ _ _ => simp at ha

/-- Such a point, a waiting POLL having no region register left to write, meets the invariant of the layout. -/
theorem Seq.Laying.layoutInv {s : State} (h : s.seq.Laying true s.dev) (ha : s.seq.accepting = true) : s.LayoutInv := by
  refine ⟨h.law ha, ?_⟩
  cases hs : s.seq with
  | idle => rfl
  | waitAck cmd todo =>
    rw [hs] at h
    exact (Seq.layoutDone_waitAck cmd todo).mpr (h.2 rfl)
  | run _ _ => simp [hs] at ha
  | nested _ _ _ _ => simp [hs] at ha

/-- The invariant of the layout makes every position of the sequencer such a point. -/
theorem State.At.LayoutInv.laying {s : State} (h : s.LayoutInv) : s.seq.Laying true s.dev := by
  obtain ⟨hlaw, hdone⟩ := h
  cases hs : s.seq with
  | idle => exact hlaw
  | run cmd todo =>
    rw [hs] at hdone
    exact .settled _ hlaw (List.all_eq_true.mp hdone)
  | waitAck cmd todo =>
    rw [hs] at hdone
    exact ⟨hlaw, fun _ => List.all_eq_true.mp hdone⟩
  | nested outer outerTodo cmd todo =>
    rw [hs, Seq.layoutDone, Bool.and_eq_true] at hdone
    exact ⟨.settled _ hlaw (List.all_eq_true.mp hdone.2), fun _ => List.all_eq_true.mp hdone.1⟩

/-! ## Commands -/

/-- A command in progress ends at such a point. -/
theorem proceed_laying (b : Bool) (s : State) (hok : s.agentsGoOn = true) (h : s.seq.Laying b s.dev) :
    s.proceed.seq.accepting = true ∧ s.proceed.seq.Laying b s.proceed.dev := by
  rw [State.At.agentsGoOn_iff] at hok
  exact ⟨proceed_ends s fun x hx => (hok x hx).1, drive_laying b _ s (fun x hx => (hok x hx).2) h⟩

/-- So does a command that is accepted; with `b`, a POLL waiting meanwhile has no region register left to write. -/
theorem issue_laying (b : Bool) (cmd : Instr) {todo : List (AccessStep .hardware)} {s : State}
    (ha : s.seq.accepting = true) (hok : s.agentsGoOn = true) (hdone : b = true → s.seq.layoutDone = true)
    (h : s.dev.Laying todo) :
    ∃ t, issue cmd todo s = .next t ∧ t.seq.accepting = true ∧ t.seq.Laying b t.dev := by
  cases hs : s.seq with
  | idle =>
    exact ⟨_, by simp only [issue, hs], proceed_laying b { s with seq := .running cmd todo } hok (.running h)⟩
  | waitAck outer outerTodo =>
    rw [hs, Seq.layoutDone_waitAck] at hdone
    exact ⟨_, by simp only [issue, hs],
      proceed_laying b { s with seq := .nesting outer outerTodo cmd todo } hok (.nesting h hdone)⟩
  | run _ _ => simp [hs] at ha
  | nested _ _ _ _ => simp [hs] at ha

/-- A fault leaves the regions (R281). -/
theorem Dev.raise_layoutLaw {d : Dev .hardware} (c : FaultCause) (h : d.LayoutLaw) : (d.raise c).LayoutLaw :=
  Dev.SameRegions.law ⟨rfl, rfl⟩ h

/-- R140, R141, R160, R161: no `pre:` line of a command with accepted operands fails. -/
theorem exec_of_laysOut {i : Instr} (s : State) (h : laysOut i = true) :
    exec i s = issue i (commandSteps s.dev.cfg i) s := by
  cases i with
  | setRxFifoSize size => rfl
  | setTxFifoSize ep size => exact if_pos (of_decide_eq_true h)
  | activateControlEp mps =>
    have hm : mpsLegal mps = true := (mpsLegal_iff mps).mpr (by simpa [laysOut] using h)
    exact if_pos hm
  | activateInEp ep t mps =>
    simp only [laysOut, Bool.and_eq_true, decide_eq_true_eq] at h
    obtain ⟨⟨⟨hlo, hhi⟩, hm⟩, hm'⟩ := h
    exact (if_pos ⟨hlo, hhi⟩).trans (if_pos ((mpsLegal_iff mps).mpr ⟨hm, hm'⟩))
  | _ => cases h

/-- R143: every command keeps the layout law to its end, and keeps the invariant of the layout. -/
theorem exec_keepsLayout {i : Instr} {s t : State} (ha : s.seq.accepting = true) (hok : s.agentsGoOn = true)
    (hl : s.dev.LayoutLaw) (ht : exec i s = .next t) :
    t.dev.LayoutLaw ∧ (s.seq.layoutDone = true → t.LayoutInv) := by
  rcases exec_cases i s with ⟨c, hc⟩ | hc
  · rw [hc, takeFault_accepting c s ha] at ht
    injection ht with ht
    subst ht
    have hl' := Dev.raise_layoutLaw c hl
    exact ⟨hl', fun hd => ⟨hl', hd⟩⟩
  · obtain ⟨t', ht', ha', h⟩ :=
      issue_laying s.seq.layoutDone i ha hok id (commandSteps_laying s.dev s.dev.cfg i (.inl hl))
    cases ht.symm.trans (hc.trans ht')
    exact ⟨h.law ha', fun hd => (hd ▸ h).layoutInv ha'⟩

/-! ## Steps -/

/-- A move of LINK, the flush controller or HOST while CORE accepts a command keeps the invariant of the layout; an
acknowledgement lets POLL go on, with no region register left to write. -/
theorem applyInput_layoutInv (i : Input .hardware) (s : State) (hi : i.fromAgents = true)
    (h : s.LayoutInv) : (applyInput i s).LayoutInv := by
  refine ⟨(applyInput_sameRegions i s hi).law h.law, ?_⟩
  by_cases hack : i = .host .ack
  · subst hack
    obtain ⟨-, hdone⟩ := h
    simp only [applyInput, State.At.ackEvent]
    split
    · exact hdone
    · exact hdone
    · next cmd todo hs =>
      rw [hs] at hdone
      cases todo with
      | nil => rfl
      | cons _ _ => exact hdone
    · exact hdone
  · have hr : i ≠ .reset := by rintro rfl; cases hi
    rw [applyInput_seq i s hr hack]
    exact h.done

/-- R143: every step keeps the invariant of the layout. -/
theorem step_keepsLayoutInv {s t : State} (hok : s.agentsGoOn = true) (h : s.LayoutInv) (ht : step s = .next t) :
    t.LayoutInv := by
  unfold step stepWith at ht
  split at ht
  · next ha =>
    unfold acceptStep at ht
    split at ht
    · next i rest _ => exact (exec_keepsLayout (s := { s with port := rest }) ha hok h.law ht).2 h.done
    · next why rest _ =>
      rw [takeFault_accepting .reservedCmd { s with port := rest } ha] at ht
      injection ht with ht
      subst ht
      exact ⟨Dev.raise_layoutLaw _ h.law, h.done⟩
    · split at ht <;> injection ht with ht <;> subst ht
      · exact h
      · next i rest hi =>
        have hfrom := ((State.At.agentsGoOn_iff s).mp hok i (by rw [hi]; exact .head _)).2
        exact applyInput_layoutInv i { s with inputs := rest } hfrom ⟨h.law, h.done⟩
  · injection ht with ht
    subst ht
    obtain ⟨ha, hl⟩ := proceed_laying true s hok h.laying
    exact hl.layoutInv ha

/-! ## The sums themselves -/

/-- R143: where the depths together stay below 2^16, the sum of those before a region does not wrap. -/
theorem Dev.regionStart_toNat (d : Dev .hardware) (e : Nat) (he : e < N) (h : d.depthSum < 65536) :
    (d.regionStart e).toNat = d.rxfd.toNat + ((List.range e).map fun k => (d.txDepth k).toNat).sum := by
  have hle : ((List.range e).map fun k => (d.txDepth k).toNat).sum ≤
      ((List.range N).map fun k => (d.txDepth k).toNat).sum :=
    ((List.range_sublist.mpr (Nat.le_of_lt he)).map _).sum_le_sum fun _ _ => Nat.zero_le _
  rw [Dev.depthSum_eq] at h
  rw [Dev.regionStart, BitVec.toNat_ofNat]
  exact Nat.mod_eq_of_lt (Nat.lt_of_le_of_lt (Nat.add_le_add_left hle _) h)

/-- Settles O30: a command starts at a point of a re-layout where the law holds or the command lays the buffer out, and
ends at one. -/
theorem layoutHoldsUnderInterleaving : Obligations.LayoutHoldsUnderInterleaving := by
  refine ⟨fun i s hlay ha hok => ?_, fun i s t ha hok hl ht => (exec_keepsLayout ha hok hl ht).1,
    fun s t hok h ht => step_keepsLayoutInv hok h ht⟩
  obtain ⟨t, ht, hacc, h⟩ :=
    issue_laying false i ha hok nofun (commandSteps_laying s.dev s.dev.cfg i (.inr hlay))
  have hl := h.law hacc
  exact ⟨t, (exec_of_laysOut s hlay).trans ht, hl, fun hsum e he =>
    (congrArg BitVec.toNat (hl e he)).trans (t.dev.regionStart_toNat e he hsum)⟩

end Sys2Proof.Machine
end

section
/-! PROOFS. Storage (spec/20_memory.md): the two pops of RXQ (R92) and the buffer memory (R94); the packet transfers that
read and write them (spec/42_packet_transfer.md R190, R192), and POLL's pop where it faults
(spec/43_interrupt_dispatcher.md R215). -/

namespace Sys2Proof.Machine

/-! ## The buffer memory (R83, R94) -/

/-- Settles O27. -/
theorem memoryReadAfterWrite : Obligations.MemoryReadAfterWrite := fun d a b hw =>
  ⟨d.wf_memWrite a b hw, (d.memRead_memWrite a a b hw).trans (if_pos rfl),
    fun x hx => (d.memRead_memWrite a x b hw).trans (if_neg hx.symm)⟩

/-! ## Pops (R92) -/

/-- R92: a port pop that meets a status entry. -/
theorem Dev.portPop_status (d : Dev .hardware) (w : Word) (rest : List (RxWord .hardware))
    (h : d.rxq = .status w :: rest) : d.portPop = d.popDesync rest := by
  simp only [Dev.portPop, h]

/-- R92: a status pop that meets a data word. -/
theorem Dev.statusPop_data (d : Dev .hardware) (w : Word) (rest : List (RxWord .hardware))
    (h : d.rxq = .data w :: rest) : d.statusPop = d.popDesync rest := by
  simp only [Dev.statusPop, h]

/-- R92: either pop of an empty RXQ. -/
theorem Dev.pop_nil (d : Dev .hardware) (h : d.rxq = []) : d.statusPop = d.popEmpty ∧ d.portPop = d.popEmpty := by
  simp only [Dev.statusPop, Dev.portPop, h, and_self]

/-- Settles O26. -/
theorem popsFollowTheTag : Obligations.PopsFollowTheTag := by
  intro d w rest
  refine ⟨fun h => ?_, fun h => ?_, fun h => ?_⟩
  · rw [d.portPop_status w rest h]
    exact ⟨d.statusPop_status w rest h, rfl, rfl⟩
  · rw [d.statusPop_data w rest h]
    exact ⟨d.portPop_data w rest h, rfl, rfl⟩
  · obtain ⟨hs, hp⟩ := d.pop_nil h
    rw [hs, hp]
    exact ⟨rfl, rfl, rfl, rfl⟩

/-! ## READ_PACKET (R190) -/

/-- Settles O39: what the stores before the faulting pop leave in memory. -/
theorem readPacketEndsAtAFaultingPop : Obligations.ReadPacketEndsAtAFaultingPop := by
  rintro size ba ws tail s ⟨ha, hi⟩ hw hsize hlen hq ht
  have hsteps : readPacketSteps size ba = ([.popData ba size 0] : List (AccessStep .hardware)) :=
    if_neg (Nat.ne_zero_of_lt hlen)
  obtain ⟨n, hr⟩ := popData_faults ba size tail ht ws 0 s.dev (by rwa [Nat.zero_add]) hq
  have hbytes := flatMap_wordBytes_length ws
  obtain ⟨hread, hframe⟩ := Memory.read_writeFrom s.dev.mem ba (ws.flatMap wordBytes) hw 0 (by omega)
  simp only [hbytes, Nat.zero_add] at hread hframe
  have hexec := issue_of_runs (.readPacket size ba) ha hi hr
  rw [← hsteps] at hexec
  exact ⟨_, hexec, rfl, fun k hk => (hread k hk).trans (flatMap_wordBytes_get ws k hk), hframe⟩

/-! ## WRITE_PACKET (R192) -/

/-- R192: the transfer size and the control register of IN endpoint `e` programmed for a packet of `size` bytes. -/
def Dev.packetProgrammed (d : Dev .hardware) (e size : Nat) : Dev .hardware :=
  { d with
    dieptsiz := setSlot d.dieptsiz e { xfrsiz := BitVec.ofNat 19 size, pktcnt := 1#10 }
    diepctl := setSlot d.diepctl e { slot d.diepctl e with stall := false, naksts := false, epena := true } }

/-- WRITE_PACKET within the endpoint's maximum packet size, an empty packet included: the registers are programmed and as
many words as fit are queued, the source bytes in their lanes; `tx_overflow` is set where one does not fit. -/
theorem writePacket_queues (e size : Nat) (ba : Word) (d : Dev .hardware) (he : e < N)
    (hm : size ≤ (slot d.diepctl e).mpsiz.toNat) :
    let room := (d.txDepth e).toNat - (slot d.txq e).length
    ∃ (ws : List RegWord) (n : Nat),
      Runs (writePacketSteps e size ba) d { d.packetProgrammed e size with
        txq := setSlot d.txq e (slot d.txq e ++ ws), draws := n
        fault := if (size + 3) / 4 ≤ room then d.fault else d.fault ||| 0x20#32 } ∧
      ws.length = min ((size + 3) / 4) room ∧
      (d.overlap = false → ∀ k, k < size → k < 4 * ws.length →
        lane (ws[k / 4]?.getD 0#32) (k % 4) = d.memRead (ba + BitVec.ofNat 32 k)) := by
  intro room
  by_cases h0 : size = 0
  · subst h0
    refine ⟨[], d.draws, writePacket_runs e 0 ba d _ hm ?_, by simp, fun _ k hk => absurd hk (Nat.not_lt_zero k)⟩
    rw [List.append_nil, setSlot_slot, if_pos (Nat.zero_le room), if_pos rfl]
    exact .done _
  · obtain ⟨ws, n, hr, hlen, hlanes⟩ :=
      load_runs e size ba he ((size + 3) / 4) 0 (d.packetProgrammed e size) (Nat.zero_add _) (by omega)
    refine ⟨ws, n, writePacket_runs e size ba d _ hm ?_, hlen, fun ho k hk hkw => ?_⟩
    · rw [if_neg h0]
      exact hr
    · have h := hlanes ho (k / 4) (k % 4) (by omega) (Nat.mod_lt k (by decide)) (by omega)
      rwa [Nat.zero_add, Nat.div_add_mod] at h

/-- The `pre:` line of WRITE_PACKET holds for an endpoint below N. -/
theorem exec_writePacket (e size : Nat) (ba : Word) (s : State) (he : e < N) :
    exec (.writePacket e size ba) s = issue (.writePacket e size ba) (writePacketSteps e size ba) s := if_pos he

/-- Settles O40: there is room for all the words. -/
theorem writePacketQueues : Obligations.WritePacketQueues := by
  rintro e size ba s ⟨ha, hi⟩ he hm hfit
  obtain ⟨ws, n, hr, hlen, hlanes⟩ := writePacket_queues e size ba s.dev he hm
  have hle : (size + 3) / 4 ≤ (s.dev.txDepth e).toNat - (slot s.dev.txq e).length := by omega
  rw [if_pos hle] at hr
  rw [Nat.min_eq_left hle] at hlen
  exact ⟨_, ws, (exec_writePacket e size ba s he).trans (issue_of_runs _ ha hi hr), rfl, hlen,
    fun ho k hk => hlanes ho k hk (by omega), fun _ => rfl⟩

/-- Settles O42: there is room for fewer words than the packet has. -/
theorem writePacketEndsAtAFullFifo : Obligations.WritePacketEndsAtAFullFifo := by
  rintro e size ba s ⟨ha, hi⟩ he _ hm hfull
  obtain ⟨ws, n, hr, hlen, hlanes⟩ := writePacket_queues e size ba s.dev he hm
  have hgt : ¬ (size + 3) / 4 ≤ (s.dev.txDepth e).toNat - (slot s.dev.txq e).length := by omega
  rw [if_neg hgt] at hr
  rw [Nat.min_eq_right (Nat.le_of_not_le hgt)] at hlen
  exact ⟨_, ws, (exec_writePacket e size ba s he).trans (issue_of_runs _ ha hi hr), rfl, hlen,
    fun ho k hk => hlanes ho k (by omega) hk, fun _ => rfl⟩

/-! ## POLL at the receive level (R215, R296) -/

/-- R215, R296: a fault at the pop of the status entry ends the handler. -/
theorem Dev.popStatusStep_fault (d : Dev .hardware) {p : Popped .hardware} (h : d.statusPop = p) (hok : p.ok = false) :
    d.popStatusStep = (p.dev, .go []) := by
  simp only [Dev.popStatusStep, h, hok, Bool.false_eq_true, if_false]

/-- R296: POLL then clears the receive level and emits POLLED all the same. -/
theorem Dev.popStatus_fault_waits (d : Dev .hardware) {p : Popped .hardware} (h : d.statusPop = p)
    (hok : p.ok = false) :
    RunsToWait (.popStatus :: pollTail F.rxflvl) d ((p.dev.intClear .gintsts F.rxflvl.mask).emit .polled) [] :=
  .step (more := []) (d.popStatusStep_fault h hok) (p.dev.pollTail_waits F.rxflvl)

/-- Clearing bits that a word does not have leaves it. -/
theorem and_not_of_disjoint {w : Nat} (x m y : BitVec w) (h : x &&& y = 0#w) (hm : m &&& y = m) : x &&& ~~~m = x := by
  ext i hi
  have hx := congrArg (·[i]) h
  have hmi := congrArg (·[i]) hm
  simp only [BitVec.getElem_and, BitVec.getElem_zero, BitVec.getElem_not] at hx hmi ⊢
  cases hxi : x[i]
  · exact Bool.false_and _
  · rw [hxi, Bool.true_and] at hx
    rw [← hmi, hx, Bool.and_false]
    rfl

/-- R24, R91: the receive level is derived, so its clear leaves the stored flags as they are. -/
theorem Dev.Inv.clear_rxflvl {d : Dev .hardware} (h : d.Inv) : d.gintsts &&& ~~~F.rxflvl.mask = d.gintsts :=
  and_not_of_disjoint _ _ _ h.gintsts (by decide)

/-- POLL at IDLE is no nested command (R126). -/
theorem exec_poll_idle {s : State} (hs : s.seq = .idle) : exec .poll s = issue .poll pollSteps s := by
  simp only [exec, execPoll, hs]

/-- R210: POLL goes on with the handler of the cause its snapshot shows, where no `pre:` line of a handler fails. -/
theorem poll_waits {d d' : Dev .hardware} {left : List (AccessStep .hardware)} {c : Cause}
    (hc : classify (d.regRead .gintsts) = c) (hne : c ≠ .enumdne) (h : RunsToWait (causeSteps d.cfg c) d d' left) :
    RunsToWait pollSteps d d' left :=
  .step (d.snapshotStep_eq c hc fun he => absurd he hne) (by rwa [List.append_nil])

/-- Settles O49: the pop faults, and the clear changes nothing, the receive level being derived. -/
theorem pollDropsAnUnreadDataWord : Obligations.PollDropsAnUnreadDataWord := by
  intro s w rest hs hi hinv hc hq
  have hpop := s.dev.popStatus_fault_waits (s.dev.statusPop_data w rest hq) rfl
  have hclear : (s.dev.popDesync rest).dev.gintsts &&& ~~~F.rxflvl.mask = s.dev.gintsts := hinv.clear_rxflvl
  rw [Dev.intClear, Dev.regWrite, hclear] at hpop
  exact ⟨s.dev.draws + 1,
    (exec_poll_idle hs).trans (issue_of_wait .poll hs hi (poll_waits hc nofun hpop))⟩

/-- Settles O60: the pop faults, in a POLL that is past its snapshot. -/
theorem pollFindsRxqEmptied : Obligations.PollFindsRxqEmptied := by
  intro s hs hi hq
  have hstep : step s = .next s.proceed := if_neg (by simp [hs])
  exact ⟨s.dev.draws + 1, hstep.trans (congrArg Host.Outcome.next
    (proceed_of_wait hs hi (s.dev.popStatus_fault_waits (s.dev.pop_nil hq).1 rfl)))⟩

end Sys2Proof.Machine
end

section
/-! PROOFS. The command words (spec/30_encoding.md R111 to R117, R131): which words decode to a command, that these are
the words of that command alone, and how many words the decoder takes. -/

namespace Sys2Proof

/-! ## The opcode map (R115) -/

/-- Looking a row up by its opcode finds it: no two rows have the same one. -/
theorem rowOf_opcode {r : OpcodeRow} (hr : r ∈ opcodeMap) : rowOf r.opcode = some r := by
  fin_cases hr <;> rfl

theorem rowOf_eq_some_iff {op : Nat} {r : OpcodeRow} : rowOf op = some r ↔ r ∈ opcodeMap ∧ r.opcode = op := by
  constructor
  · intro h
    exact ⟨List.mem_of_find?_eq_some h, by simpa using List.find?_some h⟩
  · rintro ⟨hr, rfl⟩
    exact rowOf_opcode hr

theorem rowOf_eq_none_iff (op : Nat) : rowOf op = none ↔ op ∉ opcodeMap.map OpcodeRow.opcode := by
  simp [rowOf, List.find?_eq_none]

/-- R114: the rows of the two-word opcodes. -/
theorem twoWords_iff : ∀ r ∈ opcodeMap, r.twoWords = true ↔ r.opcode = 0x20 ∨ r.opcode = 0x21 := by decide

/-! ## The decoder, an equation per case (R131) -/

theorem decode_unknown {cw : Word} (rest : List Word) (h : rowOf (opcodeOf cw) = none) :
    decode (cw :: rest) = .reserved .unknownOpcode rest := by
  simp only [decode, h]

theorem decode_oneWord {cw : Word} {r : OpcodeRow} (rest : List Word) (h : rowOf (opcodeOf cw) = some r)
    (ht : r.twoWords = false) : decode (cw :: rest) = decodeRow r cw 0#32 rest := by
  simp only [decode, h, ht, Bool.false_eq_true, if_false]

theorem decode_twoWords {cw : Word} {r : OpcodeRow} (ba : Word) (rest : List Word) (h : rowOf (opcodeOf cw) = some r)
    (ht : r.twoWords = true) : decode (cw :: ba :: rest) = decodeRow r cw ba rest := by
  simp only [decode, h, ht, if_true]

theorem decode_firstWordAlone {cw : Word} {r : OpcodeRow} (h : rowOf (opcodeOf cw) = some r) (ht : r.twoWords = true) :
    decode [cw] = .incomplete := by
  simp only [decode, h, ht, if_true]

theorem decodeRow_eq_command_iff {r : OpcodeRow} {cw ba : Word} {rest rest' : List Word} {i : Instr} :
    decodeRow r cw ba rest = .command i rest' ↔
      cw &&& r.mask = r.pattern ∧ r.build (epOf cw) (epTypeOf cw) (immOf cw) ba = i ∧ rest = rest' := by
  unfold decodeRow
  split <;> simp [*]

theorem decodeRow_ne_incomplete (r : OpcodeRow) (cw ba : Word) (rest : List Word) :
    decodeRow r cw ba rest ≠ .incomplete := by
  unfold decodeRow
  split <;> nofun

theorem decodeRow_reserved {r : OpcodeRow} {cw : Word} (h : cw &&& r.mask ≠ r.pattern) (ba : Word)
    (rest : List Word) : decodeRow r cw ba rest = .reserved .mustBeZero rest := if_neg h

theorem decodeRow_total (r : OpcodeRow) (cw ba : Word) (rest : List Word) :
    (∃ i rest', decodeRow r cw ba rest = .command i rest') ∨
      ∃ why rest', decodeRow r cw ba rest = .reserved why rest' := by
  unfold decodeRow
  split
  · exact .inl ⟨_, _, rfl⟩
  · exact .inr ⟨_, _, rfl⟩

/-- R131: the words `cw :: more`, with what follows them on the port, select row `r` and satisfy its mask and match. -/
structure Selects (r : OpcodeRow) (cw : Word) (more : List Word) : Prop where
  row : rowOf (opcodeOf cw) = some r
  fits : cw &&& r.mask = r.pattern
  length : more.length = if r.twoWords then 1 else 0

/-- R131: the words that decode to a command are those that select a row of the map, and the row builds the command. -/
theorem decode_eq_command_iff {ws rest : List Word} {i : Instr} :
    decode ws = .command i rest ↔
      ∃ r cw more, Selects r cw more ∧ ws = cw :: more ++ rest ∧
        r.build (epOf cw) (epTypeOf cw) (immOf cw) (more.headD 0#32) = i := by
  constructor
  · intro h
    match ws with
    | [] => cases h
    | cw :: tail =>
      cases hr : rowOf (opcodeOf cw) with
      | none => rw [decode_unknown tail hr] at h; cases h
      | some r =>
        cases ht : r.twoWords with
        | false =>
          rw [decode_oneWord tail hr ht] at h
          obtain ⟨hm, hi, rfl⟩ := decodeRow_eq_command_iff.mp h
          exact ⟨r, cw, [], ⟨hr, hm, by simp [ht]⟩, rfl, hi⟩
        | true =>
          match tail with
          | [] => rw [decode_firstWordAlone hr ht] at h; cases h
          | ba :: tail =>
            rw [decode_twoWords ba tail hr ht] at h
            obtain ⟨hm, hi, rfl⟩ := decodeRow_eq_command_iff.mp h
            exact ⟨r, cw, [ba], ⟨hr, hm, by simp [ht]⟩, rfl, hi⟩
  · rintro ⟨r, cw, more, ⟨hr, hm, hl⟩, rfl, hi⟩
    cases ht : r.twoWords with
    | false =>
      obtain rfl : more = [] := List.eq_nil_of_length_eq_zero (by simpa [ht] using hl)
      exact (decode_oneWord rest hr ht).trans (decodeRow_eq_command_iff.mpr ⟨hm, hi, rfl⟩)
    | true =>
      obtain ⟨ba, rfl⟩ := List.length_eq_one_iff.mp (hl.trans (by simp [ht]))
      exact (decode_twoWords ba rest hr ht).trans (decodeRow_eq_command_iff.mpr ⟨hm, hi, rfl⟩)

/-! ## The fields of a command (R111, R112) -/

/-- The fields of the first word of a command, and the words after it. -/
structure CommandFields where
  opcode : Nat
  ep     : Nat
  code   : BitVec 2
  imm    : Nat
  more   : List Word

/-- R111 to R113: the fields a command is written with. -/
def Instr.fields : Instr → CommandFields
  | .setRxFifoSize size => ⟨0x01, 0, 0, size, []⟩
  | .setTxFifoSize ep size => ⟨0x02, ep, 0, size, []⟩
  | .activateControlEp mps => ⟨0x10, 0, 0, mps, []⟩
  | .activateInEp ep t mps => ⟨0x11, ep, codeOfEpType t, mps, []⟩
  | .deactivateEp ep => ⟨0x12, ep, 0, 0, []⟩
  | .deactivateAll => ⟨0x13, 0, 0, 0, []⟩
  | .flushRx => ⟨0x14, 0, 0, 0, []⟩
  | .flushTx ep => ⟨0x15, ep, 0, 0, []⟩
  | .readPacket size ba => ⟨0x20, 0, 0, size, [ba]⟩
  | .writePacket ep size ba => ⟨0x21, ep, 0, size, [ba]⟩
  | .poll => ⟨0x30, 0, 0, 0, []⟩
  | .initCore => ⟨0x40, 0, 0, 0, []⟩
  | .setAddress addr => ⟨0x41, 0, 0, addr, []⟩
  | .connect => ⟨0x42, 0, 0, 0, []⟩
  | .disconnect => ⟨0x43, 0, 0, 0, []⟩

/-- R111: the encoder puts the first word together from those fields. -/
theorem encode_eq (i : Instr) :
    encode i = commandWord i.fields.opcode i.fields.ep i.fields.code i.fields.imm :: i.fields.more := by
  cases i <;> rfl

/-- R112: a command is well formed iff its operands fit; the device address has seven bits. -/
theorem Instr.wf_iff (i : Instr) :
    i.wf = true ↔ i.fields.ep < 16 ∧ i.fields.imm < 65536 ∧ (i.fields.opcode = 0x41 → i.fields.imm < 128) := by
  cases i with
  | setAddress addr =>
    simp only [Instr.wf, Instr.fields, decide_eq_true_eq, forall_const]
    omega
  | _ => simp [Instr.wf, Instr.fields]

/-- R115: the row of a command's opcode builds the command from its fields. -/
theorem Instr.row_builds (i : Instr) : ∃ r, rowOf i.fields.opcode = some r ∧
    r.build i.fields.ep (epTypeOfCode i.fields.code) i.fields.imm (i.fields.more.headD 0#32) = i := by
  cases i with
  | activateInEp ep t mps => exact ⟨_, rfl, congrArg (Instr.activateInEp ep · mps) (Machine.epTypeOfCode_codeOf t)⟩
  | _ => exact ⟨_, rfl, rfl⟩

/-- R111 to R116: the words of a well-formed command select its row. -/
theorem encodeMatches (i : Instr) : Laws.EncodeMatches.Statement i :=
  match i with
  | .setRxFifoSize size => Laws.EncodeMatches.setRxFifoSize size
  | .setTxFifoSize ep size => Laws.EncodeMatches.setTxFifoSize ep size
  | .activateControlEp mps => Laws.EncodeMatches.activateControlEp mps
  | .activateInEp ep t mps => Laws.EncodeMatches.activateInEp ep t mps
  | .deactivateEp ep => Laws.EncodeMatches.deactivateEp ep
  | .deactivateAll => Laws.EncodeMatches.deactivateAll
  | .flushRx => Laws.EncodeMatches.flushRx
  | .flushTx ep => Laws.EncodeMatches.flushTx ep
  | .readPacket size ba => Laws.EncodeMatches.readPacket size ba
  | .writePacket ep size ba => Laws.EncodeMatches.writePacket ep size ba
  | .poll => Laws.EncodeMatches.poll
  | .initCore => Laws.EncodeMatches.initCore
  | .setAddress addr => Laws.EncodeMatches.setAddress addr
  | .connect => Laws.EncodeMatches.connect
  | .disconnect => Laws.EncodeMatches.disconnect

theorem Instr.opcode_lt (i : Instr) : i.fields.opcode < 256 := by
  cases i <;> simp [Instr.fields]

/-- Settles O1: the words of the command select the row of its opcode, and reading the fields back gives those it was
written with. -/
theorem decodeInvertsEncode : Obligations.DecodeInvertsEncode := by
  intro i rest hw
  obtain ⟨r, hr, cw, more, he, hop, hm, hl⟩ := encodeMatches i hw
  obtain ⟨hep, himm, -⟩ := i.wf_iff.mp hw
  obtain ⟨hfop, hfep, hft, hfimm⟩ := commandWord_fields _ _ i.fields.code _ i.opcode_lt hep himm
  obtain ⟨rfl, rfl⟩ := List.cons.inj ((encode_eq i).symm.trans he)
  obtain ⟨r', hr', hb⟩ := i.row_builds
  rw [← hop, hfop] at hr
  obtain rfl : r = r' := Option.some.inj (hr.symm.trans hr')
  refine decode_eq_command_iff.mpr ⟨r, _, _, ⟨by rw [hfop, hr], hm, hl⟩, by rw [he], ?_⟩
  rw [hfep, hft, hfimm, hb]

/-! ## From a word to the fields of its command (R116) -/

/-- R115: the fields of the command a row builds: those under a full mask are written 0. -/
theorem OpcodeRow.build_fields {r : OpcodeRow} (hr : r ∈ opcodeMap) (ep : Nat) (t : EpType) (imm : Nat) (ba : Word) :
    (r.build ep t imm ba).fields =
      { opcode := r.opcode
        ep := if r.mask.extractLsb' 20 4 = 0xF#4 then 0 else ep
        code := if r.mask.extractLsb' 18 2 = 3#2 then 0#2 else codeOfEpType t
        imm := if r.mask.extractLsb' 0 16 = 0xFFFF#16 then 0 else imm
        more := if r.twoWords then [ba] else [] } := by
  fin_cases hr <;> rfl

/-- R115, R116: every row fixes `cw[17:16]`, and its pattern is its opcode alone; SET_ADDRESS leaves seven
bits of the immediate. -/
theorem opcodeMap_masks : ∀ r ∈ opcodeMap, r.mask.extractLsb' 16 2 = 3#2 ∧
    r.pattern = BitVec.ofNat 8 r.opcode ++ 0#4 ++ 0#2 ++ 0#2 ++ 0#16 ∧
    (r.opcode = 0x41 → r.mask.extractLsb' 0 16 = 0xFF80#16) := by decide

/-- A field with no bit inside its must-be-zero mask is 0 where that mask is full. -/
theorem ite_full_mask {n : Nat} {α : Type} (f : BitVec n → α) (x m : BitVec n) (h : x &&& m = 0#n) :
    (if m = BitVec.allOnes n then f 0#n else f x) = f x := by
  split
  · next hm => rw [← h, hm, BitVec.and_allOnes]
  · rfl

/-- R111: a word whose two fixed bits are 0 is put together from its own fields. -/
theorem commandWord_of_fields (cw : Word) (h : cw.extractLsb' 16 2 = 0#2) :
    commandWord (opcodeOf cw) (epOf cw) (codeOfEpType (epTypeOf cw)) (immOf cw) = cw := by
  conv_rhs => rw [word_eq_fields cw]
  simp only [commandWord, opcodeOf, epOf, immOf, epTypeOf, Machine.codeOf_epTypeOfCode, BitVec.ofNat_toNat,
    BitVec.setWidth_eq, h]

/-- A row says how many words follow the first one, so the second word tells them all. -/
theorem Selects.more_eq {r : OpcodeRow} {cw : Word} {more : List Word} (h : Selects r cw more) :
    (if r.twoWords then [more.headD 0#32] else []) = more := by
  have hl := h.length
  split at hl
  · next ht =>
    obtain ⟨ba, rfl⟩ := List.length_eq_one_iff.mp hl
    rw [if_pos ht]; rfl
  · next ht => rw [if_neg ht, List.eq_nil_of_length_eq_zero hl]

/-- R115, R116: the mask and match of a row leave a field that is no operand 0, so the command it builds has the fields
of the word; they also fix `cw[17:16]`, and hold a device address to seven bits. -/
theorem Selects.build_fields {r : OpcodeRow} {cw : Word} {more : List Word} (h : Selects r cw more) :
    (r.build (epOf cw) (epTypeOf cw) (immOf cw) (more.headD 0#32)).fields =
        ⟨opcodeOf cw, epOf cw, codeOfEpType (epTypeOf cw), immOf cw, more⟩ ∧
      cw.extractLsb' 16 2 = 0#2 ∧ (opcodeOf cw = 0x41 → immOf cw < 128) := by
  obtain ⟨hr, hop⟩ := rowOf_eq_some_iff.mp h.row
  obtain ⟨hfix, hpat, haddr⟩ := opcodeMap_masks r hr
  have hm := h.fits
  rw [hpat, word_eq_fields r.mask, word_matches, hfix] at hm
  obtain ⟨-, hep, hcode, hz, himm⟩ := hm
  refine ⟨?_, ?_, fun hset => ?_⟩
  · rw [OpcodeRow.build_fields hr, h.more_eq, hop, epTypeOf, Machine.codeOf_epTypeOfCode]
    congr 1
    · exact ite_full_mask BitVec.toNat _ _ hep
    · exact ite_full_mask id _ _ hcode
    · exact ite_full_mask BitVec.toNat _ _ himm
  · rwa [show 3#2 = BitVec.allOnes 2 from rfl, BitVec.and_allOnes] at hz
  · rw [haddr (hop.trans hset)] at himm
    exact (addr_mask _).mp himm

/-- R116: such words are the words of the command the row builds from them, and it is well formed. -/
theorem Selects.build_encodes {r : OpcodeRow} {cw : Word} {more : List Word} (h : Selects r cw more) :
    let i := r.build (epOf cw) (epTypeOf cw) (immOf cw) (more.headD 0#32)
    i.wf = true ∧ encode i = cw :: more := by
  obtain ⟨hf, hz, haddr⟩ := h.build_fields
  refine ⟨(Instr.wf_iff _).mpr ?_, (encode_eq _).trans ?_⟩ <;> rw [hf]
  · exact ⟨BitVec.isLt _, BitVec.isLt _, haddr⟩
  · rw [commandWord_of_fields cw hz]

/-- Settles O2: the words select a row, and the command the row builds is written with them. -/
theorem encodeInvertsDecode : Obligations.EncodeInvertsDecode := by
  intro ws i rest h
  obtain ⟨r, cw, more, hs, rfl, rfl⟩ := decode_eq_command_iff.mp h
  obtain ⟨hwf, henc⟩ := hs.build_encodes
  exact ⟨hwf, by rw [henc]⟩

/-! ## How many words the decoder takes (R114) -/

theorem wordsLeft_decodeRow (r : OpcodeRow) (ws rest : List Word) (cw ba : Word) :
    Machine.wordsLeft ws (decodeRow r cw ba rest) = rest := by
  unfold decodeRow
  split <;> rfl

/-- R114, R117: a word takes a second one iff its opcode has a row of two words. -/
theorem two_words_of_row {op : Nat} {r : OpcodeRow} (h : rowOf op = some r) :
    r.twoWords = true ↔ op = 0x20 ∨ op = 0x21 := by
  obtain ⟨hr, rfl⟩ := rowOf_eq_some_iff.mp h
  exact twoWords_iff r hr

theorem one_word_of_no_row {op : Nat} (h : rowOf op = none) : ¬ (op = 0x20 ∨ op = 0x21) := by
  rintro (rfl | rfl) <;> cases h

/-- Settles O3. -/
theorem commandLengthFromOpcode : Obligations.CommandLengthFromOpcode := by
  intro cw ba rest
  cases hr : rowOf (opcodeOf cw) with
  | none =>
    have hop := one_word_of_no_row hr
    rw [if_neg hop, decode_unknown _ hr, decode_unknown _ hr]
    exact ⟨rfl, ⟨nofun, fun h => absurd h hop⟩⟩
  | some r =>
    have hop := two_words_of_row hr
    cases ht : r.twoWords with
    | false =>
      have hone := mt hop.mpr (by simp [ht])
      rw [decode_oneWord _ hr ht, decode_oneWord _ hr ht, wordsLeft_decodeRow, if_neg hone]
      exact ⟨rfl, ⟨fun h => absurd h (decodeRow_ne_incomplete r cw _ _), fun h => absurd h hone⟩⟩
    | true =>
      rw [decode_twoWords _ _ hr ht, decode_firstWordAlone hr ht, wordsLeft_decodeRow, if_pos (hop.mp ht)]
      exact ⟨rfl, ⟨fun _ => hop.mp ht, fun _ => rfl⟩⟩

/-- R117: two words are enough for every command. -/
theorem decode_two_total (cw ba : Word) :
    (∃ i rest, decode [cw, ba] = .command i rest) ∨ ∃ why rest, decode [cw, ba] = .reserved why rest := by
  cases hr : rowOf (opcodeOf cw) with
  | none => exact .inr ⟨_, _, decode_unknown [ba] hr⟩
  | some r =>
    cases ht : r.twoWords with
    | false => rw [decode_oneWord [ba] hr ht]; exact decodeRow_total ..
    | true => rw [decode_twoWords ba [] hr ht]; exact decodeRow_total ..

/-- Settles O6. -/
theorem exampleWordsDecode : Obligations.ExampleWordsDecode := by
  refine ⟨?_, ?_, ?_, ?_, ?_, ?_, ?_⟩ <;> decide

end Sys2Proof
end

section
/-! PROOFS. The command port (spec/30_encoding.md R110, R116, R117, R126): what a step does with the words on it, when a
command is turned away or turned down, and the acknowledgement of an event. -/

namespace Sys2Proof.Machine

/-! ## A step while CORE accepts a command (R110) -/

theorem step_accepting {s : State} (ha : s.seq.accepting = true) : step s = acceptStep exec s := if_pos ha

/-- Settles O7. -/
theorem stepRunsDecodedCommand : Obligations.StepRunsDecodedCommand := by
  intro s i rest ha hd
  rw [step_accepting ha, acceptStep, hd]

/-- R116, R117: a reserved encoding is taken off the port and sets `reserved_cmd`. -/
theorem step_reserved {s : State} {why : Reserved} {rest : List Word} (ha : s.seq.accepting = true)
    (hd : decode s.port = .reserved why rest) :
    step s = .next { s with port := rest, dev := { s.dev with fault := s.dev.fault ||| 0x40#32 } } := by
  rw [step_accepting ha, acceptStep, hd]
  exact takeFault_accepting .reservedCmd { s with port := rest } ha

/-- R97, R110: with no complete command on the port the next move of the script is taken. -/
theorem step_incomplete {s : State} {i : Input .hardware} {rest : List (Input .hardware)} (ha : s.seq.accepting = true)
    (hd : decode s.port = .incomplete) (hi : s.inputs = i :: rest) :
    step s = .next (applyInput i { s with inputs := rest }) := by
  rw [step_accepting ha, acceptStep, hd, hi]

/-! ## Reserved encodings (R116, R117) -/

/-- Settles O4: the listed opcodes are those of the map. -/
theorem reservedOpcodeSetsReservedCmd : Obligations.ReservedOpcodeSetsReservedCmd := by
  refine ⟨fun s cw rest ha hp hop => step_reserved (why := .unknownOpcode) ha ?_, decode_two_total⟩
  rw [hp]
  exact decode_unknown rest ((rowOf_eq_none_iff _).mpr hop)

/-- Settles O5. -/
theorem mustBeZeroBitSetsReservedCmd : Obligations.MustBeZeroBitSetsReservedCmd := by
  intro s r cw ha hr hop hm
  have hrow : rowOf (opcodeOf cw) = some r := rowOf_eq_some_iff.mpr ⟨hr, hop.symm⟩
  refine ⟨fun rest ht hp => step_reserved (why := .mustBeZero) ha ?_,
    fun ba rest ht hp => step_reserved (why := .mustBeZero) ha ?_⟩ <;> rw [hp]
  · exact (decode_oneWord rest hrow ht).trans (decodeRow_reserved hm _ rest)
  · exact (decode_twoWords ba rest hrow ht).trans (decodeRow_reserved hm ba rest)

/-! ## Commands turned away (R110, R126) -/

theorem takeFault_busy (c : FaultCause) {s : State} (h : s.seq.accepting = false) :
    takeFault c s = .refused .portBusy := by simp [takeFault, h]

theorem issue_busy (cmd : Instr) (todo : List (AccessStep .hardware)) {s : State} (h : s.seq.accepting = false) :
    issue cmd todo s = .refused .portBusy := by
  cases hs : s.seq with
  | idle => simp [hs] at h
  | waitAck _ _ => simp [hs] at h
  | run _ _ => simp only [issue, hs]
  | nested _ _ _ _ => simp only [issue, hs]

/-- Settles O9. -/
theorem busyPortAcceptsNothing : Obligations.BusyPortAcceptsNothing := by
  intro i s h
  rcases exec_cases i s with ⟨c, hc⟩ | hc
  · exact hc.trans (takeFault_busy c h)
  · exact hc.trans (issue_busy i _ h)

/-- Settles O16. -/
theorem nestedPollIsTurnedDown : Obligations.NestedPollIsTurnedDown := by
  intro s outer todo hs
  have hpoll : exec .poll s = takeFault .reentrantPoll s := by simp only [exec, execPoll, hs]
  exact hpoll.trans (takeFault_accepting _ s (by rw [hs]; rfl))

/-! ## Events (R126) -/

/-- R126: an access step that is not POLL's alone leaves EVLOG and the pending event. -/
theorem perform_events {t : AccessStep .hardware} (ht : t.pollOnly = false) (log : List Word) (ev : Option Word)
    (d : Dev .hardware) (h : d.evlog = log ∧ d.evPending = ev) :
    (perform t d).1.evlog = log ∧ (perform t d).1.evPending = ev :=
  perform_keeps (P := fun x => x.evlog = log ∧ x.evPending = ev) t
    (fun x r w _ hx => by rwa [Dev.regWrite_evlog, Dev.regWrite_evPending]) (fun _ _ hx => hx) (fun _ _ _ _ _ hx => hx)
    (fun _ _ hx => hx) (fun _ _ _ hx => hx) (fun _ _ he _ => by subst he; cases ht) d h

/-- Settles O19: no access step of such a command emits, and no other agent's move touches EVLOG or, in mid-command, the
pending event. -/
theorem onlyPollEmits : Obligations.OnlyPollEmits := by
  intro i s t hi hr ht
  refine exec_dev (ok := fun x => x ≠ .reset) (P := fun d => d.evlog = s.dev.evlog ∧ d.evPending = s.dev.evPending)
    hereditary_emitsNothing (fun a d ha => perform_events ha _ _ d) (fun x s' hx ha h => ?_) (fun _ _ h => h)
    (commandSteps_emitsNothing s.dev.cfg i hi) (fun x hx hn => hr (hn ▸ hx)) ht ⟨rfl, rfl⟩
  obtain ⟨-, hlog, -, hpend⟩ := applyInput_keeps x s' hx
  exact ⟨hlog.trans h.1, (hpend ha).trans h.2⟩

/-- R126: where no complete command is on the port, HOST's acknowledgement lets the waiting command go on. -/
theorem step_ack {s : State} {cmd : Instr} {todo : List (AccessStep .hardware)} {rest : List (Input .hardware)}
    (hs : s.seq = .waitAck cmd todo) (hd : decode s.port = .incomplete) (hi : s.inputs = .host .ack :: rest) :
    step s = .next { s with dev := s.dev.acknowledge, seq := .running cmd todo, inputs := rest } := by
  rw [step_incomplete (by rw [hs]; rfl) hd hi, applyInput, State.At.ackEvent]
  simp only [hs]

/-- Settles O20. -/
theorem acknowledgementResumes : Obligations.AcknowledgementResumes := by
  intro s cmd todo rest hs hd hi
  refine ⟨_, step_ack hs hd hi, rfl, rfl, rfl, fun h => ?_, fun h => ?_⟩
  · rw [h]; rfl
  · obtain ⟨t, ts, rfl⟩ := List.exists_cons_of_ne_nil h
    rfl

end Sys2Proof.Machine
end

section
/-! PROOFS. The interrupt service of a bus reset (spec/60_exceptions.md R290, R291), from POLL to its second
acknowledgement. -/

namespace Sys2Proof.Machine

/-! ## A script that begins with an acknowledgement (R126) -/

/-- An access step of CORE does not look at the script. -/
theorem coreStep_with_inputs (s : State) (l : List (Input .hardware)) :
    coreStep { s with inputs := l } = { coreStep s with inputs := l } := by
  obtain ⟨d, seq, port, inputs⟩ := s
  match seq with
  | .idle => rfl
  | .waitAck _ _ => rfl
  | .run _ [] => rfl
  | .run _ (_ :: _) => rfl
  | .nested _ _ _ [] => rfl
  | .nested _ _ _ (_ :: _) => rfl

/-- The acknowledgement waits for an event, so until then a command runs as it does with nothing in the script. -/
theorem drive_ack_first (rest : List (Input .hardware)) (n : Nat) : ∀ s : State, s.inputs = [] →
    drive n { s with inputs := .host .ack :: rest } = { drive n s with inputs := .host .ack :: rest } := by
  induction n with
  | zero => intro s _; rfl
  | succ n ih =>
    intro s hi
    cases ha : s.seq.accepting with
    | true => rw [drive_accepting _ s ha]; exact drive_accepting _ { s with inputs := .host .ack :: rest } ha
    | false =>
      have hdrive : drive (n + 1) { s with inputs := .host .ack :: rest } =
          drive n (coreStep { s with inputs := .host .ack :: rest }) := by
        simp [drive, turn, ha]
      rw [hdrive, coreStep_with_inputs, drive_quiet n s ha hi]
      exact ih _ ((coreStep_inputs s).trans hi)

/-- A command whose access steps run to an event waits there, an acknowledgement being the next entry of the script. -/
theorem proceed_to_ack {cmd : Instr} {todo left : List (AccessStep .hardware)} {s : State} {d' : Dev .hardware}
    {rest : List (Input .hardware)} (hs : s.seq = .running cmd todo) (hi : s.inputs = .host .ack :: rest)
    (h : RunsToWait todo s.dev d' left) : s.proceed = { s with dev := d', seq := .waitAck cmd left } := by
  obtain ⟨d, q, p, inp⟩ := s
  subst hs hi
  have hbound : costOf todo < State.At.turnsLeft ⟨d, .running cmd todo, p, .host .ack :: rest⟩ := by
    rw [State.At.turnsLeft, Seq.todo_running]; omega
  refine (drive_ack_first rest _ ⟨d, .running cmd todo, p, []⟩ rfl).trans ?_
  rw [drive_wait cmd h _ p hbound]

/-- R110: POLL alone on the port of an idle CORE is taken off it and runs to its first event. -/
theorem step_poll_to_ack {s : State} {d' : Dev .hardware} {left : List (AccessStep .hardware)}
    {rest : List (Input .hardware)} (hs : s.seq = .idle) (hp : s.port = [0x30000000#32])
    (hi : s.inputs = .host .ack :: rest) (h : RunsToWait pollSteps s.dev d' left) :
    step s = .next { s with dev := d', seq := .waitAck .poll left, port := [] } := by
  have hd : decode s.port = .command .poll [] := by rw [hp]; exact decodeInvertsEncode .poll [] rfl
  rw [stepRunsDecodedCommand s .poll [] (by rw [hs]; rfl) hd, exec_poll_idle (s := { s with port := [] }) hs]
  simp only [issue, hs]
  exact congrArg Host.Outcome.next (proceed_to_ack rfl hi h)

/-- A command in progress runs to its next event. -/
theorem step_run_to_ack {s : State} {cmd : Instr} {t : AccessStep .hardware} {ts left : List (AccessStep .hardware)}
    {d' : Dev .hardware} {rest : List (Input .hardware)} (hs : s.seq = .run cmd (t :: ts))
    (hi : s.inputs = .host .ack :: rest) (h : RunsToWait (t :: ts) s.dev d' left) :
    step s = .next { s with dev := d', seq := .waitAck cmd left } := by
  have hstep : step s = .next s.proceed := if_neg (by simp [hs])
  exact hstep.trans (congrArg Host.Outcome.next (proceed_to_ack (todo := t :: ts) hs hi h))

/-! ## The service -/

/-- R211: the bus reset flag decides before every other. -/
theorem classify_usbrst {snap : RegWord} (h : snap.getLsbD 12 = true) : classify snap = .usbrst := if_pos h

/-- A run takes its first step and goes on from there. -/
theorem run_succ {s s' : State} (k : Nat) (h : step s = .next s') :
    Host.Core.run core (k + 1) s = Host.Core.run core k s' := by
  have hstep : core.step s = .next s' := h
  simp only [Host.Core.run, hstep]

/-- Settles O52: POLL to RESET_RECEIVED, its acknowledgement, the rest of POLL to POLLED, its acknowledgement. -/
theorem busResetServiceEmitsTwoEvents : Obligations.BusResetServiceEmitsTwoEvents := by
  rintro ⟨d, _, _, _⟩ rfl rfl rfl hpad hbit
  have hd := d.allDeactivated_harmless hpad
  obtain ⟨hlog, hflags⟩ := hd.evlog_gintsts
  have hreset := poll_busReset_waits (classify_usbrst hbit) (d.busReset_waits hpad (pollTail F.usbrst))
  refine ⟨_, hd, ?_⟩
  refine (run_succ 3 (step_poll_to_ack rfl rfl rfl hreset)).trans ?_
  refine (run_succ 2 (step_ack rfl rfl rfl)).trans ?_
  refine (run_succ 1 (step_run_to_ack rfl rfl (Dev.pollTail_waits _ F.usbrst))).trans ?_
  refine (run_succ 0 (step_ack rfl rfl rfl)).trans ?_
  rw [← hlog, ← hflags, List.append_cons _ 0x10000000#32]
  rfl

end Sys2Proof.Machine
end

section
/-! PROOFS. The results of the commands that size the FIFOs (spec/40_fifo_allocator.md R140, R141), and of
ACTIVATE_CONTROL_EP, which sizes both (spec/41_endpoint_manager.md R160), where no other agent moves. -/

namespace Sys2Proof.Machine

/-- A command that re-lays the buffer out, accepted while nothing else is planned, answers what its access steps leave. -/
theorem exec_of_laysOut_runs {i : Instr} {s : State} {d' : Dev .hardware} (hs : s.Undisturbed) (h : laysOut i = true)
    (hr : Runs (commandSteps s.dev.cfg i) s.dev d') : exec i s = .next { s with dev := d' } :=
  (exec_of_laysOut s h).trans (issue_of_runs i hs.1 hs.2 hr)

/-- R140: with the values of R7 the RX depth for a 16-bit size is not truncated. -/
theorem rxDepthFor_takesR7 {c : Config .hardware} (hc : c.TakesR7) {size : Nat} (h : size < 65536) :
    (BitVec.ofNat 16 (rxDepthFor c size)).toNat = 10 + 2 * ((size + 3) / 4) := by
  have hd : rxDepthFor c size = 10 + 2 * ((size + 3) / 4) := by rw [rxDepthFor, hc.overhead, hc.perChunk]; rfl
  rw [hd, BitVec.toNat_ofNat]
  exact Nat.mod_eq_of_lt (by omega)

/-- R141: the TX depth for a 16-bit size is not truncated. -/
theorem txDepthFor_not_truncated {size : Nat} (h : size < 65536) :
    (BitVec.ofNat 16 (txDepthFor size)).toNat = (size + 3) / 4 := by
  have hd : txDepthFor size = (size + 3) / 4 := rfl
  rw [hd, BitVec.toNat_ofNat]
  exact Nat.mod_eq_of_lt (by omega)

/-- R160 leaves HOST's memory. -/
theorem Dev.ControlActivated.memRead {d d' : Dev .hardware} {mps : Nat} (h : d.ControlActivated mps d') (a : Word) :
    d'.memRead a = d.memRead a := h.fields.memRead a

/-- Settles O28: the depth is written, then the buffer is re-laid out. -/
theorem setRxFifoSizeResult : Obligations.SetRxFifoSizeResult := by
  intro size s hs hsize
  obtain ⟨d', hr, hrx, htx, hlaw, hsame, hfifos⟩ := s.dev.setRxFifoSize_runs size
  exact ⟨d', exec_of_laysOut_runs hs rfl hr, hrx, fun hc => hrx ▸ rxDepthFor_takesR7 hc hsize, htx, hlaw, hsame, hfifos,
    hsame.memRead⟩

/-- Settles O29: the depth is written, then the buffer is re-laid out. -/
theorem setTxFifoSizeResult : Obligations.SetTxFifoSizeResult := by
  intro ep size s hs hep hsize
  obtain ⟨d', hr, hdepth, hothers, hrx, hlaw, hsame, hfifos⟩ := s.dev.setTxFifoSize_runs ep size hep
  exact ⟨d', exec_of_laysOut_runs hs (decide_eq_true hep) hr, hdepth ▸ txDepthFor_not_truncated hsize, hothers, hrx, hlaw,
    hsame, hfifos, hsame.memRead⟩

/-- Settles O31: the registers of endpoint 0 are armed, then the RX and the TX depth are set. -/
theorem activateControlResult : Obligations.ActivateControlResult := by
  intro mps s hs hlo hhi
  obtain ⟨d', hr, hd⟩ := s.dev.activateControl_runs mps
  have hlay : laysOut (.activateControlEp mps) = true := by simp [laysOut, hlo, hhi]
  exact ⟨d', exec_of_laysOut_runs hs hlay hr, hd, hd.memRead⟩

end Sys2Proof.Machine
end

section
/-! PROOFS. The results of ACTIVATE_IN_EP (spec/41_endpoint_manager.md R161) and of the flushes (R164, R165, R173 to
R175), and POLL's answer to enumeration done (spec/43_interrupt_dispatcher.md R214), where no other agent moves. -/

namespace Sys2Proof.Machine

/-! ## Activation (R161) -/

/-- Settles O32: the mask and the control register of the endpoint are written, then its TX depth is set. -/
theorem activateInResult : Obligations.ActivateInResult := by
  intro ep mps t s hs hlo hhi hm hm'
  obtain ⟨d', hr, hsame, hrx, hdepth, hothers, hlaw, hfifos⟩ := s.dev.activateIn_runs ep t mps hhi
  have hlay : laysOut (.activateInEp ep t mps) = true := by simp [laysOut, hlo, show ep < 6 from hhi, hm, hm']
  exact ⟨d', exec_of_laysOut_runs hs hlay hr, hsame, hrx, hdepth ▸ txDepthFor_not_truncated (by omega), hothers, hlaw,
    hfifos, hsame.memRead⟩

/-! ## Flushes (R164, R165, R173 to R175) -/

/-- R164: FLUSH_RX is its one access step. -/
theorem exec_flushRx {s : State} (hs : s.Undisturbed) : exec .flushRx s = .next { s with dev := s.dev.requestFlushRx } :=
  issue_of_runs .flushRx hs.1 hs.2 (.one rfl (.done _))

/-- R165: FLUSH_TX of an endpoint that its `pre:` line accepts is its one access step. -/
theorem exec_flushTx {s : State} (hs : s.Undisturbed) {n : Nat} (hn : n < N) :
    exec (.flushTx n) s = .next { s with dev := s.dev.requestFlushTx n } :=
  (if_pos hn).trans (issue_of_runs (.flushTx n) hs.1 hs.2 (.one rfl (.done _)))

/-- Settles O35: what the request leaves depends on FLUSH_SYNC (R175). -/
theorem flushRequestsResult : Obligations.FlushRequestsResult := by
  intro s hs
  refine ⟨fun hf => ⟨?_, fun n hn => ?_⟩, fun hf => ⟨?_, fun n hn => ?_⟩⟩
  · rw [exec_flushRx hs, s.dev.requestFlushRx_async hf]
  · rw [exec_flushTx hs hn, s.dev.requestFlushTx_async n hf]
  · rw [exec_flushRx hs, s.dev.requestFlushRx_sync hf]
  · rw [exec_flushTx hs hn, s.dev.requestFlushTx_sync n (Nat.lt_trans hn (by decide)) hf]

/-- Settles O36: each completion step asks for its request first. -/
theorem flushCompletionEmptiesTheFifo : Obligations.FlushCompletionEmptiesTheFifo := by
  intro d
  refine ⟨fun htx => ?_, fun hrx => ?_, fun htx => ?_, fun hrx => ?_⟩
  · refine ⟨_, if_pos htx, rfl, fun e he => ?_⟩
    rw [slot_setSlot]
    exact if_congr ⟨fun h => h.1.symm, fun h => ⟨h.symm, h ▸ he⟩⟩ rfl rfl
  · have hdone : FlushMove.apply .rxDone d = { d with rxq := [], grstctl := { d.grstctl with rxfflsh := false } } :=
      if_pos hrx
    exact ⟨hdone, congrArg Dev.rxflvl hdone⟩
  · exact if_neg (by simp [htx])
  · exact if_neg (by simp [hrx])

/-! ## POLL on enumeration done (R214) -/

/-- R160 touches neither the event log nor the stored flags of GINTSTS. -/
theorem Dev.ControlActivated.evlog_gintsts {mps : Nat} {d d' : Dev .hardware} (h : d.ControlActivated mps d') :
    d'.evlog = d.evlog ∧ d'.gintsts = d.gintsts := by
  rw [h.fields]; exact ⟨rfl, rfl⟩

/-- R160, R214: the size, the depths and the first start address with the values of R7. -/
theorem Dev.ControlActivated.takesR7 {d d' : Dev .hardware} (h : d.ControlActivated d.cfg.enumCtrlMps d')
    (h7 : d.cfg.TakesR7) :
    d.cfg.enumCtrlMps = 8 ∧ d'.rxfd = 42#16 ∧ d'.txDepth 0 = 2#16 ∧ d'.txStart 0 = 42#16 := by
  have hrx := h.rxDepth42 h7
  refine ⟨h7.ctrlMps, hrx, ?_, ?_⟩
  · rw [h.txDepth, h7.ctrlMps]
  · rw [h.layout 0 (by decide), Dev.regionStart, hrx]; rfl

/-- R214: the handler of a size that R160 accepts runs to the polled event. -/
theorem Dev.enumDone_waits (d : Dev .hardware) (hc : classify (d.regRead .gintsts) = .enumdne)
    (hm : mpsLegal d.cfg.enumCtrlMps = true) :
    ∃ d', d.ControlActivated d.cfg.enumCtrlMps d' ∧
      RunsToWait pollSteps d ((d'.intClear .gintsts F.enumdne.mask).emit .polled) [] := by
  obtain ⟨d', hr, hd⟩ := d.activateControl_runs d.cfg.enumCtrlMps
  have hsteps : causeSteps d.cfg .enumdne = activateControlSteps d.cfg d.cfg.enumCtrlMps ++ pollTail F.enumdne := by
    rw [causeSteps, if_pos hm]
  refine ⟨d', hd, .step (d.snapshotStep_eq .enumdne hc fun _ => hm) ?_⟩
  rw [List.append_nil, hsteps]
  exact .prepend hr (d'.pollTail_waits F.enumdne)

/-- R214, R296: a size that R160 refuses ends the handler, and POLL goes on to the polled event. -/
theorem Dev.enumDone_badSize_waits (d : Dev .hardware) (hc : classify (d.regRead .gintsts) = .enumdne)
    (hm : mpsLegal d.cfg.enumCtrlMps = false) :
    RunsToWait pollSteps d (((d.raise .badSize).intClear .gintsts F.enumdne.mask).emit .polled) [] :=
  .step (d.snapshotStep_badSize hc hm) (by rw [List.append_nil]; exact Dev.pollTail_waits _ _)

/-- Settles O47: the handler activates the control endpoint, or its `pre:` line fails; POLL ends the same way. -/
theorem pollHandlesEnumerationDone : Obligations.PollHandlesEnumerationDone := by
  intro s hs hi hc
  refine ⟨fun hlo hhi => ?_, fun hm => ?_⟩
  · obtain ⟨d', hd, hw⟩ := s.dev.enumDone_waits hc ((mpsLegal_iff _).mpr ⟨hlo, hhi⟩)
    refine ⟨d', hd, ?_, hd.takesR7⟩
    rw [exec_poll_idle hs, issue_of_wait .poll hs hi hw, ← hd.evlog_gintsts.1, ← hd.evlog_gintsts.2]
    rfl
  · have hbad : mpsLegal s.dev.cfg.enumCtrlMps = false :=
      Bool.eq_false_iff.mpr fun h => by have := (mpsLegal_iff _).mp h; omega
    exact (exec_poll_idle hs).trans (issue_of_wait .poll hs hi (s.dev.enumDone_badSize_waits hc hbad))

end Sys2Proof.Machine
end

section
/-! PROOFS. The transfer type of endpoint 0 (spec/41_endpoint_manager.md R167): the one access step that writes a transfer
type is in ACTIVATE_IN_EP, which turns endpoint 0 down; so no access step of a command in progress writes it, and no move
of LINK, the flush controller or HOST does (spec/45_link_environment.md R266). -/

namespace Sys2Proof.Machine

/-! ## Writes of a control register that leave the transfer type (R40, R44) -/

/-- No listed field is the transfer type or overlaps it. -/
def sparesEptyp (fs : List (Field × Nat)) : Bool :=
  fs.all fun fv => decide (F.eptyp.lo + F.eptyp.len ≤ fv.1.lo) || decide (fv.1.lo + fv.1.len ≤ F.eptyp.lo)

theorem putFields_eptyp {w : Nat} {fs : List (Field × Nat)} (h : sparesEptyp fs = true) (x : BitVec w) :
    (putFields fs x).extractLsb' F.eptyp.lo 2 = x.extractLsb' F.eptyp.lo 2 := by
  induction fs generalizing x with
  | nil => rfl
  | cons fv fs ih =>
    simp only [sparesEptyp, List.all_cons, Bool.and_eq_true, Bool.or_eq_true, decide_eq_true_eq] at h
    exact (ih h.2 _).trans (extract_put_other fv.1 F.eptyp.lo 2 fv.2 x h.1)

@[simp] theorem Diepctl.pack_eptyp (r : Diepctl .hardware) : r.pack.extractLsb' F.eptyp.lo 2 = codeOfEpType r.eptyp := by
  simp [Diepctl.pack, packFields, putFields, extract_put_same, extract_put_other, F.eptyp, F.stall, F.txfnum, F.epdis,
    F.epena]

@[simp] theorem Doepctl.pack_eptyp (r : Doepctl .hardware) (e : Nat) :
    (r.pack e).extractLsb' F.eptyp.lo 2 = codeOfEpType r.eptyp := by
  simp [Doepctl.pack, packFields, putFields, extract_put_same, extract_put_other, F.eptyp, F.stall, F.epdis, F.epena]

theorem Diepctl.rmw_eptyp (r : Diepctl .hardware) {fs : List (Field × Nat)} (h : sparesEptyp fs = true) :
    (r.write (putFields fs r.pack)).eptyp = r.eptyp := by
  rw [Diepctl.write, putFields_eptyp h, Diepctl.pack_eptyp, epTypeOfCode_codeOf]

theorem Doepctl.rmw_eptyp (r : Doepctl .hardware) (e : Nat) {fs : List (Field × Nat)} (h : sparesEptyp fs = true) :
    (r.write e (putFields fs (r.pack e))).eptyp = r.eptyp := by
  rw [Doepctl.write, putFields_eptyp h, Doepctl.pack_eptyp, epTypeOfCode_codeOf]

/-! ## Access steps -/

/-- R167: endpoint 0 has the type control in both directions. -/
def Dev.ControlTyped (d : Dev .hardware) : Prop :=
  (slot d.diepctl 0).eptyp = .control ∧ (slot d.doepctl 0).eptyp = .control

/-- The register holds a transfer type of endpoint 0. -/
def Reg.holdsTypeOfZero : Reg → Bool
  | .diepctl e => e == 0
  | .doepctl e => e == 0
  | _ => false

/-- A read-modify-write of these fields of the register writes no transfer type of endpoint 0. -/
def Reg.rmwSparesTypeOfZero (fs : List (Field × Nat)) : Reg → Bool
  | .diepctl e => sparesEptyp fs || e != 0
  | .doepctl e => sparesEptyp fs || e != 0
  | _ => true

/-- The access step writes no transfer type of endpoint 0. -/
def AccessStep.sparesTypeOfZero : AccessStep .hardware → Bool
  | .rmw r fs => r.rmwSparesTypeOfZero fs
  | .write r _ => !r.holdsTypeOfZero
  | .clear r _ => !r.holdsTypeOfZero
  | _ => true

theorem Dev.regWrite_controlTyped {d : Dev .hardware} (h : d.ControlTyped) {r : Reg} (hr : r.holdsTypeOfZero = false)
    (w : Word) : (d.regWrite r w).ControlTyped := by
  cases r with
  | diepctl e =>
    have he : e ≠ 0 := by simpa [Reg.holdsTypeOfZero] using hr
    exact ⟨by simpa [Dev.regWrite, he] using h.1, h.2⟩
  | doepctl e =>
    have he : e ≠ 0 := by simpa [Reg.holdsTypeOfZero] using hr
    exact ⟨h.1, by simpa [Dev.regWrite, he] using h.2⟩
  | _ => exact h

theorem Dev.regRMW_controlTyped {d : Dev .hardware} (h : d.ControlTyped) {r : Reg} {fs : List (Field × Nat)}
    (hr : r.rmwSparesTypeOfZero fs = true) : (d.regRMW r fs).ControlTyped := by
  cases hz : r.holdsTypeOfZero with
  | false =>
    rw [Dev.regRMW, Dev.loseIf_eq]
    exact Dev.regWrite_controlTyped h hz _
  | true =>
    cases r with
    | diepctl e =>
      obtain rfl : e = 0 := by simpa [Reg.holdsTypeOfZero] using hz
      have hfs : sparesEptyp fs = true := by simpa [Reg.rmwSparesTypeOfZero] using hr
      rw [Dev.regRMW_eq _ _ rfl]
      exact ⟨by simpa [Dev.regWrite, Dev.regRead, Diepctl.rmw_eptyp _ hfs] using h.1, h.2⟩
    | doepctl e =>
      obtain rfl : e = 0 := by simpa [Reg.holdsTypeOfZero] using hz
      have hfs : sparesEptyp fs = true := by simpa [Reg.rmwSparesTypeOfZero] using hr
      rw [Dev.regRMW_eq _ _ rfl]
      exact ⟨h.1, by simpa [Dev.regWrite, Dev.regRead, Doepctl.rmw_eptyp _ _ hfs] using h.2⟩
    | _ => cases hz

/-- An access step that spares the type of endpoint 0 leaves it. -/
theorem perform_controlTyped (t : AccessStep .hardware) (d : Dev .hardware) (ht : t.sparesTypeOfZero = true)
    (h : d.ControlTyped) : (perform t d).1.ControlTyped := by
  have keeps (hw : ∀ r, t.writesReg = some r → r.holdsTypeOfZero = false) : (perform t d).1.ControlTyped :=
    perform_keeps (P := Dev.ControlTyped) t (fun _ r w hr h => Dev.regWrite_controlTyped h (hw r hr) w)
      (fun _ _ h => h) (fun _ _ _ _ _ h => h) (fun _ _ h => h) (fun _ _ _ h => h) (fun _ _ _ h => h) d h
  cases t with
  | rmw r fs => exact Dev.regRMW_controlTyped h ht
  | write | clear => exact keeps fun r hr => by cases hr; exact (Bool.not_eq_true' _).mp ht
  | layoutStart e cur => exact keeps fun r hr => by cases hr; cases e <;> rfl
  | deactFlags | flushRx | flushTx => exact keeps fun r hr => by cases hr; rfl
  | _ => exact keeps nofun

/-! ## The access steps of a command -/

theorem setTxFifoSizeSteps_sparesTypeOfZero (e size : Nat) :
    (setTxFifoSizeSteps e size).all AccessStep.sparesTypeOfZero = true := by cases e <;> rfl

theorem deactRestSteps_sparesTypeOfZero (c : Config .hardware) (n : Nat) :
    (deactRestSteps c n).all AccessStep.sparesTypeOfZero = true := by
  rw [deactRestSteps]
  split <;> rfl

theorem deactivateAllSteps_sparesTypeOfZero (c : Config .hardware) (ev : Option Event) :
    (deactivateAllSteps c ev).all AccessStep.sparesTypeOfZero = true := by
  rw [deactivateAllSteps, List.all_append, List.all_flatMap]
  exact Bool.and_eq_true_iff.mpr ⟨List.all_eq_true.mpr fun _ _ => rfl, rfl⟩

theorem storeSteps_sparesTypeOfZero (ba : Word) (size k : Nat) (w : RegWord) :
    (storeSteps ba size k w).all AccessStep.sparesTypeOfZero = true :=
  List.all_eq_true.mpr fun x hx => by obtain ⟨a, b, rfl⟩ := storeSteps_stores ba size k w x hx; rfl

/-- R210: no handler of POLL writes a transfer type of endpoint 0. -/
theorem causeSteps_sparesTypeOfZero (c : Config .hardware) (k : Cause) :
    (causeSteps c k).all AccessStep.sparesTypeOfZero = true := by
  cases k with
  | usbrst => rw [causeSteps, List.all_append, deactivateAllSteps_sparesTypeOfZero]; rfl
  | enumdne => rw [causeSteps]; split <;> rfl
  | rxflvl | iepint | oepint | none => rfl

/-- R216: no dispatch of a status entry does. -/
theorem Dev.dispatchStatus_sparesTypeOfZero (d : Dev .hardware) (sts : RegWord) :
    (d.dispatchStatus sts).2.all AccessStep.sparesTypeOfZero = true := by
  have hre : ∀ epnum, (d.reArmOut epnum).2.all AccessStep.sparesTypeOfZero = true := by
    intro epnum
    rw [Dev.reArmOut]
    split <;> rfl
  simp only [Dev.dispatchStatus]
  split
  · rfl
  split
  · exact hre _
  split
  · exact hre _
  split <;> rfl

/-- What an access step that spares the type of endpoint 0 puts before the rest spares it too. -/
theorem hereditary_sparesTypeOfZero : Hereditary fun t => t.sparesTypeOfZero = true := by
  intro t d more _ h
  rw [← List.all_eq_true]
  cases t with
  | rmw | write | clear | flushRx | flushTx | store | layoutRx | layoutStart => cases h; rfl
  | layoutDepth | scan | push => cases h; split <;> rfl
  | deactTest dir n => cases h; cases dir <;> dsimp only <;> split <;> rfl
  | testXfrc dir e => cases h; split <;> cases dir <;> rfl
  | deactFlags n ev =>
    simp only [perform, Dev.deactFlagsStep] at h
    split at h <;> cases h
    · rfl
    · rw [List.all_append, deactRestSteps_sparesTypeOfZero]
      cases ev <;> rfl
  | popData ba size k =>
    cases h
    split
    · rw [List.all_append, storeSteps_sparesTypeOfZero]
      split <;> rfl
    · rfl
  | checkSize e size ba =>
    simp only [perform, Dev.checkSizeStep] at h
    split at h <;> cases h
    · rfl
    · split <;> rfl
  | load e size ba i lanes =>
    simp only [perform, Dev.loadStep] at h
    split at h
    · cases h; rfl
    · split at h <;> cases h <;> rfl
  | snapshot => cases h; exact causeSteps_sparesTypeOfZero _ _
  | popStatus =>
    simp only [perform, Dev.popStatusStep] at h
    split at h <;> cases h
    · exact Dev.dispatchStatus_sparesTypeOfZero _ _
    · rfl
  | emit ev => cases h

/-- R161, R167: no command has an access step that writes the type of endpoint 0, but for the ACTIVATE_IN_EP that names
it. -/
theorem commandSteps_sparesTypeOfZero (c : Config .hardware) {i : Instr} (hi : ∀ t mps, i ≠ .activateInEp 0 t mps) :
    (commandSteps c i).all AccessStep.sparesTypeOfZero = true := by
  cases i with
  | activateInEp ep t mps =>
    obtain ⟨e, rfl⟩ := Nat.exists_eq_succ_of_ne_zero fun h : ep = 0 => hi t mps (h ▸ rfl)
    rfl
  | setTxFifoSize ep size => exact setTxFifoSizeSteps_sparesTypeOfZero ep size
  | deactivateAll => exact deactivateAllSteps_sparesTypeOfZero c none
  | readPacket size ba => rw [commandSteps, readPacketSteps]; split <;> rfl
  | _ => rfl

/-! ## Moves of the other agents (R266) -/

theorem Diepctl.SameForLink.refl (c : Diepctl .hardware) : c.SameForLink c := ⟨rfl, rfl, rfl, rfl, rfl, id⟩

theorem Doepctl.SameForLink.refl (c : Doepctl .hardware) : c.SameForLink c := ⟨rfl, rfl, rfl, rfl, id⟩

/-- Writing a slot within these limits changes every slot within them. -/
theorem Diepctl.SameForLink.setSlot {v : Vector (Diepctl .hardware) N} {k : Nat} {c : Diepctl .hardware}
    (h : (slot v k).SameForLink c) (e : Nat) : (slot v e).SameForLink (slot (Machine.setSlot v k c) e) := by
  rw [slot_setSlot]
  split
  · next hk => exact hk.1 ▸ h
  · exact .refl _

theorem Doepctl.SameForLink.setSlot {v : Vector (Doepctl .hardware) N} {k : Nat} {c : Doepctl .hardware}
    (h : (slot v k).SameForLink c) (e : Nat) : (slot v e).SameForLink (slot (Machine.setSlot v k c) e) := by
  rw [slot_setSlot]
  split
  · next hk => exact hk.1 ▸ h
  · exact .refl _

/-- R266: LINK moves no field of a control register but the enable, disable, NAK and data identifier bits. -/
theorem LinkMove.apply_control (m : LinkMove) (d : Dev .hardware) (e : Nat) :
    (slot d.diepctl e).SameForLink (slot (m.apply d).diepctl e) ∧
    (slot d.doepctl e).SameForLink (slot (m.apply d).doepctl e) := by
  rw [LinkMove.apply]
  split
  · cases m with
    | txSend k =>
      refine ⟨Diepctl.SameForLink.setSlot ?_ e, .refl _⟩
      exact ⟨rfl, rfl, rfl, rfl, rfl, id⟩
    | disableDone dir k =>
      cases dir with
      | inn =>
        refine ⟨Diepctl.SameForLink.setSlot ?_ e, .refl _⟩
        exact ⟨rfl, rfl, rfl, rfl, rfl, nofun⟩
      | out =>
        refine ⟨.refl _, Doepctl.SameForLink.setSlot ?_ e⟩
        exact ⟨rfl, rfl, rfl, rfl, nofun⟩
    | rxPush epnum bcnt dpid pktsts payload =>
      simp only [LinkMove.effect, Dev.rxPush]
      split
      · refine ⟨.refl _, Doepctl.SameForLink.setSlot ?_ e⟩
        exact ⟨rfl, rfl, rfl, rfl, id⟩
      · exact ⟨.refl _, .refl _⟩
    | epFlag dir k b => cases dir <;> exact ⟨.refl _, .refl _⟩
    | busReset | enumDone | outXfrc | otherGint => exact ⟨.refl _, .refl _⟩
  · exact ⟨.refl _, .refl _⟩

/-- R167: no move of LINK, the flush controller or HOST changes the type of endpoint 0. -/
theorem applyInput_controlTyped (i : Input .hardware) (s : State) (hi : i.fromAgents = true) (h : s.dev.ControlTyped) :
    (applyInput i s).dev.ControlTyped := by
  cases i with
  | link m =>
    obtain ⟨⟨-, hin, -⟩, ⟨-, hout, -⟩⟩ := m.apply_control s.dev 0
    exact ⟨hin.trans h.1, hout.trans h.2⟩
  | flush m =>
    cases m <;> simp only [applyInput, FlushMove.apply, Dev.flushTxDone, Dev.flushRxDone] <;> split <;> exact h
  | host m =>
    cases m with
    | command ws => exact h
    | ack => rw [applyInput, State.At.ackEvent]; split <;> exact h
    | store a bs => rw [applyInput, Dev.memWriteAll_eq]; exact h
  | core _ => exact h
  | harness m => cases hi
  | reset => cases hi

/-! ## Commands -/

/-- R161: ACTIVATE_IN_EP turns endpoint 0 down. -/
theorem exec_activateInEp_zero (t : EpType) (mps : Nat) (s : State) :
    exec (.activateInEp 0 t mps) s = takeFault .epRange s := by
  rw [exec, execActivateInEp, if_neg (by simp)]

/-- R281: a command that takes a fault leaves the device with that fault. -/
theorem takeFault_dev {c : FaultCause} {s t : State} (h : takeFault c s = .next t) : t.dev = s.dev.raise c := by
  unfold takeFault at h
  split at h <;> cases h
  rfl

/-- Settles O37: the ACTIVATE_IN_EP that would write the type of endpoint 0 takes a fault; of every other command each
access step spares it, and so does each move of the script. -/
theorem endpointZeroStaysControl : Obligations.EndpointZeroStaysControl := by
  intro i s t hok ht hin hout
  by_cases hi : ∃ ty mps, i = .activateInEp 0 ty mps
  · obtain ⟨ty, mps, rfl⟩ := hi
    rw [takeFault_dev ((exec_activateInEp_zero ty mps s).symm.trans ht)]
    exact ⟨hin, hout⟩
  · exact exec_dev (P := Dev.ControlTyped) hereditary_sparesTypeOfZero perform_controlTyped
      (fun j u hj _ => applyInput_controlTyped j u hj) (fun _ _ h => h)
      (List.all_eq_true.mp (commandSteps_sparesTypeOfZero _ fun ty mps h => hi ⟨ty, mps, h⟩)) hok ht ⟨hin, hout⟩

end Sys2Proof.Machine
end

section
/-! PROOFS. The byte mover (spec/42_packet_transfer.md): READ_PACKET where RXQ holds the words (R190, R191), the size check of
WRITE_PACKET (R192), and the two commands with the harness's loop-back between them (R198, R267). -/

namespace Sys2Proof.Machine

/-! ## READ_PACKET (R190, R191) -/

/-- READ_PACKET of no more than the data words at the head of RXQ, a read of nothing included: the words are popped and
their first `size` bytes stored from `ba` on. -/
theorem readPacket_runs (size : Nat) (ba : Word) (ws : List RegWord) (rest : List (RxWord .hardware)) (d : Dev .hardware)
    (hlen : ws.length = (size + 3) / 4) (hq : d.rxq = ws.map .data ++ rest) :
    Runs (readPacketSteps size ba) d
      { d with rxq := rest, mem := Memory.writeFrom d.mem ba 0 ((ws.flatMap wordBytes).take size) } := by
  by_cases h0 : size = 0
  · subst h0
    obtain rfl : ws = [] := List.eq_nil_of_length_eq_zero hlen
    obtain rfl : d.rxq = rest := hq
    exact .done d
  · rw [readPacketSteps, if_neg h0]
    exact popData_runs ba size rest ws 0 d (Nat.pos_of_ne_zero h0) ((Nat.zero_add _).trans hlen) hq

/-- Settles O38: the stores put byte `k` of the popped words at `ba + k`, and the bytes taken are the `size` first. -/
theorem readPacketDelivers : Obligations.ReadPacketDelivers := by
  rintro size ba ws rest s ⟨ha, hi⟩ hw hsize hlen hq
  have hbytes : ((ws.flatMap wordBytes).take size).length = size := by
    rw [List.length_take, flatMap_wordBytes_length]
    omega
  obtain ⟨hread, hframe⟩ :=
    Memory.read_writeFrom s.dev.mem ba ((ws.flatMap wordBytes).take size) hw 0 (by omega)
  simp only [hbytes, Nat.zero_add] at hread hframe
  refine ⟨_, issue_of_runs (.readPacket size ba) ha hi (readPacket_runs size ba ws rest s.dev hlen hq), rfl,
    Memory.wf_writeFrom s.dev.mem ba _ hw 0, fun k hk => (hread k hk).trans ?_, hframe⟩
  rw [List.getElem?_take_of_lt hk]
  exact flatMap_wordBytes_get ws k (by omega)

/-! ## The size check of WRITE_PACKET (R192, R195) -/

/-- Settles O41. -/
theorem writePacketRefusesOversize : Obligations.WritePacketRefusesOversize := by
  rintro e size ba s ⟨ha, hi⟩ he hm
  exact (exec_writePacket e size ba s he).trans (issue_of_runs _ ha hi (writePacket_oversize e size ba s.dev hm))

/-! ## The round trip (R198) -/

/-- R267: while LayoutFits has held, the loop-back moves the words of TXQ[e], as data words, to an empty RXQ. -/
theorem HarnessMove.apply_loopback (e : Nat) (d : Dev .hardware) (hq : d.rxq = []) (ho : d.overlap = false) :
    HarnessMove.apply (.loopback e) d =
      { d with txq := setSlot d.txq e [], rxq := (slot d.txq e).map .data, draws := d.draws + 1 } := by
  simp only [HarnessMove.apply, Dev.rxAppend, hq, ho, List.nil_append, blurRx_false]

/-- Settles O43: byte `k` is lane `k mod 4` of word `k div 4` of what WRITE_PACKET queues, and of what READ_PACKET
pops. -/
theorem writeThenReadRoundTrip : Obligations.WriteThenReadRoundTrip := by
  intro e size src dst s hs he hw hm htx hrx hroom ho
  have hfit : size = 0 ∨ (slot s.dev.txq e).length + (size + 3) / 4 ≤ (s.dev.txDepth e).toNat :=
    .inr (by rwa [htx, List.length_nil, Nat.zero_add])
  have hsize : size < 65536 := by
    have hmps : (slot s.dev.diepctl e).mpsiz.toNat < 2 ^ 11 := BitVec.isLt _
    omega
  obtain ⟨d₁, ws, hwrite, hd₁, hlen, hlanes, hmem₁⟩ := writePacketQueues e size src s hs he hm hfit
  have hqueued : slot d₁.txq e = ws := by
    rw [hd₁, htx]
    simp [he]
  obtain ⟨d₂, hread, hd₂, -, hdelivered, hkept⟩ := readPacketDelivers size dst ws []
    { s with dev := HarnessMove.apply (.loopback e) d₁ } hs (by rw [hd₁]; exact hw) hsize hlen
    (by rw [HarnessMove.apply_loopback e d₁ (by rw [hd₁]; exact hrx) (by rw [hd₁]; exact ho), hqueued, List.append_nil])
  refine ⟨_, _, hwrite, hread, fun k hk => (hdelivered k hk).trans (hlanes ho k hk),
    fun a ha => (hkept a ha).trans (hmem₁ a), ?_, ?_, ?_⟩
  · show d₂.fault = s.dev.fault
    rw [hd₂, hd₁]; rfl
  · show d₂.rxq = []
    rw [hd₂]
  · show slot d₂.txq e = []
    rw [hd₂]
    simp [HarnessMove.apply, he]

end Sys2Proof.Machine
end

section
/-! PROOFS. The Interrupt Dispatcher (spec/43_interrupt_dispatcher.md): the classifier (R211), a POLL without a cause, its
handlers of the receive level (R215 to R218) and of the endpoints (R219, R220, R225), and its end after an acknowledgement
(R210, R221, R223). -/

namespace Sys2Proof.Machine

/-! ## The classifier (R211) -/

/-- Settles O44, along the branches of the classifier. -/
theorem classifierOrder : Obligations.ClassifierOrder := by
  intro snap
  simp only [classify, Field.bit, F.usbrst, F.enumdne, F.rxflvl, F.iepint, F.oepint]
  cases h12 : snap[12] with
  | true => simp [h12]
  | false => cases h13 : snap[13] with
    | true => simp [h12, h13]
    | false => cases h4 : snap[4] with
      | true => simp [h12, h13, h4]
      | false => cases h18 : snap[18] with
        | true => simp [h12, h13, h4, h18]
        | false => cases h19 : snap[19] <;> simp [h12, h13, h4, h18, h19]

/-! ## The ways POLL comes to its first event -/

/-- R210: a POLL at IDLE that no other agent disturbs waits where the handler of its one cause first waits. -/
theorem exec_poll_of_waits {s : State} {d' : Dev .hardware} {left : List (AccessStep .hardware)} {c : Cause}
    (hs : s.seq = .idle) (hi : s.inputs = []) (hc : classify (s.dev.regRead .gintsts) = c) (hne : c ≠ .enumdne)
    (h : RunsToWait (causeSteps s.dev.cfg c) s.dev d' left) :
    exec .poll s = .next { s with dev := d', seq := .waitAck .poll left } :=
  (exec_poll_idle hs).trans (issue_of_wait .poll hs hi (poll_waits hc hne h))

/-- R24, R91: where the cause is a derived bit, which is not stored, its clear at the end of POLL changes nothing. -/
theorem Dev.pollTail_waits_derived (d : Dev .hardware) {f : Field} (hd : d.gintsts &&& gintstsDerived = 0#32)
    (hf : f.mask &&& gintstsDerived = (f.mask : RegWord)) : RunsToWait (pollTail f) d (d.emit .polled) [] := by
  have htail := d.pollTail_waits f
  rwa [Dev.intClear, Dev.regWrite, and_not_of_disjoint _ _ _ hd hf] at htail

/-- Settles O45. -/
theorem pollWithNoCause : Obligations.PollWithNoCause := fun _ hs hi hc =>
  exec_poll_of_waits hs hi hc nofun (.wait rfl)

/-! ## The endpoints (R219, R220) -/

/-- R219, R220: the scan finds the lowest bit of a half. -/
theorem firstSet_eq {half : BitVec 16} {e : Nat} (he : half.getLsbD e = true)
    (hlow : ∀ k, k < e → half.getLsbD k = false) : firstSet half = some e := by
  rw [firstSet, List.find?_range_eq_some]
  exact ⟨he, List.mem_range.mpr (BitVec.lt_of_getLsbD he), fun k hk => by rw [hlow k hk]; rfl⟩

/-- R38: the IN half of DAINT. -/
theorem getLsbD_daintHalf_inn {w : Nat} (dai : BitVec w) {k : Nat} (hk : k < 16) :
    (daintHalf .inn dai).getLsbD k = dai.getLsbD k := by
  simp [daintHalf, hk]

/-- R38: the OUT half of DAINT. -/
theorem getLsbD_daintHalf_out {w : Nat} (dai : BitVec w) {k : Nat} (hk : k < 16) :
    (daintHalf .out dai).getLsbD k = dai.getLsbD (16 + k) := by
  simp [daintHalf, hk]

/-- R219, R220: the scan goes on to the endpoint it found. -/
theorem Dev.scanStep_eq (d : Dev .hardware) {dir : Dir} {e : Nat}
    (h : firstSet (daintHalf dir (d.regRead .daint)) = some e) : d.scanStep dir = (d, .go [.testXfrc dir e]) := by
  rw [Dev.scanStep, h]

/-- R219, R220: an endpoint whose `xfrc` flag is set is reported, the clear of the flag still to come. -/
theorem Dev.scan_waits_xfrc (d : Dev .hardware) {dir : Dir} {e : Nat} (rest : List (AccessStep .hardware))
    (h : firstSet (daintHalf dir (d.regRead .daint)) = some e)
    (hx : (d.regRead (intReg dir e)).getLsbD 0 = true) :
    RunsToWait (.scan dir :: rest) d (d.emit (xfrcEvent dir e)) (.clear (intReg dir e) F.xfrc.mask :: rest) := by
  refine .step (d.scanStep_eq h) (.step (more := [.emit (xfrcEvent dir e), .clear (intReg dir e) F.xfrc.mask]) ?_
    (.wait rfl))
  exact congrArg (fun l => (d, After.go l)) (if_pos hx)

/-- R225: an endpoint whose `xfrc` flag is 0 is left alone. -/
theorem Dev.scan_runs_other (d : Dev .hardware) {dir : Dir} {e : Nat}
    (h : firstSet (daintHalf dir (d.regRead .daint)) = some e)
    (hx : (d.regRead (intReg dir e)).getLsbD 0 = false) : Runs [.scan dir] d d := by
  refine .step (d.scanStep_eq h) (.one ?_ (.done d))
  exact congrArg (fun l => (d, After.go l)) (if_neg (Bool.eq_false_iff.mp hx))

/-- R219, R220, R225: POLL on the endpoint cause `c` of a direction, `e` the lowest endpoint of its half of DAINT. -/
theorem exec_poll_endpoint {s : State} {c : Cause} {dir : Dir} {f : Field} {e : Nat} (hs : s.seq = .idle)
    (hi : s.inputs = []) (hinv : s.dev.Inv) (hc : classify (s.dev.regRead .gintsts) = c) (hne : c ≠ .enumdne)
    (hsteps : causeSteps s.dev.cfg c = .scan dir :: pollTail f) (hf : f.mask &&& gintstsDerived = (f.mask : RegWord))
    (h : firstSet (daintHalf dir (s.dev.regRead .daint)) = some e) :
    ((s.dev.regRead (intReg dir e)).getLsbD 0 = true → exec .poll s = .next { s with
      dev := s.dev.emit (xfrcEvent dir e)
      seq := .waitAck .poll (.clear (intReg dir e) F.xfrc.mask :: pollTail f) }) ∧
    ((s.dev.regRead (intReg dir e)).getLsbD 0 = false → exec .poll s = .next { s with
      dev := s.dev.emit .polled
      seq := .waitAck .poll [] }) := by
  refine ⟨fun hx => exec_poll_of_waits hs hi hc hne ?_, fun hx => exec_poll_of_waits hs hi hc hne ?_⟩ <;> rw [hsteps]
  · exact s.dev.scan_waits_xfrc (pollTail f) h hx
  · exact .prepend (s.dev.scan_runs_other h hx) (s.dev.pollTail_waits_derived hinv.gintsts hf)

/-- Settles O50: both halves of DAINT are scanned alike, and the cause's bit is a derived one. -/
theorem pollHandlesEndpoints : Obligations.PollHandlesEndpoints := by
  intro s e hs hi hinv he
  have h16 : ∀ k, k ≤ e → k < 16 := fun k hk => Nat.lt_trans (Nat.lt_of_le_of_lt hk he) (by decide)
  refine ⟨fun hc hbit hlow => ?_, fun hc hbit hlow => ?_⟩
  · refine exec_poll_endpoint (dir := .inn) hs hi hinv hc nofun rfl (by decide) (firstSet_eq ?_ fun k hk => ?_)
    · rwa [getLsbD_daintHalf_inn _ (h16 e (Nat.le_refl e))]
    · rw [getLsbD_daintHalf_inn _ (h16 k (Nat.le_of_lt hk)), hlow k hk]
  · refine exec_poll_endpoint (dir := .out) hs hi hinv hc nofun rfl (by decide) (firstSet_eq ?_ fun k hk => ?_)
    · rwa [getLsbD_daintHalf_out _ (h16 e (Nat.le_refl e))]
    · rw [getLsbD_daintHalf_out _ (h16 k (Nat.le_of_lt hk)), hlow k hk]

/-! ## The receive level (R215 to R218) -/

/-- R215: a status entry at the head of RXQ is popped and dispatched. -/
theorem Dev.popStatusStep_status (d : Dev .hardware) {w : RegWord} {rest : List (RxWord .hardware)}
    {q : Dev .hardware × List (AccessStep .hardware)} (hq : d.rxq = .status w :: rest)
    (h : ({ d with rxq := rest } : Dev .hardware).dispatchStatus w = q) : d.popStatusStep = (q.1, .go q.2) := by
  simp only [Dev.popStatusStep, d.statusPop_status w rest hq, if_true, h]

/-- R216: a SETUP packet is reported. -/
theorem Dev.dispatchStatus_setup (d : Dev .hardware) {w : RegWord} (h : stsPktsts w = 6#4) :
    d.dispatchStatus w = (d, [.emit (.setupDataReceived (stsEpnum w) (stsBcnt w))]) := if_pos h

/-- R216: both completion codes re-arm the endpoint. -/
theorem Dev.dispatchStatus_complete (d : Dev .hardware) {w : RegWord} (h : stsPktsts w = 3#4 ∨ stsPktsts w = 4#4) :
    d.dispatchStatus w = d.reArmOut (stsEpnum w) := by
  rcases h with h | h <;> rw [Dev.dispatchStatus, h] <;> rfl

/-- R216, R217: the data of an OUT packet are not handled. -/
theorem Dev.dispatchStatus_outData (d : Dev .hardware) {w : RegWord} (h : stsPktsts w = 2#4) (hb : stsBcnt w ≠ 0#11) :
    d.dispatchStatus w = (d.raise .unsupportedOutData, []) := by
  rw [Dev.dispatchStatus, h, Dev.outDataGap, if_neg hb]; rfl

/-- R216, R217: an OUT packet without data is nothing to handle. -/
theorem Dev.dispatchStatus_outEmpty (d : Dev .hardware) {w : RegWord} (h : stsPktsts w = 2#4) (hb : stsBcnt w = 0#11) :
    d.dispatchStatus w = (d, []) := by
  rw [Dev.dispatchStatus, h, Dev.outDataGap, if_pos hb]; rfl

/-- R216: no other code does anything. -/
theorem Dev.dispatchStatus_other (d : Dev .hardware) {w : RegWord} (h2 : stsPktsts w ≠ 2#4) (h3 : stsPktsts w ≠ 3#4)
    (h4 : stsPktsts w ≠ 4#4) (h6 : stsPktsts w ≠ 6#4) : d.dispatchStatus w = (d, []) :=
  (if_neg h6).trans ((if_neg h4).trans ((if_neg h3).trans (if_neg h2)))

/-- R218: the range check of re-arming. -/
theorem Dev.reArmOut_of_ge (d : Dev .hardware) {ep : BitVec 4} (hep : N ≤ ep.toNat) :
    d.reArmOut ep = (d.raise .epRange, []) := if_pos hep

/-- R45, R218: re-arming an OUT endpoint, that of endpoint 0 being active already. -/
theorem Dev.reArmOut_runs (d : Dev .hardware) (hctl : (slot d.doepctl 0).usbaep = true) {ep : BitVec 4}
    (hep : ep.toNat < N) : Runs (d.reArmOut ep).2 (d.reArmOut ep).1 { d with
      doepctl := setSlot d.doepctl ep.toNat { slot d.doepctl ep.toNat with naksts := false, epena := true } } := by
  have hactive : (slot d.doepctl ep.toNat).active ep.toNat = (slot d.doepctl ep.toNat).usbaep := by
    cases he : ep.toNat with
    | zero => rw [hctl]; rfl
    | succ k => rfl
  have hrmw := d.rmw_rearm ep.toNat
  rw [hactive] at hrmw
  rw [Dev.reArmOut, if_neg (Nat.not_le.mpr hep)]
  exact .one (congrArg (·, After.go []) hrmw) (.done _)

/-- R215, R216, R221: where the dispatch of the popped entry comes to an end without an event, POLL goes on to the
polled event; the receive level is derived, so its clear changes nothing. -/
theorem exec_poll_status {s : State} {w : RegWord} {rest : List (RxWord .hardware)}
    {q : Dev .hardware × List (AccessStep .hardware)} {d' : Dev .hardware} (hs : s.seq = .idle) (hi : s.inputs = [])
    (hc : classify (s.dev.regRead .gintsts) = .rxflvl) (hq : s.dev.rxq = .status w :: rest)
    (hdisp : ({ s.dev with rxq := rest } : Dev .hardware).dispatchStatus w = q) (hr : Runs q.2 q.1 d')
    (hd : d'.gintsts &&& gintstsDerived = 0#32) :
    exec .poll s = .next { s with dev := d'.emit .polled, seq := .waitAck .poll [] } :=
  exec_poll_of_waits hs hi hc nofun
    (.step (s.dev.popStatusStep_status hq hdisp) (.prepend hr (d'.pollTail_waits_derived hd (by decide))))

/-- Settles O48, by the status code of the popped entry; the stored flags of GINTSTS are those of the start throughout. -/
theorem pollHandlesReceiveLevel : Obligations.PollHandlesReceiveLevel := by
  intro s w rest hs hi hinv hc hq
  have polled {q : Dev .hardware × List (AccessStep .hardware)} {d' : Dev .hardware} :=
    exec_poll_status (q := q) (d' := d') hs hi hc hq
  refine ⟨fun h => ?_, fun h hep => ?_, fun h hep => ?_, fun h hb => ?_, fun h hb => ?_, fun h2 h3 h4 h6 => ?_⟩
  · exact exec_poll_of_waits hs hi hc nofun
      (.step (s.dev.popStatusStep_status hq (Dev.dispatchStatus_setup _ h)) (.wait rfl))
  · exact polled (Dev.dispatchStatus_complete _ h) (Dev.reArmOut_runs { s.dev with rxq := rest } hinv.control hep)
      hinv.gintsts
  · exact polled ((Dev.dispatchStatus_complete _ h).trans (Dev.reArmOut_of_ge _ hep)) (.done _) hinv.gintsts
  · exact polled (Dev.dispatchStatus_outData _ h hb) (.done _) hinv.gintsts
  · exact polled (Dev.dispatchStatus_outEmpty _ h hb) (.done _) hinv.gintsts
  · exact polled (Dev.dispatchStatus_other _ h2 h3 h4 h6) (.done _) hinv.gintsts

/-! ## After the acknowledgement (R210, R223) -/

/-- A command in progress that no other agent disturbs goes on to its next event. -/
theorem step_run_of_waits {s : State} {cmd : Instr} {todo left : List (AccessStep .hardware)} {d' : Dev .hardware}
    (hs : s.seq = .run cmd todo) (hi : s.inputs = []) (h : RunsToWait todo s.dev d' left) :
    step s = .next { s with dev := d', seq := .waitAck cmd left } :=
  (if_neg (by simp [hs])).trans (congrArg Host.Outcome.next (proceed_of_wait hs hi h))

/-- R210, R221, R223: the end of POLL, the clear of the bits that the cause's mask names and the polled event. -/
theorem Dev.clear_polled_waits (d : Dev .hardware) (m : RegWord) :
    RunsToWait [.clear .gintsts m, .emit .polled] d ((d.intClear .gintsts m).emit .polled) [] :=
  .step (more := []) rfl (.wait rfl)

/-- Settles O51: the clears still to come are performed, then POLLED is emitted. -/
theorem pollClearsAfterHandling : Obligations.PollClearsAfterHandling := fun s e m hi _ =>
  ⟨fun hs => step_run_of_waits hs hi (s.dev.clear_polled_waits m),
    fun hs => step_run_of_waits hs hi
      (.step (more := []) rfl ((s.dev.intClear (.diepint e) 1#32).clear_polled_waits m)),
    fun hs => step_run_of_waits hs hi
      (.step (more := []) rfl ((s.dev.intClear (.doepint e) 1#32).clear_polled_waits m))⟩

end Sys2Proof.Machine
end

section
/-! PROOFS. Two of the glue commands (spec/44_glue.md): INIT_CORE (R240) and SET_ADDRESS (R241), where no other agent
moves. -/

namespace Sys2Proof.Machine

/-! ## INIT_CORE (R240) -/

/-- R22, R240: the three masks are plain registers, and the write of GAHBCFG stores its enable bit. -/
theorem Dev.initCore_runs (d : Dev .hardware) :
    Runs initCoreSteps d { d with gintmsk := 0x000C3010#32, diepmsk := 1#32, doepmsk := 1#32, gint := true } :=
  .one rfl (.one rfl (.one rfl (.one (congrArg (·, After.go []) (Dev.rmw_gint _)) (.done _))))

/-- Settles O53. -/
theorem initCoreResult : Obligations.InitCoreResult := fun s ⟨ha, hi⟩ =>
  issue_of_runs .initCore ha hi s.dev.initCore_runs

/-! ## SET_ADDRESS (R241) -/

/-- R34, R90: programming the device address writes DCFG alone. -/
theorem Dev.setAddress_runs (d : Dev .hardware) (addr : Nat) :
    Runs (setAddressSteps addr) d { d with dcfg := putFields [(F.dad, addr)] d.dcfg } :=
  .one (congrArg (·, After.go []) (d.regRMW_eq [(F.dad, addr)] rfl)) (.done _)

/-- R241: an address below 128 fits its field, and is read back. -/
theorem dcfg_rmw_address (w : RegWord) {addr : Nat} (h : addr < 128) :
    ((putFields [(F.dad, addr)] w).extractLsb' 4 7).toNat = addr := by
  have hfield : (putFields [(F.dad, addr)] w).extractLsb' 4 7 = BitVec.ofNat 7 addr :=
    extract_put_same 4 7 addr w (by decide)
  rw [hfield, BitVec.toNat_ofNat]
  exact Nat.mod_eq_of_lt h

/-- Settles O54: the bits outside the address field are those `dcfg_rmw` keeps. -/
theorem setAddressResult : Obligations.SetAddressResult := fun addr s ⟨ha, hi⟩ haddr =>
  ⟨_, issue_of_runs (.setAddress addr) ha hi (s.dev.setAddress_runs addr), dcfg_rmw_address s.dev.dcfg haddr,
    fun b hb => (dcfg_rmw s.dev.dcfg addr b).trans (if_neg (by omega))⟩

end Sys2Proof.Machine
end

section
/-! PROOFS. The environment (spec/45_link_environment.md): what every move of LINK leaves and what each single move does
(R250 to R260, R266), and that no agent writes an enable or mask register (R266, R291). -/

namespace Sys2Proof.Machine

/-! ## A move is taken where its guard holds (U27) -/

theorem LinkMove.apply_of_enabled {m : LinkMove} {d : Dev .hardware} (h : m.enabled d = true) :
    m.apply d = m.effect d := if_pos h

theorem LinkMove.apply_of_disabled {m : LinkMove} {d : Dev .hardware} (h : m.enabled d = false) : m.apply d = d :=
  if_neg (Bool.eq_false_iff.mp h)

theorem applyInput_link_of_enabled {m : LinkMove} {s : State} (h : m.enabled s.dev = true) :
    applyInput (.link m) s = { s with dev := m.effect s.dev } :=
  congrArg (fun d => { s with dev := d }) (LinkMove.apply_of_enabled h)

theorem applyInput_link_of_disabled {m : LinkMove} {s : State} (h : m.enabled s.dev = false) :
    applyInput (.link m) s = s :=
  congrArg (fun d => { s with dev := d }) (LinkMove.apply_of_disabled h)

/-! ## What LINK never does (R266) -/

/-- Flags that are only set are kept. -/
theorem and_or_eq_left {w : Nat} (x y : BitVec w) : x &&& (x ||| y) = x := by
  ext i hi
  simp only [BitVec.getElem_and, BitVec.getElem_or]
  cases x[i] <;> rfl

theorem and_slot_setSlot_or {n w : Nat} (v : Vector (BitVec w) n) (k e : Nat) (x : BitVec w) :
    slot v e &&& slot (setSlot v k (slot v k ||| x)) e = slot v e := by
  rw [slot_setSlot]
  split
  · next h => rw [h.1, and_or_eq_left]
  · exact BitVec.and_self

theorem slot_setSlot_drop_suffix {α : Type} {n : Nat} (v : Vector (List α) n) (k e j : Nat) :
    slot (setSlot v k ((slot v k).drop j)) e <:+ slot v e := by
  rw [slot_setSlot]
  split
  · next h => rw [h.1]; exact List.drop_suffix j _
  · exact List.suffix_refl _

/-- R266, outside the control registers: the registers LINK never writes are as they were, every flag that was set is
set, RXQ has lost nothing and no TXQ has gained anything. -/
structure Dev.LinkFrame (d d' : Dev .hardware) : Prop where
  same : d.SameForLink d'
  gint : d.gintsts &&& d'.gintsts = d.gintsts
  inn : ∀ e, slot d.diepint e &&& slot d'.diepint e = slot d.diepint e
  out : ∀ e, slot d.doepint e &&& slot d'.doepint e = slot d.doepint e
  rxq : d.rxq <+: d'.rxq
  txq : ∀ e, slot d'.txq e <:+ slot d.txq e

theorem Dev.LinkFrame.refl (d : Dev .hardware) : d.LinkFrame d where
  same := ⟨rfl, rfl, rfl, rfl, rfl, rfl, rfl, rfl, rfl, rfl, rfl, rfl, rfl, rfl, rfl⟩
  gint := BitVec.and_self
  inn _ := BitVec.and_self
  out _ := BitVec.and_self
  rxq := List.prefix_refl _
  txq _ := List.suffix_refl _

/-- R266: every move of LINK keeps within this frame; each names what it moves. -/
theorem LinkMove.apply_frame (m : LinkMove) (d : Dev .hardware) : d.LinkFrame (m.apply d) := by
  rw [LinkMove.apply]
  split
  · cases m with
    | busReset | enumDone | otherGint => exact { Dev.LinkFrame.refl d with gint := and_or_eq_left _ _ }
    | rxPush epnum bcnt dpid pktsts payload =>
      rw [LinkMove.effect, Dev.rxPush]
      split <;> exact { Dev.LinkFrame.refl d with rxq := List.prefix_append _ _ }
    | txSend k =>
      exact { Dev.LinkFrame.refl d with
        inn := fun e => and_slot_setSlot_or _ k e _
        txq := fun e => slot_setSlot_drop_suffix _ k e _ }
    | outXfrc k => exact { Dev.LinkFrame.refl d with out := fun e => and_slot_setSlot_or _ k e _ }
    | disableDone dir k | epFlag dir k =>
      cases dir with
      | inn => exact { Dev.LinkFrame.refl d with inn := fun e => and_slot_setSlot_or _ k e _ }
      | out => exact { Dev.LinkFrame.refl d with out := fun e => and_slot_setSlot_or _ k e _ }
  · exact .refl d

/-! ## The moves that only set a flag (R251, R252, R258 to R260) -/

/-- R259: the guard of LK_EP_FLAG. -/
theorem LinkMove.epFlag_enabled (dir : Dir) (e b : Nat) (d : Dev .hardware) :
    (LinkMove.epFlag dir e b).enabled d = true ↔ e < N ∧ causeDefined d.cfg dir b = true := by
  simp [LinkMove.enabled]

/-- R260: the bits of GINTSTS that LK_OTHER_GINT sets. -/
theorem otherGintBit_iff (b : Nat) : otherGintBit b = true ↔ b < 32 ∧ b ∉ [4, 12, 13, 18, 19] := by
  simp [otherGintBit, F.rxflvl, F.usbrst, F.enumdne, F.iepint, F.oepint, and_assoc]

/-- R258: LK_OUT_XFRC. -/
theorem applyInput_outXfrc (e : Nat) (s : State) :
    (e < N → applyInput (.link (.outXfrc e)) s = { s with dev := s.dev.setEpFlag .out e 0 }) ∧
    (N ≤ e → applyInput (.link (.outXfrc e)) s = s) :=
  ⟨fun h => applyInput_link_of_enabled (decide_eq_true h),
    fun h => applyInput_link_of_disabled (decide_eq_false (Nat.not_lt.mpr h))⟩

/-- R259: LK_EP_FLAG, in both directions. -/
theorem applyInput_epFlag (dir : Dir) (e b : Nat) (s : State) :
    (e < N → causeDefined s.dev.cfg dir b = true →
      applyInput (.link (.epFlag dir e b)) s = { s with dev := s.dev.setEpFlag dir e b }) ∧
    (N ≤ e ∨ causeDefined s.dev.cfg dir b = false → applyInput (.link (.epFlag dir e b)) s = s) := by
  have hguard := LinkMove.epFlag_enabled dir e b s.dev
  refine ⟨fun he hb => applyInput_link_of_enabled (hguard.mpr ⟨he, hb⟩), fun h => applyInput_link_of_disabled ?_⟩
  rw [Bool.eq_false_iff, ne_eq, hguard]
  rintro ⟨he, hb⟩
  exact h.elim (Nat.not_le.mpr he) (Bool.eq_false_iff.mp · hb)

/-- R260: LK_OTHER_GINT. -/
theorem applyInput_otherGint (b : Nat) (s : State) :
    (b < 32 → b ∉ [4, 12, 13, 18, 19] → applyInput (.link (.otherGint b)) s =
      { s with dev := { s.dev with gintsts := s.dev.gintsts ||| 1#32 <<< b } }) ∧
    (32 ≤ b ∨ b ∈ [4, 12, 13, 18, 19] → applyInput (.link (.otherGint b)) s = s) := by
  have hguard : (LinkMove.otherGint b).enabled s.dev = true ↔ _ := otherGintBit_iff b
  refine ⟨fun hb hn => applyInput_link_of_enabled (hguard.mpr ⟨hb, hn⟩), fun h => applyInput_link_of_disabled ?_⟩
  rw [Bool.eq_false_iff, ne_eq, hguard]
  rintro ⟨hb, hn⟩
  exact h.elim (Nat.not_le.mpr hb) hn

/-- Settles O56: the frame holds of every move, and of the moves that only set a flag the guard decides. -/
theorem linkNeverTouchesTheRest : Obligations.LinkNeverTouchesTheRest := by
  intro m s
  have hframe := m.apply_frame s.dev
  refine ⟨hframe.same, rfl, rfl, rfl, fun e _ => ?_, hframe.gint, hframe.rxq, ?_, ?_, ?_, ?_, ?_, ?_⟩
  · obtain ⟨hin, hout⟩ := m.apply_control s.dev e
    exact ⟨hin, hout, hframe.inn e, hframe.out e, hframe.txq e⟩
  · rintro rfl; rfl
  · rintro rfl; rfl
  · rintro e rfl; exact applyInput_outXfrc e s
  · rintro e b rfl; exact applyInput_epFlag .inn e b s
  · rintro e b rfl; exact applyInput_epFlag .out e b s
  · rintro b rfl; exact applyInput_otherGint b s

/-! ## The completion of a disable request (R257) -/

/-- R257: the guard of LK_DISABLE_DONE, the direction being IN. -/
theorem LinkMove.disableDone_enabled_inn {e : Nat} (he : e < N) (d : Dev .hardware) :
    (LinkMove.disableDone .inn e).enabled d = (slot d.diepctl e).epdis := by
  rw [LinkMove.enabled, Dev.disableDoneEnabled, decide_eq_true he, Bool.true_and]

/-- R257: the same of the direction OUT. -/
theorem LinkMove.disableDone_enabled_out {e : Nat} (he : e < N) (d : Dev .hardware) :
    (LinkMove.disableDone .out e).enabled d = (slot d.doepctl e).epdis := by
  rw [LinkMove.enabled, Dev.disableDoneEnabled, decide_eq_true he, Bool.true_and]

/-- Settles O59. -/
theorem linkCompletesADisable : Obligations.LinkCompletesADisable := fun d _ he =>
  ⟨fun h => LinkMove.apply_of_enabled ((LinkMove.disableDone_enabled_inn he d).trans h),
    fun h => LinkMove.apply_of_enabled ((LinkMove.disableDone_enabled_out he d).trans h),
    fun h => LinkMove.apply_of_disabled ((LinkMove.disableDone_enabled_inn he d).trans h),
    fun h => LinkMove.apply_of_disabled ((LinkMove.disableDone_enabled_out he d).trans h)⟩

/-! ## A received packet (R253, R254) -/

/-- R129: the codes whose data words follow. -/
theorem pktCarriesData_iff (pktsts : BitVec 4) : pktCarriesData pktsts = true ↔ pktsts = 2#4 ∨ pktsts = 6#4 := by
  simp [pktCarriesData, pktOutReceived, pktSetupReceived]

/-- R253: the number of data words. -/
theorem rxDataWords_eq (bcnt : Nat) (pktsts : BitVec 4) :
    rxDataWords bcnt pktsts = if pktsts = 2#4 ∨ pktsts = 6#4 then (bcnt + 3) / 4 else 0 := by
  simp only [rxDataWords, pktCarriesData_iff]
  rfl

/-- R253, R254: with parameters the rules allow, the guard of LK_RX_PUSH asks for room. -/
theorem LinkMove.rxPush_enabled {epnum bcnt : Nat} {pktsts : BitVec 4} {payload : List Byte} (dpid : BitVec 2)
    (d : Dev .hardware) (he : epnum < N) (hb : bcnt ≤ 2047)
    (hp : if pktsts = 2#4 ∨ pktsts = 6#4 then payload.length = bcnt else bcnt = 0) :
    (LinkMove.rxPush epnum bcnt dpid pktsts payload).enabled d =
      decide (d.rxq.length + 1 + rxDataWords bcnt pktsts ≤ d.rxfd.toNat) := by
  have hpay : (if pktCarriesData pktsts then payload.length == bcnt else bcnt == 0) = true := by
    simp only [pktCarriesData_iff]
    split at hp <;> simp [*]
  rw [LinkMove.enabled, Dev.rxPushEnabled, hpay, decide_eq_true he, decide_eq_true hb]
  rfl

/-- R253: the data words pushed after the status entry. -/
def rxPushData (draw : Nat) (pktsts : BitVec 4) (payload : List Byte) : List RegWord :=
  if pktsts = 2#4 ∨ pktsts = 6#4 then payloadWords draw payload else []

/-- R253, R258: the effect of LK_RX_PUSH while LayoutFits has held. -/
theorem Dev.rxPush_eq (d : Dev .hardware) (ho : d.overlap = false) (epnum bcnt : Nat) (dpid : BitVec 2)
    (pktsts : BitVec 4) (payload : List Byte) :
    d.rxPush epnum bcnt dpid pktsts payload = { d with
      rxq := d.rxq ++ .status (statusEntry epnum bcnt dpid pktsts) :: (rxPushData d.draws pktsts payload).map .data
      draws := d.draws + 1
      doepctl := if pktsts = 3#4 ∨ pktsts = 4#4 then
          setSlot d.doepctl epnum { slot d.doepctl epnum with epena := false, naksts := true }
        else d.doepctl } := by
  have hdata : (if pktCarriesData pktsts then (payloadWords d.draws payload).map RxWord.data else []) =
      (rxPushData d.draws pktsts payload).map (RxWord.data (sh := .hardware)) := by
    simp only [rxPushData, pktCarriesData_iff]
    split <;> rfl
  have hstop : (pktsts == pktOutComplete || pktsts == pktSetupComplete) = true ↔ pktsts = 3#4 ∨ pktsts = 4#4 := by
    simp [pktOutComplete, pktSetupComplete]
  simp only [Dev.rxPush, hdata, hstop, Dev.rxAppend, ho, blurRx_false]
  split <;> rfl

/-- Settles O57: the guard asks for room, the status entry has the fields and the data words the bytes of the packet. -/
theorem linkPushesAReceivedPacket : Obligations.LinkPushesAReceivedPacket := by
  intro d epnum bcnt dpid pktsts payload ho he hb hp nd d'
  have hguard := LinkMove.rxPush_enabled dpid d he hb hp
  rw [rxDataWords_eq] at hguard
  refine ⟨fun hroom => ?_, fun hfull => LinkMove.apply_of_disabled (hguard.trans (decide_eq_false (by omega)))⟩
  have hd' : d' = _ := (LinkMove.apply_of_enabled (hguard.trans (decide_eq_true hroom))).trans
    (d.rxPush_eq ho epnum bcnt dpid pktsts payload)
  obtain ⟨hfep, hfbc, hfdp, hfps, hfhi⟩ := statusEntry_fields epnum bcnt dpid pktsts
  obtain ⟨hlen, hlanes⟩ := payloadWords_spec d.draws payload
  refine ⟨statusEntry epnum bcnt dpid pktsts, rxPushData d.draws pktsts payload, by rw [hd'], ?_, ?_, hfdp, hfps, hfhi,
    ?_, fun hc k hk => ?_, by rw [hd']; simp [Dev.rxflvl]⟩
  · rw [hfep, BitVec.toNat_ofNat]
    exact Nat.mod_eq_of_lt (Nat.lt_trans he (by decide))
  · rw [hfbc, BitVec.toNat_ofNat]
    exact Nat.mod_eq_of_lt (Nat.lt_succ_of_le hb)
  · by_cases hc : pktsts = 2#4 ∨ pktsts = 6#4
    · rw [if_pos hc] at hp
      simp only [nd, rxPushData, if_pos hc, hlen, hp]
    · simp only [nd, rxPushData, if_neg hc, List.length_nil]
  · rw [if_pos hc] at hp
    rw [rxPushData, if_pos hc]
    exact hlanes k (hp ▸ hk)

/-! ## A packet sent (R255, R256) -/

/-- R255: the guards of LK_TX_SEND. -/
theorem LinkMove.txSend_enabled {e : Nat} (he : e < N) (d : Dev .hardware) :
    (LinkMove.txSend e).enabled d = true ↔
      (slot d.diepctl e).usbaep = true ∧ (slot d.diepctl e).epena = true ∧ (slot d.diepctl e).naksts = false ∧
      (slot d.diepctl e).stall = false ∧ 1 ≤ (slot d.dieptsiz e).pktcnt.toNat ∧
      ((slot d.dieptsiz e).xfrsiz.toNat + 3) / 4 ≤ (slot d.txq e).length := by
  have hwords : wordsFor (slot d.dieptsiz e).xfrsiz.toNat = ((slot d.dieptsiz e).xfrsiz.toNat + 3) / 4 := rfl
  simp only [LinkMove.enabled, Dev.txSendEnabled, hwords, Bool.and_eq_true, Bool.not_eq_true', decide_eq_true_eq,
    and_assoc]
  exact and_iff_right he

/-- R84, R255: the packet is made of the first bytes of TXQ[e], as many as the transfer size says. -/
theorem Dev.txSendBytes_spec (d : Dev .hardware) {e n : Nat} (hn : (slot d.dieptsiz e).xfrsiz.toNat = n)
    (hq : (n + 3) / 4 ≤ (slot d.txq e).length) :
    (d.txSendBytes e).length = n ∧
    ∀ k, k < n → (d.txSendBytes e)[k]?.getD 0#8 = lane ((slot d.txq e)[k / 4]?.getD 0#32) (k % 4) := by
  have hbytes : d.txSendBytes e = (((slot d.txq e).take ((n + 3) / 4)).flatMap wordBytes).take n := by
    rw [Dev.txSendBytes, hn]; rfl
  have hlen : ((slot d.txq e).take ((n + 3) / 4)).length = (n + 3) / 4 := List.length_take_of_le hq
  refine ⟨?_, fun k hk => ?_⟩
  · rw [hbytes, List.length_take, flatMap_wordBytes_length, hlen]
    omega
  · rw [hbytes, List.getElem?_take_of_lt hk, flatMap_wordBytes_get _ k (by omega),
      List.getElem?_take_of_lt (by omega)]

/-- Settles O58. -/
theorem linkSendsThePacket : Obligations.LinkSendsThePacket := by
  intro d e he ctl n ready
  have hguard : (LinkMove.txSend e).enabled d = true ↔ ready := LinkMove.txSend_enabled he d
  refine ⟨fun hr => ⟨d.txSendBytes e, LinkMove.apply_of_enabled (hguard.mpr hr), ?_⟩,
    fun hr => LinkMove.apply_of_disabled (Bool.eq_false_iff.mpr fun h => hr (hguard.mp h))⟩
  obtain ⟨-, -, -, -, -, hq⟩ := hr
  exact d.txSendBytes_spec rfl hq

/-! ## The enable and mask registers (R25, R26, R36, R37) -/

/-- GAHBCFG, GINTMSK, DIEPMSK and DOEPMSK are as in `d`. -/
def Dev.SameMasks (d d' : Dev .hardware) : Prop :=
  d'.gint = d.gint ∧ d'.gintmsk = d.gintmsk ∧ d'.diepmsk = d.diepmsk ∧ d'.doepmsk = d.doepmsk

theorem Dev.SameMasks.refl (d : Dev .hardware) : d.SameMasks d := ⟨rfl, rfl, rfl, rfl⟩

theorem Dev.SameMasks.trans {d₁ d₂ d₃ : Dev .hardware} (h : d₁.SameMasks d₂) (h' : d₂.SameMasks d₃) :
    d₁.SameMasks d₃ := by
  obtain ⟨hg, hm, hi, ho⟩ := h
  obtain ⟨hg', hm', hi', ho'⟩ := h'
  exact ⟨hg'.trans hg, hm'.trans hm, hi'.trans hi, ho'.trans ho⟩

/-- R266: LINK never writes the masks. -/
theorem Dev.SameForLink.masks {d d' : Dev .hardware} (h : d.SameForLink d') : d.SameMasks d' := by
  obtain ⟨-, hgm, hdi, hdo, hg, -⟩ := h
  exact ⟨hg, hgm, hdi, hdo⟩

/-- An access step that writes no mask register leaves them. -/
theorem perform_sameMasks {t : AccessStep .hardware} (ht : t.sparesMasks) {d₀ : Dev .hardware} (d : Dev .hardware)
    (h : d₀.SameMasks d) : d₀.SameMasks (perform t d).1 :=
  perform_keeps (P := d₀.SameMasks) t (fun d r w hr h => h.trans (Dev.regWrite_masks d r w (ht r hr))) (fun _ _ h => h)
    (fun _ _ _ _ _ h => h) (fun _ _ h => h) (fun _ _ _ h => h) (fun _ _ _ h => h) d h

/-- No move of LINK, the flush controller or HOST writes them. -/
theorem applyInput_sameMasks (i : Input .hardware) (s : State) (hi : i.fromAgents = true) :
    s.dev.SameMasks (applyInput i s).dev := by
  cases i with
  | link m => exact (m.apply_frame s.dev).same.masks
  | flush m =>
    cases m <;> simp only [applyInput, FlushMove.apply, Dev.flushTxDone, Dev.flushRxDone] <;> split <;> exact .refl _
  | host m =>
    cases m with
    | command ws => exact .refl _
    | ack => rw [applyInput, State.At.ackEvent]; split <;> exact .refl _
    | store a bs => rw [applyInput, Dev.memWriteAll_eq]; exact .refl _
  | core _ => exact .refl _
  | harness m => cases hi
  | reset => cases hi

/-- Settles O21: no access step of such a command writes a mask register, and no agent's move does. -/
theorem onlyInitCoreWritesTheMasks : Obligations.OnlyInitCoreWritesTheMasks := fun i s _ hi hok ht =>
  exec_dev (P := s.dev.SameMasks) hereditary_sparesMasks (fun _ d ha => perform_sameMasks ha d)
    (fun x s' hx _ h => h.trans (applyInput_sameMasks x s' hx)) (fun _ _ h => h)
    (commandSteps_sparesMasks s.dev.cfg i hi) hok ht (.refl _)

end Sys2Proof.Machine
end

section
/-! PROOFS. Faults stop nothing (spec/60_exceptions.md): every step answers a next state (R281, R302), and a failing `pre:`
line sets its bit of FAULT and changes nothing else (R282, R284). -/

namespace Sys2Proof.Machine

/-! ## Every step answers (R110, R302) -/

/-- R110: a command offered while CORE accepts one is run, whatever the script holds. -/
theorem issue_answers (cmd : Instr) (todo : List (AccessStep .hardware)) {s : State} (ha : s.seq.accepting = true) :
    ∃ t, issue cmd todo s = .next t := by
  cases hs : s.seq with
  | idle => rw [issue, hs]; exact ⟨_, rfl⟩
  | waitAck outer outerTodo => rw [issue, hs]; exact ⟨_, rfl⟩
  | run _ _ => simp [hs] at ha
  | nested _ _ _ _ => simp [hs] at ha

/-- R110, R282: while CORE accepts a command each one has a next state, that of its access steps or that of its fault. -/
theorem exec_answers (i : Instr) {s : State} (ha : s.seq.accepting = true) : ∃ t, exec i s = .next t := by
  rcases exec_cases i s with ⟨c, hc⟩ | hc
  · exact ⟨_, hc.trans (takeFault_accepting c s ha)⟩
  · rw [hc]
    exact issue_answers i _ ha

/-- R110: a command in progress goes on. -/
theorem step_inProgress {s : State} (ha : s.seq.accepting = false) : step s = .next s.proceed := by
  simp [step, stepWith, ha]

/-- R320: with no complete command on the port and nothing in the script CORE waits. -/
theorem step_quiet {s : State} (ha : s.seq.accepting = true) (hd : decode s.port = .incomplete) (hi : s.inputs = []) :
    step s = .next s := by
  rw [step_accepting ha, acceptStep, hd, hi]

/-- Settles O8: the step dispatches a command only where CORE accepts one, and there every command answers. -/
theorem stepAlwaysAnswersNext : Obligations.StepAlwaysAnswersNext := by
  intro s
  cases ha : s.seq.accepting with
  | false => exact ⟨_, step_inProgress ha⟩
  | true =>
    cases hd : decode s.port with
    | command i rest =>
      rw [stepRunsDecodedCommand s i rest ha hd]
      exact exec_answers i (s := { s with port := rest }) ha
    | reserved why rest => exact ⟨_, step_reserved ha hd⟩
    | incomplete =>
      cases hi : s.inputs with
      | nil => exact ⟨_, step_quiet ha hd hi⟩
      | cons i rest => exact ⟨_, step_incomplete ha hd hi⟩

/-! ## Failing `pre:` lines (R282 to R284) -/

/-- R282: a command whose `pre:` line `p` guards the rest `o` of it takes the line's fault where `p` fails. -/
theorem pre_fails {p : Prop} [Decidable p] {o : Host.Outcome State Fault Refusal} (c : FaultCause) {s : State}
    (ha : s.seq.accepting = true) (hp : ¬ p) :
    (if p then o else takeFault c s) = .next { s with dev := s.dev.raise c } :=
  (if_neg hp).trans (takeFault_accepting c s ha)

/-- R160, R161: the max packet sizes that `bad_size` turns down. -/
theorem not_mpsLegal {mps : Nat} (h : mps = 0 ∨ 2047 < mps) : ¬ mpsLegal mps = true := by
  rw [mpsLegal_iff]
  omega

/-- Settles O15: each command's meaning is its `pre:` lines in order, the failing one decided by the operands. -/
theorem failingPreconditionOnlySetsFault : Obligations.FailingPreconditionOnlySetsFault := by
  intro s ha
  refine ⟨fun ep size hep => ?_, fun mps hm => ?_, fun ep t mps hep => ?_, fun ep t mps hlo hhi hm => ?_,
    fun ep hep => ?_, fun ep hep => ?_, fun ep size ba hep => ?_⟩
  · exact pre_fails .epRange ha (Nat.not_lt.mpr hep)
  · exact pre_fails .badSize ha (not_mpsLegal hm)
  · have hrange : ¬ (1 ≤ ep ∧ ep < N) := by omega
    exact pre_fails .epRange ha hrange
  · have hrange : 1 ≤ ep ∧ ep < N := ⟨hlo, hhi⟩
    exact (if_pos hrange).trans (pre_fails .badSize ha (not_mpsLegal hm))
  · exact pre_fails .epRange ha (Nat.not_lt.mpr hep)
  · exact pre_fails .epRange ha (Nat.not_lt.mpr hep)
  · exact pre_fails .epRange ha (Nat.not_lt.mpr hep)

end Sys2Proof.Machine
end

section
/-! PROOFS. The hardware reset in mid-command (spec/70_reset_and_hazards.md R320): the turn that takes it from the script
leaves CORE idle, so the command's remaining turns are not taken. -/

namespace Sys2Proof.Machine

/-- R320: the turn of a hardware reset gives CORE no access step. -/
theorem turn_reset {s : State} {rest : List (Input .hardware)} (hi : s.inputs = .reset :: rest) :
    turn s = { s with inputs := rest }.hardReset := by
  simp only [turn, hi, applyInput]

/-- R320: a command in progress gets no turn after a hardware reset. -/
theorem proceed_reset {s : State} {rest : List (Input .hardware)} (ha : s.seq.accepting = false)
    (hi : s.inputs = .reset :: rest) : s.proceed = { s with inputs := rest }.hardReset := by
  have hturn : s.proceed = drive (s.inputs.length + costOf s.seq.todo) (turn s) := by
    simp [State.At.proceed, State.At.turnsLeft, drive, ha, hi]
  rw [hturn, turn_reset hi]
  exact drive_accepting _ _ rfl

/-- Settles O12. -/
theorem resetAbandonsTheCommand : Obligations.ResetAbandonsTheCommand := by
  intro s rest ha hi
  exact ⟨_, (step_inProgress ha).trans (congrArg _ (proceed_reset ha hi)), rfl, rfl, rfl, rfl⟩

end Sys2Proof.Machine
end
